-- ==== Sys2Proof/Word.lean ====
section
/-! DEFINITION. The word types of the block: one byte of the framebuffer or the bus, and one host request word (30_encoding R64). -/

namespace Sys2Proof

/-- A byte: a framebuffer byte, a bus byte, a response byte (20_memory R39, R50). -/
abbrev Byte := BitVec 8

/-- A host request word; bit 0 is the least significant (30_encoding R64, R65). -/
abbrev Word := BitVec 32

end Sys2Proof
end

