-- ==== Sys2Proof/Syntax.lean ====
section
/-! DEFINITION. The instructions: the 13 host requests and the 4 panel command bytes of spec/opcode_table.json, and the pseudo-instructions of 30_encoding R73. -/

namespace Sys2Proof

/-- One constructor per row of the opcode table: the host requests (30_encoding R66), then the panel command bytes (30_encoding R75). -/
inductive Instr where
  /-- WRCMD: send one command byte (40_bus_interface R87). -/
  | wrcmd (b : Byte)
  /-- WRDATA: send one data byte (R88). -/
  | wrdata (b : Byte)
  /-- RDSTAT: read the panel's status byte (R90). -/
  | rdstat
  /-- SELCHIP: select a chip or none; the operand is the whole 8-bit chip code (R93, 30_encoding R67). -/
  | selchip (c : Byte)
  /-- PRESET: pulse the panel reset line (R96). -/
  | preset
  /-- INIT (41_refresh_driver R99). -/
  | init
  /-- CLEAR (R112). -/
  | clear
  /-- SETORIENT: `reversed` is DATA[0] (R100). -/
  | setorient (reversed : Bool)
  /-- REFRESH (R107). -/
  | refresh
  /-- FBWR: the offset is the 12-bit ADDR field, 0 to 4095 (42_host_port R120). -/
  | fbwr (addr : BitVec 12) (v : Byte)
  /-- FBRD (R121). -/
  | fbrd (addr : BitVec 12)
  /-- FBFILL (R122). -/
  | fbfill (v : Byte)
  /-- RDCTRL (R123). -/
  | rdctrl
  /-- Panel command DISPLAY_ON (30_encoding R75). -/
  | displayOn
  /-- Panel command SET_COLUMN, column 0..63. -/
  | setColumn (c : BitVec 6)
  /-- Panel command SET_PAGE, page 0..7. -/
  | setPage (p : BitVec 3)
  /-- Panel command START_LINE, line 0..63. -/
  | startLine (l : BitVec 6)
  deriving DecidableEq, Repr

/-- The pseudo-instructions of 30_encoding R73. Their operands are numbers as an assembler line spells them; the ranges are checked by `Pseudo.inRange`. -/
inductive Pseudo where
  | show
  | deselect
  | dispon
  | setstart (l : Nat)
  | setpage (p : Nat)
  | setcol (c : Nat)
  | fbclr
  deriving DecidableEq, Repr

/-- The 15 logical lines of the block (00_scope R6; 10_state R25, R26). -/
inductive Line where
  | rs | rw | en | rst | cs1 | cs2 | cs3
  | db (i : Fin 8)
  deriving DecidableEq, Repr

/-- Every logical line, control lines first (10_state R29). -/
def Line.all : List Line :=
  [.rs, .rw, .en, .rst, .cs1, .cs2, .cs3,
   .db 0, .db 1, .db 2, .db 3, .db 4, .db 5, .db 6, .db 7]

end Sys2Proof
end

