-- ==== Sys2Proof/Config.lean ====
section
/-! DEFINITION. What a build fixes (00_scope R6 to R9) and the free values: opaque constants, applied to counters of State, that nothing can evaluate. -/

namespace Sys2Proof

/-! ### Fixed geometry and timing (00_scope R6, R7) -/

/-- WIDTH, in pixels. -/
def width : Nat := 192
/-- HEIGHT, in pixels. -/
def height : Nat := 64
/-- PAGES per chip. -/
def pages : Nat := 8
/-- COLS per chip. -/
def cols : Nat := 64
/-- FB_BYTES = WIDTH × HEIGHT / 8. -/
def fbBytes : Nat := 1536
/-- T_EN_MIN = 1 µs, in nanoseconds; a lower bound (R7). -/
def tEnMinNs : Nat := 1000
/-- T_RST_MIN = 1 ms, in nanoseconds; a lower bound (R7). -/
def tRstMinNs : Nat := 1000000

/-! ### The parameters of a build -/

/-- The panel command constants, which the spec makes parameters (00_scope R8, 30_encoding R75). -/
structure CmdCodes where
  startLine : Byte
  setColumn : Byte
  setPage   : Byte
  displayOn : Byte
  deriving DecidableEq, Repr

/-- The default values of 00_scope R8. PRESUMED by the spec itself ("from general knowledge, not in source"), log 5. -/
def CmdCodes.default : CmdCodes :=
  { startLine := 0xC0, setColumn := 0x40, setPage := 0xB8, displayOn := 0x3F }

/-- PANEL_NONE_SELECTED: what the panel does with a strobe while no chip is selected (20_memory R60). -/
inductive NoneSelected where
  | ignore
  | broadcast
  deriving DecidableEq, Repr, Inhabited

/-- PIN_MAP: each entry binds a logical line to a physical pin (10_state R29). -/
abbrev PinMap := List (Line × Nat)

/-- The parameters fixed when the block is built. State carries them, so that every statement holds for every build; no step changes them (log 4). -/
structure Config where
  codes        : CmdCodes
  noneSelected : NoneSelected
  /-- T_AS in nanoseconds (00_scope R9). -/
  tAsNs        : Nat
  /-- F_CLK in hertz (00_scope R9). -/
  fClkHz       : Nat
  pinMap       : PinMap
  deriving DecidableEq, Repr

/-! ### Free values (opaque: no body) -/

/-- The OPEN parameter PANEL_NONE_SELECTED of the build at reset (log 8). -/
opaque Config.openNoneSelected : NoneSelected
/-- The OPEN parameter F_CLK of the build at reset, in hertz (log 9). -/
opaque Config.openFClk : Nat
/-- FB_RESET: the byte at an offset after the block reset of the given number (10_state R33, log 6). -/
opaque Config.fbReset : Nat → Nat → Byte
/-- STATUS_VALUE: the levels on DB0..DB7 while the block does not drive them (40_bus_interface R90, log 7). -/
opaque Config.statusValue : Nat → Byte
/-- How many clock cycles a wait lasts beyond its minimum (93 I6, log 11). -/
opaque Config.waitExtra : Nat → Nat
/-- A drawn display-on flag of a panel chip (20_memory R61, R63, log 12). -/
opaque Config.chipOn : Nat → Bool
/-- A drawn start line of a panel chip. -/
opaque Config.chipStart : Nat → BitVec 6
/-- A drawn page register of a panel chip. -/
opaque Config.chipPage : Nat → BitVec 3
/-- A drawn column counter of a panel chip. -/
opaque Config.chipCol : Nat → BitVec 6
/-- The drawn byte of a panel cell, by draw number and cell number. -/
opaque Config.chipCell : Nat → Nat → Byte
/-- Whether the trace records an EN pulse that block reset cut short (log 14). -/
opaque Config.cutRecorded : Nat → Bool
/-- SEQ_CHIP minus 1, outside a refresh (10_state R17, log 16). -/
opaque Config.seqChip : Nat → Fin 3
/-- SEQ_PAGE outside a refresh. -/
opaque Config.seqPage : Nat → BitVec 3
/-- SEQ_COL outside a refresh. -/
opaque Config.seqCol : Nat → BitVec 6

/-- The pin map of the build at reset: line number k on pin k. DESIGN CHOICE (log 10): no rule depends on it. -/
def Config.plainPinMap : PinMap := Line.all.zipIdx

/-- The build that `State.reset` describes: defaults where the spec gives them, free values where a parameter is OPEN, the plain pin map. -/
def Config.build : Config :=
  { codes        := CmdCodes.default
    noneSelected := Config.openNoneSelected
    tAsNs        := 0
    fClkHz       := Config.openFClk
    pinMap       := Config.plainPinMap }

end Sys2Proof
end

