-- ==== Sys2Proof/WellFormed.lean ====
section
/-! DEFINITION. The checks on terms: which instructions are host requests, the operand ranges of the pseudo-instructions, the pin map of a build. An `Instr` needs no range check: the width of each operand's type is the width of its field (30_encoding R65, R75). -/

namespace Sys2Proof

/-- The 13 host requests (30_encoding R66); the other four rows are panel command bytes (R75). -/
def Instr.isRequest : Instr → Bool
  | .wrcmd _ => true
  | .wrdata _ => true
  | .rdstat => true
  | .selchip _ => true
  | .preset => true
  | .init => true
  | .clear => true
  | .setorient _ => true
  | .refresh => true
  | .fbwr _ _ => true
  | .fbrd _ => true
  | .fbfill _ => true
  | .rdctrl => true
  | .displayOn => false
  | .setColumn _ => false
  | .setPage _ => false
  | .startLine _ => false

/-- The operand ranges of the pseudo-instructions; "an assembler refuses an operand outside the range given" (30_encoding R73). -/
def Pseudo.inRange : Pseudo → Bool
  | .show => true
  | .deselect => true
  | .dispon => true
  | .setstart l => decide (l ≤ 63)
  | .setpage p => decide (p ≤ 7)
  | .setcol c => decide (c ≤ 63)
  | .fbclr => true

/-- Every line is bound, once, and to a pin of its own (10_state R30). -/
def PinMap.valid (m : PinMap) : Bool :=
  Line.all.all (fun l => (m.filter (fun e => e.1 == l)).length == 1)
    && decide (m.map (·.2)).Nodup

/-- A build the model gives runs to: one with a good pin map (10_state R30, 93 I17). -/
def Config.valid (c : Config) : Bool := PinMap.valid c.pinMap

end Sys2Proof
end

