-- ==== Sys2Proof/Decode.lean ====
section
/-! DEFINITION. Decoding a host request word (30_encoding R64 to R71) and a panel command byte (R75, 20_memory R61), and the encoder, written from the same tables. -/

namespace Sys2Proof

/-! ### The fields of a request word (30_encoding R65) -/

/-- OP, bits 31:28. -/
def opField (w : Word) : BitVec 4 := w.extractLsb' 28 4
/-- ADDR, bits 27:16. -/
def addrField (w : Word) : BitVec 12 := w.extractLsb' 16 12
/-- RSV, bits 15:8. -/
def rsvField (w : Word) : Byte := w.extractLsb' 8 8
/-- DATA, bits 7:0. -/
def dataField (w : Word) : Byte := w.extractLsb' 0 8

/-! ### The request decoder -/

/-- One row of the table of 30_encoding R66: a word is the row's when `(word & mask) = match`. -/
structure RequestRow where
  mask  : Word
  bits  : Word
  instr : BitVec 12 → Byte → Instr

/-- The table of 30_encoding R66, operands assembled as in R67. -/
def requestRows : List RequestRow :=
  [ ⟨0xFFFFFF00, 0x10000000, fun _ d => .wrcmd d⟩,
    ⟨0xFFFFFF00, 0x20000000, fun _ d => .wrdata d⟩,
    ⟨0xFFFFFFFF, 0x30000000, fun _ _ => .rdstat⟩,
    ⟨0xFFFFFF00, 0x40000000, fun _ d => .selchip d⟩,
    ⟨0xFFFFFFFF, 0x50000000, fun _ _ => .preset⟩,
    ⟨0xFFFFFFFF, 0x60000000, fun _ _ => .init⟩,
    ⟨0xFFFFFFFF, 0x70000000, fun _ _ => .clear⟩,
    ⟨0xFFFFFFFE, 0x80000000, fun _ d => .setorient (d.getLsbD 0)⟩,
    ⟨0xFFFFFFFF, 0x90000000, fun _ _ => .refresh⟩,
    ⟨0xF000FF00, 0xA0000000, fun a d => .fbwr a d⟩,
    ⟨0xF000FFFF, 0xB0000000, fun a _ => .fbrd a⟩,
    ⟨0xFFFFFF00, 0xC0000000, fun _ d => .fbfill d⟩,
    ⟨0xFFFFFFFF, 0xD0000000, fun _ _ => .rdctrl⟩ ]

/-- Whether a word is a row's word (30_encoding R66). -/
def RequestRow.holds (r : RequestRow) (w : Word) : Bool := w &&& r.mask == r.bits

/-- The decoder of 30_encoding R70, total on all words; `none` is "Illegal". The last example of R83 disagrees with R65 (log 27). -/
def decodeRequest (w : Word) : Option Instr :=
  (requestRows.find? (fun r => r.holds w)).map (fun r => r.instr (addrField w) (dataField w))

/-! ### The panel command decoder -/

/-- How the reference panel reads a command byte, in the order of 20_memory R61 (log 25); `none` is "any other byte". -/
def decodePanel (c : CmdCodes) (b : Byte) : Option Instr :=
  if b = c.displayOn then some .displayOn
  else if b &&& 0xC0 = c.setColumn then some (.setColumn (b.extractLsb' 0 6))
  else if b &&& 0xF8 = c.setPage then some (.setPage (b.extractLsb' 0 3))
  else if b &&& 0xC0 = c.startLine then some (.startLine (b.extractLsb' 0 6))
  else none

/-! ### An encoded instruction: a request word or a panel command byte -/

/-- The two formats of the opcode table. -/
inductive Encoded where
  | request (w : Word)
  | panel (b : Byte)
  deriving DecidableEq, Repr

/-- Decoding in either format, with the build's command codes. -/
def decode (c : CmdCodes) : Encoded → Option Instr
  | .request w => decodeRequest w
  | .panel b => decodePanel c b

/-- The instruction read from a table word of `nbits` bits: 8-bit rows are panel command bytes, at the default codes of the table (30_encoding R75); every other row is a 32-bit request word (R64, R71). -/
def decodeTableWord (nbits w : Nat) : Option Instr :=
  if nbits = 8 then
    if w < 256 then decodePanel CmdCodes.default (BitVec.ofNat 8 w) else none
  else if nbits ≤ 32 then
    if w < 4294967296 then decodeRequest (BitVec.ofNat 32 w) else none
  else none

/-! ### The encoder -/

/-- A request word from its fields, RSV = 0 (30_encoding R65). -/
def requestWord (op : BitVec 4) (addr : BitVec 12) (data : Byte) : Word :=
  op ++ addr ++ (0#8) ++ data

/-- `base | operand`, the operand zero-extended (30_encoding R76). -/
def commandByte {n : Nat} (base : Byte) (operand : BitVec n) : Byte :=
  base ||| operand.zeroExtend 8

/-- The encoding of each instruction (30_encoding R66, R75, R76). -/
def encode (c : CmdCodes) : Instr → Encoded
  | .wrcmd b => .request (requestWord 0x1 0 b)
  | .wrdata b => .request (requestWord 0x2 0 b)
  | .rdstat => .request (requestWord 0x3 0 0)
  | .selchip n => .request (requestWord 0x4 0 n)
  | .preset => .request (requestWord 0x5 0 0)
  | .init => .request (requestWord 0x6 0 0)
  | .clear => .request (requestWord 0x7 0 0)
  | .setorient r => .request (requestWord 0x8 0 (if r then 1 else 0))
  | .refresh => .request (requestWord 0x9 0 0)
  | .fbwr a v => .request (requestWord 0xA a v)
  | .fbrd a => .request (requestWord 0xB a 0)
  | .fbfill v => .request (requestWord 0xC 0 v)
  | .rdctrl => .request (requestWord 0xD 0 0)
  | .displayOn => .panel c.displayOn
  | .setColumn k => .panel (commandByte c.setColumn k)
  | .setPage p => .panel (commandByte c.setPage p)
  | .startLine l => .panel (commandByte c.startLine l)

end Sys2Proof
end

