-- ==== Sys2Proof/Machine/State.lean ====
section
/-! DEFINITION. The machine's state as plain data (10_state R15; the reference panel of 20_memory R59; what a model observes, 30_encoding R80, 60_exceptions R128), why a step can stop, and the state after reset (10_state R32). -/

namespace Sys2Proof.Machine

/-! ### The block -/

/-- Bytes by address. `cells` lists, in rising order of address, the bytes written since the contents were last unspecified; an unlisted address reads as the free value of the bank's `draw` number (10_state R33, log 6). -/
@[ext]
structure Bank where
  cells : List Host.Cell
  draw  : Nat
  deriving DecidableEq, Repr

/-- The stored fields of CTRL (10_state R23). CSSEL is a view of the chip-select lines (`Lines.cssel`, log 24). -/
@[ext]
structure Ctrl where
  init    : Bool
  orient  : Bool
  err     : Bool
  errCode : BitVec 3
  deriving DecidableEq, Repr

/-- The output line latches (10_state R25, R26); `true` is high. -/
@[ext]
structure Lines where
  rs    : Bool
  rw    : Bool
  en    : Bool
  rst   : Bool
  cs1   : Bool
  cs2   : Bool
  cs3   : Bool
  dbOut : Byte
  dbOe  : Bool
  deriving DecidableEq, Repr

/-- The sequencer's counters (10_state R17). -/
@[ext]
structure Seq where
  chip : BitVec 2
  page : BitVec 3
  col  : BitVec 6
  deriving DecidableEq, Repr

/-- A response: `RSP_DATA` and `RSP_ERR`, or one completion presented to the host (10_state R28, 60_exceptions R128). -/
@[ext]
structure Response where
  data : Byte
  err  : Bool
  deriving DecidableEq, Repr

/-- The request in progress: its decoded fields, its position in its pseudocode (10_state R18, R20), and the pseudocode's local variable `v`, `none` until the status read has sampled it (40_bus_interface R89, log 23). -/
structure InProgress where
  req : Instr
  pos : Nat
  v   : Option Byte
  deriving DecidableEq, Repr

/-- The engine phase (10_state R20). -/
inductive Engine where
  | idle
  | busy (p : InProgress)
  deriving DecidableEq, Repr

/-! ### The reference panel -/

/-- One segment chip of the reference panel (20_memory R59); the cell (page, column) has address page*64 + column. -/
@[ext]
structure Chip where
  on    : Bool
  start : BitVec 6
  page  : BitVec 3
  col   : BitVec 6
  cells : Bank
  deriving DecidableEq, Repr

/-- The three chips of the panel (20_memory R59). -/
@[ext]
structure Panel where
  chip1 : Chip
  chip2 : Chip
  chip3 : Chip
  deriving DecidableEq, Repr

/-! ### What a model observes, and the host's side -/

/-- One bus transaction, `cs = {CS3, CS2, CS1}` (30_encoding R80). -/
structure Tx where
  rs : Bool
  rw : Bool
  cs : BitVec 3
  db : Byte
  deriving DecidableEq, Repr

/-- What the host does next (60_exceptions R127; 70_reset_and_hazards R144; log 3). -/
inductive HostEvent where
  /-- Present a request word; its request is carried out in one step (20_memory R52, log 2). -/
  | request (w : Word)
  /-- Present a request word; its request is then carried out one engine step at a time (10_state R35, log 2). -/
  | requestStepwise (w : Word)
  /-- Do nothing for one step. -/
  | pause
  /-- Assert block reset. -/
  | blockReset
  deriving DecidableEq, Repr

/-- How many free values of each kind have been drawn: the model's own field (log 7). -/
@[ext]
structure Draws where
  status : Nat
  wait   : Nat
  panel  : Nat
  cut    : Nat
  seq    : Nat
  deriving DecidableEq, Repr

/-! ### The state -/

@[ext]
structure State where
  cfg            : Config
  fb             : Bank
  ctrl           : Ctrl
  lines          : Lines
  seq            : Seq
  rsp            : Response
  engine         : Engine
  waiting        : Option Nat
  panel          : Panel
  traceRev       : List Tx
  completionsRev : List Response
  script         : List HostEvent
  draws          : Draws
  deriving DecidableEq, Repr

/-- The trace: the transactions in order, oldest first (30_encoding R80). -/
def State.trace (s : State) : List Tx := s.traceRev.reverse

/-- The completions presented, oldest first (60_exceptions R128). -/
def State.completions (s : State) : List Response := s.completionsRev.reverse

/-! ### Why a step can stop -/

/-- Stops in states that no run from reset reaches. -/
inductive Fault where
  /-- Raised by the meaning of every host request when the engine is BUSY: the block accepts no word then (60_exceptions R127). `step` never does this. Safe: no claim follows about such a state (log 19). -/
  | engineBusy
  /-- Raised by the engine step when the engine is BUSY at a position its request does not have (10_state R18). Safe (log 19). -/
  | noSuchPosition
  deriving DecidableEq, Repr

/-- Refusals. -/
inductive Refusal where
  /-- Raised by `exec`'s arms for an instruction with no meaning yet; no arm is one. Safe. -/
  | notModelled (mnemonic : String)
  /-- Raised by `step` when the build's pin map binds two lines to one pin or leaves one unbound: "a model refuses such a configuration and gives it no runs" (10_state R30). Safe. -/
  | badPinMap
  deriving DecidableEq, Repr

/-! ### Reset -/

/-- A chip whose every value is the free value number `k` (20_memory R61, R63; 93 I11). -/
def Chip.drawn (k : Nat) : Chip :=
  { on := Config.chipOn k, start := Config.chipStart k, page := Config.chipPage k
    col := Config.chipCol k, cells := { cells := [], draw := k } }

/-- Sequencer counters whose values are free, inside their ranges (10_state R17, log 16). -/
def Seq.drawn (k : Nat) : Seq :=
  { chip := BitVec.ofNat 2 ((Config.seqChip k).val + 1), page := Config.seqPage k, col := Config.seqCol k }

/-- The line levels after block reset (10_state R32). -/
def Lines.reset : Lines :=
  { rs := false, rw := false, en := false, rst := true, cs1 := true, cs2 := true, cs3 := true
    dbOut := 0x00, dbOe := true }

/-- CTRL after block reset (10_state R32). -/
def Ctrl.reset : Ctrl := { init := false, orient := false, err := false, errCode := 0 }

/-- The machine right after its first block reset (10_state R32): the panel has had no reset pulse yet (93 I11), nothing has been observed, and the host has issued nothing. -/
def State.reset : State :=
  { cfg            := Config.build
    fb             := { cells := [], draw := 0 }
    ctrl           := Ctrl.reset
    lines          := Lines.reset
    seq            := Seq.drawn 0
    rsp            := { data := 0x00, err := false }
    engine         := .idle
    waiting        := none
    panel          := { chip1 := Chip.drawn 0, chip2 := Chip.drawn 1, chip3 := Chip.drawn 2 }
    traceRev       := []
    completionsRev := []
    script         := []
    draws          := { status := 0, wait := 0, panel := 3, cut := 0, seq := 1 } }

end Sys2Proof.Machine
end

