-- ==== Sys2Proof/Machine/Memory.lean ====
section
/-! DEFINITION. Byte memories: the framebuffer (20_memory R39) and the panel's cells (R59), held as address and byte pairs in one canonical form, addresses strictly rising. -/

namespace Sys2Proof.Machine

/-! ### The list of written bytes -/

/-- The byte listed at an address, if any. -/
def cellsFind : List Host.Cell → Nat → Option Byte
  | [], _ => none
  | (b, w) :: rest, a => if a = b then some w else cellsFind rest a

/-- Writing a byte: the entry replaced, or put in its place in the order. -/
def cellsWrite : List Host.Cell → Nat → Byte → List Host.Cell
  | [], a, v => [(a, v)]
  | (b, w) :: rest, a, v =>
    if a < b then (a, v) :: (b, w) :: rest
    else if a = b then (a, v) :: rest
    else (b, w) :: cellsWrite rest a v

/-- The `n` addresses from `a` on, each holding the byte `v`. -/
def cellsFill (a : Nat) (v : Byte) : Nat → List Host.Cell
  | 0 => []
  | n + 1 => (a, v) :: cellsFill (a + 1) v n

/-- Addresses rise strictly, from `lo` on, and stay below `hi`. -/
def cellsRise (lo hi : Nat) : List Host.Cell → Bool
  | [] => true
  | (a, _) :: rest => decide (lo ≤ a) && decide (a < hi) && cellsRise (a + 1) hi rest

/-! ### Banks -/

/-- The canonical form of a bank of `n` bytes. An unlisted address holds no value of its own but the bank's free one, so no listed entry equals what an unlisted address holds (log 6). -/
def Bank.wf (n : Nat) (b : Bank) : Bool := cellsRise 0 n b.cells

/-- Writing one byte of a bank. -/
def Bank.write (b : Bank) (a : Nat) (v : Byte) : Bank := { b with cells := cellsWrite b.cells a v }

/-- Writing the same byte at every address below `n`. -/
def Bank.fill (n : Nat) (v : Byte) (b : Bank) : Bank := { b with cells := cellsFill 0 v n }

/-- Reading one byte of the framebuffer; a byte not written since block reset is its reset draw (20_memory R58, 10_state R33). -/
def fbRead (s : State) (a : Nat) : Byte := (cellsFind s.fb.cells a).getD (Config.fbReset s.fb.draw a)

/-- `FB[a] <- v` (00_scope R12). -/
def fbWrite (a : Nat) (v : Byte) (s : State) : State := { s with fb := s.fb.write a v }

/-- `for a in 0..1535: FB[a] <- v` (42_host_port R122, 41_refresh_driver R112). -/
def fbFill (v : Byte) (s : State) : State := { s with fb := s.fb.fill fbBytes v }

/-- The address of a panel cell in its chip (20_memory R59). -/
def cellAddr (page : BitVec 3) (col : BitVec 6) : Nat := page.toNat * 64 + col.toNat

/-- Reading one cell of a chip (20_memory R59). -/
def Chip.cell (c : Chip) (page : BitVec 3) (col : BitVec 6) : Byte :=
  (cellsFind c.cells.cells (cellAddr page col)).getD (Config.chipCell c.cells.draw (cellAddr page col))

/-- Both kinds of memory of the machine are in canonical form. -/
def State.memWf (s : State) : Bool :=
  s.fb.wf fbBytes && s.panel.chip1.cells.wf 512 && s.panel.chip2.cells.wf 512 && s.panel.chip3.cells.wf 512

end Sys2Proof.Machine
end

