-- ==== Sys2Proof/Machine/Operands.lean ====
section
/-! DEFINITION. The operand forms: chip codes (40_bus_interface R92), the cell mapping (20_memory R43 to R46), the bit-reversal engine (41_refresh_driver R101), the source byte (R104), pixels (20_memory R41), and the levels on the lines (10_state R26, 30_encoding R78). -/

namespace Sys2Proof.Machine

/-! ### Chip select -/

/-- CS1, CS2, CS3 for a chip code; active low, every code but 1, 2 and 3 deselects all (40_bus_interface R92, R94). -/
def selectLines (c : Byte) (l : Lines) : Lines :=
  if c = 1 then { l with cs1 := false, cs2 := true, cs3 := true }
  else if c = 2 then { l with cs1 := true, cs2 := false, cs3 := true }
  else if c = 3 then { l with cs1 := true, cs2 := true, cs3 := false }
  else { l with cs1 := true, cs2 := true, cs3 := true }

/-- `{CS3, CS2, CS1}` (30_encoding R80). -/
def Lines.cs (l : Lines) : BitVec 3 := BitVec.ofBool l.cs3 ++ BitVec.ofBool l.cs2 ++ BitVec.ofBool l.cs1

/-- The `cs` field while chip `k` is selected: 0b110, 0b101, 0b011, and 0b111 for none (30_encoding R81). -/
def csOf (k : Nat) : BitVec 3 :=
  if k = 1 then 0b110 else if k = 2 then 0b101 else if k = 3 then 0b011 else 0b111

/-- At most one chip selected: the four legal combinations (10_state R27). -/
def csLegal (cs : BitVec 3) : Bool := cs == 0b110 || cs == 0b101 || cs == 0b011 || cs == 0b111

/-! ### The cell mapping -/

/-- The framebuffer offset of a cell (20_memory R43). -/
def offset (chip page column : Nat) : Nat := column + page * 192 + (chip - 1) * 64

/-- The cell of an offset: chip, page, column (20_memory R45). -/
def cellOf (a : Nat) : Nat × Nat × Nat := (a % 192 / 64 + 1, a / 192, a % 64)

/-! ### Bit reversal -/

/-- `r[7-i] = x[i]` (41_refresh_driver R101). -/
def rev8 (x : Byte) : Byte :=
  BitVec.ofBool (x.getLsbD 0) ++ BitVec.ofBool (x.getLsbD 1) ++ BitVec.ofBool (x.getLsbD 2) ++
  BitVec.ofBool (x.getLsbD 3) ++ BitVec.ofBool (x.getLsbD 4) ++ BitVec.ofBool (x.getLsbD 5) ++
  BitVec.ofBool (x.getLsbD 6) ++ BitVec.ofBool (x.getLsbD 7)

/-! ### The source byte -/

/-- The byte sent for a cell (41_refresh_driver R104; the reversed index is 20_memory R46). -/
def src (s : State) (chip page column : Nat) : Byte :=
  if s.ctrl.orient then rev8 (fbRead s (1535 - offset chip page column))
  else fbRead s (offset chip page column)

/-- The source byte at the sequencer's counters. -/
def srcAtSeq (s : State) : Byte := src s s.seq.chip.toNat s.seq.page.toNat s.seq.col.toNat

/-! ### Pixels -/

/-- Pixel (x, y) of the framebuffer (20_memory R41). -/
def fbPixel (s : State) (x y : Nat) : Bool := (fbRead s (x + y / 8 * 192)).getLsbD (y % 8)

/-! ### The levels on the lines -/

/-- The byte on DB7..DB0: the latch while the block drives it, else a free value, which holds still up to the sample of a status read and is another one after it (10_state R26; 40_bus_interface R90; log 7). -/
def dbLevels (s : State) : Byte := if s.lines.dbOe then s.lines.dbOut else Config.statusValue s.draws.status

/-- The bus word `{RST, RS, RW, EN, CS3, CS2, CS1, DB7..DB0}` (30_encoding R78). -/
def busWord (s : State) : BitVec 15 :=
  BitVec.ofBool s.lines.rst ++ BitVec.ofBool s.lines.rs ++ BitVec.ofBool s.lines.rw ++
  BitVec.ofBool s.lines.en ++ s.lines.cs ++ dbLevels s

/-- The level of one logical line (10_state R25, R26). -/
def lineLevel (s : State) : Line → Bool
  | .rs => s.lines.rs
  | .rw => s.lines.rw
  | .en => s.lines.en
  | .rst => s.lines.rst
  | .cs1 => s.lines.cs1
  | .cs2 => s.lines.cs2
  | .cs3 => s.lines.cs3
  | .db i => (dbLevels s).getLsbD i.val

/-- The level of a physical pin, where the pin map binds it (10_state R29). -/
def pinLevel (s : State) (p : Nat) : Option Bool :=
  (s.cfg.pinMap.find? (fun e => e.2 == p)).map (fun e => lineLevel s e.1)

end Sys2Proof.Machine
end

