-- ==== Sys2Proof/Machine/Flags.lean ====
section
/-! DEFINITION. The CTRL register and its flags (10_state R19 to R24, R37) and the error codes (60_exceptions R129). The block has no condition codes (10_state R37). -/

namespace Sys2Proof.Machine

/-- CSSEL: which chip the chip-select lines select, 0 for none (10_state R27). -/
def Lines.cssel (l : Lines) : BitVec 2 :=
  if l.cs = 0b110 then 1 else if l.cs = 0b101 then 2 else if l.cs = 0b011 then 3 else 0

/-- `CTRL = {CSSEL[1:0], ERRCODE[2:0], ERR, ORIENT, INIT}` (42_host_port R123, 10_state R23). -/
def ctrlReg (s : State) : Byte :=
  s.lines.cssel ++ s.ctrl.errCode ++ BitVec.ofBool s.ctrl.err ++
  BitVec.ofBool s.ctrl.orient ++ BitVec.ofBool s.ctrl.init

/-- The errors the block raises (60_exceptions R129). -/
inductive ErrCode where
  | illegalRequest
  | fbRange
  | notInitialized
  | alreadyInitialized
  deriving DecidableEq, Repr

/-- The 3-bit code recorded in ERRCODE (60_exceptions R129). -/
def ErrCode.code : ErrCode → BitVec 3
  | .illegalRequest => 1
  | .fbRange => 2
  | .notInitialized => 3
  | .alreadyInitialized => 4

/-- The error record of a rejection: the first code is kept, ERR is sticky (60_exceptions R130, R131). -/
def recordError (e : ErrCode) (c : Ctrl) : Ctrl :=
  { c with errCode := if c.err then c.errCode else e.code, err := true }

end Sys2Proof.Machine
end

