-- ==== Sys2Proof/Machine/Panel.lean ====
section
/-! DEFINITION. The reference panel (20_memory R59 to R63): what a chip does with a command byte, a data byte, and a reset pulse, and the meanings of the four panel command rows of the opcode table. The panel is outside the block; no block rule rests on it (R4, R5, log 12). -/

namespace Sys2Proof.Machine

/-! ### One chip -/

/-- DISPLAY_ON (20_memory R61). -/
def Chip.displayOn (c : Chip) : Chip := { c with on := true }
/-- SET_COLUMN (R61). -/
def Chip.setColumn (k : BitVec 6) (c : Chip) : Chip := { c with col := k }
/-- SET_PAGE (R61). -/
def Chip.setPage (p : BitVec 3) (c : Chip) : Chip := { c with page := p }
/-- START_LINE (R61). -/
def Chip.startLine (l : BitVec 6) (c : Chip) : Chip := { c with start := l }
/-- A data byte: the cell at the chip's page and column takes it, and the column steps on, from 63 to 0 (R62). -/
def Chip.data (b : Byte) (c : Chip) : Chip :=
  { c with cells := c.cells.write (cellAddr c.page c.col) b, col := c.col + 1 }
/-- The power-on state of chip draw `k`: display off, start line 0, the rest unspecified (R63). -/
def Chip.powerOn (k : Nat) : Chip := { Chip.drawn k with on := false, start := 0 }

/-! ### The three chips -/

/-- Whether a strobe with chip selects `cs` reaches chip `k` (20_memory R60, 30_encoding R81). -/
def reaches (n : NoneSelected) (cs : BitVec 3) (k : Nat) : Bool :=
  !cs.getLsbD (k - 1) || (cs == 0b111 && n == .broadcast)

/-- Apply `f`, which is told each chip's number, to the chips a strobe reaches. -/
def Panel.onReached (n : NoneSelected) (cs : BitVec 3) (f : Nat → Chip → Chip) (p : Panel) : Panel :=
  { chip1 := if reaches n cs 1 then f 1 p.chip1 else p.chip1
    chip2 := if reaches n cs 2 then f 2 p.chip2 else p.chip2
    chip3 := if reaches n cs 3 then f 3 p.chip3 else p.chip3 }

/-- Chip `k` of the panel; any other number reads as chip 3 and is never asked for. -/
def Panel.chip (p : Panel) (k : Nat) : Chip := if k = 1 then p.chip1 else if k = 2 then p.chip2 else p.chip3

/-- Each chip of the panel that the lines of `s` select does `f`. -/
def onSelected (f : Chip → Chip) (s : State) : State :=
  { s with panel := s.panel.onReached s.cfg.noneSelected s.lines.cs (fun _ => f) }

/-- Every chip that the lines of `s` select takes fresh free values throughout (20_memory R61 "any other byte"; log 12). -/
def scrambleSelected (s : State) : State :=
  { s with
    panel := s.panel.onReached s.cfg.noneSelected s.lines.cs (fun k _ => Chip.drawn (s.draws.panel + (k - 1)))
    draws := { s.draws with panel := s.draws.panel + 3 } }

/-- The reset pulse puts every chip in its power-on state (20_memory R63). -/
def panelPowerOn (s : State) : State :=
  { s with
    panel := { chip1 := Chip.powerOn s.draws.panel, chip2 := Chip.powerOn (s.draws.panel + 1)
               chip3 := Chip.powerOn (s.draws.panel + 2) }
    draws := { s.draws with panel := s.draws.panel + 3 } }

/-! ### The four command bytes (30_encoding R75, 20_memory R61) -/

/-- DISPLAY_ON: `ON_k <- 1` on each chip reached. -/
def displayOnEffect (s : State) : State := onSelected Chip.displayOn s
/-- SET_COLUMN: `COL_k <- c`. -/
def setColumnEffect (c : BitVec 6) (s : State) : State := onSelected (Chip.setColumn c) s
/-- SET_PAGE: `PAGE_k <- p`. -/
def setPageEffect (p : BitVec 3) (s : State) : State := onSelected (Chip.setPage p) s
/-- START_LINE: `START_k <- l`. -/
def startLineEffect (l : BitVec 6) (s : State) : State := onSelected (Chip.startLine l) s

/-- The meaning of DISPLAY_ON. -/
def execDisplayOn (s : State) : Host.Outcome State Fault Refusal := .next (displayOnEffect s)
/-- The meaning of SET_COLUMN. -/
def execSetColumn (c : BitVec 6) (s : State) : Host.Outcome State Fault Refusal := .next (setColumnEffect c s)
/-- The meaning of SET_PAGE. -/
def execSetPage (p : BitVec 3) (s : State) : Host.Outcome State Fault Refusal := .next (setPageEffect p s)
/-- The meaning of START_LINE. -/
def execStartLine (l : BitVec 6) (s : State) : Host.Outcome State Fault Refusal := .next (startLineEffect l s)

/-- A command byte latched by the panel (20_memory R61): one of the four commands, or a byte whose effect is unknown. The arms of host requests are never taken, since `decodePanel` names panel commands only. -/
def panelCommand (b : Byte) (s : State) : State :=
  match decodePanel s.cfg.codes b with
  | some .displayOn => displayOnEffect s
  | some (.setColumn c) => setColumnEffect c s
  | some (.setPage p) => setPageEffect p s
  | some (.startLine l) => startLineEffect l s
  | some _ => scrambleSelected s
  | none => scrambleSelected s

/-- The panel latches a transaction made with the lines of `s` (20_memory R60 to R63): a command write, a data write, a status read, which changes nothing, and a data read, which the block never makes and whose effect is left free (log 13). -/
def panelLatch (b : Byte) (s : State) : State :=
  match s.lines.rs, s.lines.rw with
  | false, false => panelCommand b s
  | true, false => onSelected (Chip.data b) s
  | false, true => s
  | true, true => scrambleSelected s

/-! ### Reading the glass -/

/-- The dot bit at glass pixel (x, y), if the display of its chip is on (20_memory R63): chip 1 at the left, and glass row y shows cell row `(y + START_k) mod 64`. -/
def glassPixel (s : State) (x y : Nat) : Option Bool :=
  let c := s.panel.chip (x / 64 + 1)
  let row := (y + c.start.toNat) % 64
  if c.on then some ((c.cell (BitVec.ofNat 3 (row / 8)) (BitVec.ofNat 6 (x % 64))).getLsbD (row % 8)) else none

end Sys2Proof.Machine
end

