-- ==== Sys2Proof/Machine/Ops.lean ====
section
/-! DEFINITION. The pseudocode primitives of 00_scope R12 as engine steps, the line helpers as lists of them (40_bus_interface R86, R89, R92, R95), completion (60_exceptions R128), rejection (R130), block reset (70_reset_and_hazards R144, R145), and carrying a request out. -/

namespace Sys2Proof.Machine

/-! ### The primitives -/

/-- The three delays (00_scope R7, R9). -/
inductive Delay where
  | tAs
  | tEn
  | tRst
  deriving DecidableEq, Repr

/-- What a completion returns (30_encoding R74). -/
inductive Answer where
  /-- 0x00. -/
  | zero
  /-- The byte sampled by the status read. -/
  | sampled
  /-- A framebuffer byte. -/
  | fbByte (a : Nat)
  /-- The CTRL register. -/
  | ctrl
  deriving DecidableEq, Repr

/-- One step of a request's pseudocode (10_state R18). -/
inductive MicroOp where
  /-- `drive(RS, v)`. -/
  | driveRs (v : Bool)
  /-- `drive(RW, v)`. -/
  | driveRw (v : Bool)
  /-- `drive(RST, v)`. -/
  | driveRst (v : Bool)
  /-- `DB_OUT <- b`. -/
  | setDb (b : Byte)
  /-- `b = src(SEQ_CHIP, SEQ_PAGE, SEQ_COL); DB_OUT <- b` (41_refresh_driver R105, R106). -/
  | setDbFromFb
  /-- `release_db()`. -/
  | releaseDb
  /-- `restore_db()`. -/
  | restoreDb
  /-- `wait(T)`. -/
  | wait (d : Delay)
  /-- `drive(EN, 1)`. -/
  | enRise
  /-- `drive(EN, 0); emit Tx(...)`: the transaction is recorded at the moment EN falls (30_encoding R80). -/
  | enFall
  /-- `v <- sample_db()`. -/
  | sampleDb
  /-- `SelectChip(c)`: one line event for the three lines (40_bus_interface R92, log 17). -/
  | selectChip (c : Byte)
  /-- `SEQ_CHIP` takes its next value. -/
  | seqChip (k : BitVec 2)
  /-- `SEQ_PAGE` takes its next value. -/
  | seqPage (p : BitVec 3)
  /-- `SEQ_COL` takes its next value. -/
  | seqCol (c : BitVec 6)
  /-- The refresh is over: the counters become unspecified (10_state R17, log 16). -/
  | seqDone
  /-- `FB[a] <- v`. -/
  | fbWrite (a : Nat) (v : Byte)
  /-- `for a in 0..1535: FB[a] <- v` (log 18). -/
  | fbFill (v : Byte)
  /-- `CTRL.INIT <- 1`. -/
  | setInit
  /-- `CTRL.ORIENT <- v`. -/
  | setOrient (v : Bool)
  /-- `complete(..., 0)`. -/
  | complete (a : Answer)
  deriving DecidableEq, Repr

/-! ### Line helpers as pseudocode -/

/-- `wait(T_AS); strobe()` with its transaction (00_scope R12; 40_bus_interface R86). -/
def strobeOps : List MicroOp := [.wait .tAs, .enRise, .wait .tEn, .enFall, .wait .tEn]

/-- `BusWrite(rs, b)` (40_bus_interface R86). -/
def busWriteOps (rs : Bool) (b : Byte) : List MicroOp := [.driveRs rs, .driveRw false, .setDb b] ++ strobeOps

/-- `BusRead()` (R89). -/
def busReadOps : List MicroOp :=
  [.releaseDb, .driveRs false, .driveRw true, .wait .tAs, .enRise, .wait .tEn, .sampleDb, .enFall, .wait .tEn, .restoreDb]

/-- `PanelReset()` (R95). -/
def panelResetOps : List MicroOp := [.driveRst false, .wait .tRst, .driveRst true]

/-- `DataByte(b)` with `b` the source byte at the sequencer (41_refresh_driver R106). -/
def dataByteOps : List MicroOp := .setDbFromFb :: strobeOps

/-! ### Changes to the state -/

/-- The output lines changed by `f` (10_state R25, R26). -/
def onLines (f : Lines → Lines) (s : State) : State := { s with lines := f s.lines }
/-- The sequencer's counters changed by `f` (10_state R17). -/
def onSeq (f : Seq → Seq) (s : State) : State := { s with seq := f s.seq }
/-- The stored CTRL fields changed by `f` (10_state R24). -/
def onCtrl (f : Ctrl → Ctrl) (s : State) : State := { s with ctrl := f s.ctrl }
/-- One wait's length is drawn (log 11). -/
def drawWait (s : State) : State := { s with draws := { s.draws with wait := s.draws.wait + 1 } }
/-- One status byte is drawn (log 7). -/
def drawStatus (s : State) : State := { s with draws := { s.draws with status := s.draws.status + 1 } }
/-- Outside a refresh the sequencer's counters are unspecified: fresh free values (10_state R17, log 16). -/
def seqDone (s : State) : State :=
  { s with seq := Seq.drawn s.draws.seq, draws := { s.draws with seq := s.draws.seq + 1 } }
/-- A transaction is recorded (30_encoding R80). -/
def record (t : Tx) (s : State) : State := { s with traceRev := t :: s.traceRev }

/-- The request in progress changed by `f`, if there is one. -/
def onProgress (f : InProgress → InProgress) (s : State) : State :=
  match s.engine with
  | .idle => s
  | .busy p => { s with engine := .busy (f p) }

/-- The local variable `v` of the request in progress. Before the sample it has no value, and the level of the lines, a free value while they are not driven, stands for it (log 14, log 23). -/
def localV (s : State) : Byte :=
  match s.engine with
  | .idle => dbLevels s
  | .busy p => p.v.getD (dbLevels s)

/-- `drive(RST, v)`; the rise ends the reset pulse, which leaves the panel in its power-on state (40_bus_interface R95, 20_memory R63, log 22). -/
def driveRst (v : Bool) (s : State) : State :=
  onLines (fun l => { l with rst := v }) (if v && !s.lines.rst then panelPowerOn s else s)

/-- The byte of the transaction that ends now: DB_OUT for a write, the sampled byte for a read (30_encoding R80). For a read cut short before its sample it is a free value (log 14). -/
def txByte (s : State) : Byte := if s.lines.rw then localV s else s.lines.dbOut

/-- The transaction of the current pulse, with data byte `b` (30_encoding R80). -/
def txNow (b : Byte) (s : State) : Tx := { rs := s.lines.rs, rw := s.lines.rw, cs := s.lines.cs, db := b }

/-- `drive(EN, 0); emit Tx`: the panel latches the byte, the trace takes the transaction. -/
def enFall (s : State) : State :=
  onLines (fun l => { l with en := false }) (record (txNow (txByte s) s) (panelLatch (txByte s) s))

/-- `v <- sample_db()`: the levels on the lines; while the block does not drive them each read is a fresh free value (40_bus_interface R89, R90). The undriven lines take another free value then (log 7). -/
def sampleDb (s : State) : State := drawStatus (onProgress (fun p => { p with v := some (dbLevels s) }) s)

/-- `restore_db()`; the free value that the undriven lines had since the sample is spent, so no later read returns it (log 7). -/
def restoreDb (s : State) : State := drawStatus (onLines (fun l => { l with dbOe := true }) s)

/-- `complete(d, e)`: the response is latched and presented, and the engine is IDLE again, in no wait (60_exceptions R128). -/
def complete (d : Byte) (e : Bool) (s : State) : State :=
  { s with
    rsp := { data := d, err := e }
    completionsRev := { data := d, err := e } :: s.completionsRev
    engine := .idle
    waiting := none }

/-- The byte an answer stands for. -/
def answerByte (a : Answer) (s : State) : Byte :=
  match a with
  | .zero => 0x00
  | .sampled => localV s
  | .fbByte a => fbRead s a
  | .ctrl => ctrlReg s

/-- `raise Error(code)`: the rejection, the one shared way an error is taken (60_exceptions R130, R131). There is nothing to return to (R135, R136). -/
def raiseError (e : ErrCode) (s : State) : State :=
  complete 0x00 true (onCtrl (recordError e) s)

/-! ### One engine step -/

/-- The effect of one step of pseudocode. A `wait` counts here as one free value drawn, its length; `tick` spends its cycles one by one (log 11). -/
def runOp (op : MicroOp) (s : State) : State :=
  match op with
  | .driveRs v => onLines (fun l => { l with rs := v }) s
  | .driveRw v => onLines (fun l => { l with rw := v }) s
  | .driveRst v => driveRst v s
  | .setDb b => onLines (fun l => { l with dbOut := b }) s
  | .setDbFromFb => onLines (fun l => { l with dbOut := srcAtSeq s }) s
  | .releaseDb => onLines (fun l => { l with dbOe := false }) s
  | .restoreDb => restoreDb s
  | .wait _ => drawWait s
  | .enRise => onLines (fun l => { l with en := true }) s
  | .enFall => enFall s
  | .sampleDb => sampleDb s
  | .selectChip c => onLines (selectLines c) s
  | .seqChip k => onSeq (fun q => { q with chip := k }) s
  | .seqPage p => onSeq (fun q => { q with page := p }) s
  | .seqCol c => onSeq (fun q => { q with col := c }) s
  | .seqDone => seqDone s
  | .fbWrite a v => fbWrite a v s
  | .fbFill v => fbFill v s
  | .setInit => onCtrl (fun c => { c with init := true }) s
  | .setOrient v => onCtrl (fun c => { c with orient := v }) s
  | .complete a => complete (answerByte a s) false s

/-- The position steps on (10_state R18). -/
def advance (s : State) : State := onProgress (fun p => { p with pos := p.pos + 1 }) s

/-- One step of pseudocode, and the position with it. -/
def stepOp (s : State) (op : MicroOp) : State := advance (runOp op s)

/-- A run of steps. -/
def runOps (ops : List MicroOp) (s : State) : State := ops.foldl stepOp s

/-! ### Carrying out a request -/

/-- The request is accepted: the engine is BUSY with it, at its first step (10_state R18, R20). -/
def accept (i : Instr) (s : State) : State :=
  { s with engine := .busy { req := i, pos := 0, v := none }, waiting := none }

/-- Carrying out a request from its acceptance to its completion: the request's own check comes before any effect and rejects it (60_exceptions R130, R132), else its pseudocode runs. A BUSY block accepts no word (R127, log 19). -/
def carryOut (i : Instr) (check : Option ErrCode) (program : List MicroOp) (s : State) :
    Host.Outcome State Fault Refusal :=
  match s.engine with
  | .busy _ => .fault .engineBusy
  | .idle =>
    match check with
    | some e => .next (raiseError e (accept i s))
    | none => .next (runOps program (accept i s))

/-! ### Block reset -/

/-- Whether RST has been low for T_RST_MIN: that wait of `PanelReset()` (40_bus_interface R95) has ended and the rise is next, or no cycle is left of it but those beyond its bound (log 11). PRESET and INIT, which alone drive RST, both begin with `PanelReset()`. -/
def resetPulseFull (s : State) : Bool :=
  match s.engine with
  | .idle => false
  | .busy p =>
    match panelResetOps[p.pos]?, s.waiting with
    | some (.driveRst true), _ => true
    | some (.wait .tRst), some n => decide (n ≤ Config.waitExtra (s.draws.wait - 1))
    | _, _ => false

/-- The panel after block reset: untouched (70 R147), but for a strobe cut short, whose chips take free values (R145, 93 I4), and a reset pulse that block reset ends: its chips are in their power-on state if the pulse was full (20_memory R63), and take free values if it was cut short (log 15). -/
def panelAfterReset (s : State) : Panel :=
  if !s.lines.rst then
    if resetPulseFull s then (panelPowerOn s).panel
    else { chip1 := Chip.drawn s.draws.panel, chip2 := Chip.drawn (s.draws.panel + 1), chip3 := Chip.drawn (s.draws.panel + 2) }
  else if s.lines.en then
    s.panel.onReached s.cfg.noneSelected s.lines.cs (fun k _ => Chip.drawn (s.draws.panel + (k - 1)))
  else s.panel

/-- The trace after block reset: what was recorded stands (70 R145); whether a pulse cut short is recorded is a free value, and so is the byte of a status read cut short before its sample (log 14). -/
def traceAfterReset (s : State) : List Tx :=
  if s.lines.en && Config.cutRecorded s.draws.cut then txNow (txByte s) s :: s.traceRev
  else s.traceRev

/-- Block reset, at any time (70_reset_and_hazards R144, R145): every item of the block's state takes its reset value (10_state R32), the framebuffer becomes unspecified, the request in progress is dropped with no completion. -/
def blockReset (s : State) : State :=
  { State.reset with
    cfg            := s.cfg
    fb             := { cells := [], draw := s.fb.draw + 1 }
    seq            := Seq.drawn s.draws.seq
    panel          := panelAfterReset s
    traceRev       := traceAfterReset s
    completionsRev := s.completionsRev
    script         := s.script
    draws          := { status := s.draws.status + 1, wait := s.draws.wait, panel := s.draws.panel + 3
                        cut := s.draws.cut + 1, seq := s.draws.seq + 1 } }

end Sys2Proof.Machine
end

