-- ==== Sys2Proof/Machine/Bus.lean ====
section
/-! DEFINITION. The bus/control interface requests: WRCMD, WRDATA, RDSTAT, SELCHIP, PRESET (40_bus_interface). They are accepted in both lifecycle states and have no check of their own (R85). -/

namespace Sys2Proof.Machine

/-- WRCMD's pseudocode (R87). -/
def wrcmdProgram (b : Byte) : List MicroOp := busWriteOps false b ++ [.complete .zero]
/-- WRDATA's pseudocode (R88). -/
def wrdataProgram (b : Byte) : List MicroOp := busWriteOps true b ++ [.complete .zero]
/-- RDSTAT's pseudocode (R90). -/
def rdstatProgram : List MicroOp := busReadOps ++ [.complete .sampled]
/-- SELCHIP's pseudocode (R93). -/
def selchipProgram (c : Byte) : List MicroOp := [.selectChip c, .complete .zero]
/-- PRESET's pseudocode (R96). -/
def presetProgram : List MicroOp := panelResetOps ++ [.complete .zero]

/-- The meaning of WRCMD (R87). -/
def execWrcmd (b : Byte) (s : State) : Host.Outcome State Fault Refusal :=
  carryOut (.wrcmd b) none (wrcmdProgram b) s
/-- The meaning of WRDATA (R88). -/
def execWrdata (b : Byte) (s : State) : Host.Outcome State Fault Refusal :=
  carryOut (.wrdata b) none (wrdataProgram b) s
/-- The meaning of RDSTAT (R90). -/
def execRdstat (s : State) : Host.Outcome State Fault Refusal :=
  carryOut .rdstat none rdstatProgram s
/-- The meaning of SELCHIP (R93, R94). -/
def execSelchip (c : Byte) (s : State) : Host.Outcome State Fault Refusal :=
  carryOut (.selchip c) none (selchipProgram c) s
/-- The meaning of PRESET (R96). -/
def execPreset (s : State) : Host.Outcome State Fault Refusal :=
  carryOut .preset none presetProgram s

end Sys2Proof.Machine
end

