-- ==== Sys2Proof/Machine/HostPort.lean ====
section
/-! DEFINITION. The host framebuffer and control-register requests: FBWR, FBRD, FBFILL, RDCTRL (42_host_port). -/

namespace Sys2Proof.Machine

/-- The range check of FBWR and FBRD (20_memory R48). -/
def inFb (a : BitVec 12) : Option ErrCode := if fbBytes ≤ a.toNat then some .fbRange else none

/-- FBWR's pseudocode, after its check (R120). -/
def fbwrProgram (a : BitVec 12) (v : Byte) : List MicroOp := [.fbWrite a.toNat v, .complete .zero]
/-- FBRD's pseudocode, after its check (R121). -/
def fbrdProgram (a : BitVec 12) : List MicroOp := [.complete (.fbByte a.toNat)]
/-- FBFILL's pseudocode (R122). -/
def fbfillProgram (v : Byte) : List MicroOp := [.fbFill v, .complete .zero]
/-- RDCTRL's pseudocode (R123). -/
def rdctrlProgram : List MicroOp := [.complete .ctrl]

/-- The meaning of FBWR (R120). -/
def execFbwr (a : BitVec 12) (v : Byte) (s : State) : Host.Outcome State Fault Refusal :=
  carryOut (.fbwr a v) (inFb a) (fbwrProgram a v) s
/-- The meaning of FBRD (R121). -/
def execFbrd (a : BitVec 12) (s : State) : Host.Outcome State Fault Refusal :=
  carryOut (.fbrd a) (inFb a) (fbrdProgram a) s
/-- The meaning of FBFILL (R122). -/
def execFbfill (v : Byte) (s : State) : Host.Outcome State Fault Refusal :=
  carryOut (.fbfill v) none (fbfillProgram v) s
/-- The meaning of RDCTRL (R123). -/
def execRdctrl (s : State) : Host.Outcome State Fault Refusal :=
  carryOut .rdctrl none rdctrlProgram s

end Sys2Proof.Machine
end

