-- ==== Sys2Proof/Machine/Refresh.lean ====
section
/-! DEFINITION. The display refresh driver requests: INIT, SETORIENT, REFRESH, CLEAR (41_refresh_driver). -/

namespace Sys2Proof.Machine

/-! ### The lifecycle checks (R98; 60_exceptions R129) -/

/-- REFRESH and CLEAR need `CTRL.INIT` = 1. -/
def needsInit (s : State) : Option ErrCode := if s.ctrl.init then none else some .notInitialized
/-- INIT needs `CTRL.INIT` = 0. -/
def needsUninit (s : State) : Option ErrCode := if s.ctrl.init then some .alreadyInitialized else none

/-! ### Pseudocode -/

/-- One page of a chip: the page command, data-write mode once, 64 data bytes (R105, R106). -/
def pageOps (c : Config) (page : Nat) : List MicroOp :=
  .seqPage (BitVec.ofNat 3 page) :: busWriteOps false (commandByte c.codes.setPage (BitVec.ofNat 3 page)) ++
  [.driveRs true, .driveRw false] ++
  (List.range cols).flatMap (fun col => .seqCol (BitVec.ofNat 6 col) :: dataByteOps)

/-- One chip: its selection, the column command, its 8 pages (R105). -/
def chipOps (c : Config) (chip : Nat) : List MicroOp :=
  [.seqChip (BitVec.ofNat 2 chip), .selectChip (BitVec.ofNat 8 chip)] ++
  busWriteOps false (commandByte c.codes.setColumn (0 : BitVec 6)) ++
  (List.range pages).flatMap (pageOps c)

/-- `RefreshSequence()` (R105). -/
def refreshOps (c : Config) : List MicroOp :=
  busWriteOps false (commandByte c.codes.startLine (0 : BitVec 6)) ++
  [1, 2, 3].flatMap (chipOps c) ++
  busWriteOps false c.codes.displayOn ++
  [.seqDone]

/-- INIT's pseudocode, after its check (R99). -/
def initProgram (c : Config) : List MicroOp :=
  panelResetOps ++ [.selectChip 0] ++
  busWriteOps false (commandByte c.codes.startLine (0 : BitVec 6)) ++
  busWriteOps false c.codes.displayOn ++
  [.setInit, .complete .zero]
/-- SETORIENT's pseudocode (R100). -/
def setorientProgram (reversed : Bool) : List MicroOp := [.setOrient reversed, .complete .zero]
/-- REFRESH's pseudocode, after its check (R107). -/
def refreshProgram (c : Config) : List MicroOp := refreshOps c ++ [.complete .zero]
/-- CLEAR's pseudocode, after its check (R112). -/
def clearProgram (c : Config) : List MicroOp := .fbFill 0x00 :: refreshOps c ++ [.complete .zero]

/-! ### Meanings -/

/-- The meaning of INIT (R99). -/
def execInit (s : State) : Host.Outcome State Fault Refusal :=
  carryOut .init (needsUninit s) (initProgram s.cfg) s
/-- The meaning of SETORIENT (R100, log 28). -/
def execSetorient (reversed : Bool) (s : State) : Host.Outcome State Fault Refusal :=
  carryOut (.setorient reversed) none (setorientProgram reversed) s
/-- The meaning of REFRESH (R107). -/
def execRefresh (s : State) : Host.Outcome State Fault Refusal :=
  carryOut .refresh (needsInit s) (refreshProgram s.cfg) s
/-- The meaning of CLEAR (R112). -/
def execClear (s : State) : Host.Outcome State Fault Refusal :=
  carryOut .clear (needsInit s) (clearProgram s.cfg) s

end Sys2Proof.Machine
end

