-- ==== Sys2Proof/Machine/Dispatch.lean ====
section
/-! DEFINITION. The one match from instructions to meanings. -/

namespace Sys2Proof.Machine

def exec (i : Instr) (s : State) : Host.Outcome State Fault Refusal :=
  match i with
  | .wrcmd b => Sys2Proof.Machine.execWrcmd b s
  | .wrdata b => Sys2Proof.Machine.execWrdata b s
  | .rdstat => Sys2Proof.Machine.execRdstat s
  | .selchip c => Sys2Proof.Machine.execSelchip c s
  | .preset => Sys2Proof.Machine.execPreset s
  | .init => Sys2Proof.Machine.execInit s
  | .clear => Sys2Proof.Machine.execClear s
  | .setorient r => Sys2Proof.Machine.execSetorient r s
  | .refresh => Sys2Proof.Machine.execRefresh s
  | .fbwr a v => Sys2Proof.Machine.execFbwr a v s
  | .fbrd a => Sys2Proof.Machine.execFbrd a s
  | .fbfill v => Sys2Proof.Machine.execFbfill v s
  | .rdctrl => Sys2Proof.Machine.execRdctrl s
  | .displayOn => Sys2Proof.Machine.execDisplayOn s
  | .setColumn c => Sys2Proof.Machine.execSetColumn c s
  | .setPage p => Sys2Proof.Machine.execSetPage p s
  | .startLine l => Sys2Proof.Machine.execStartLine l s

end Sys2Proof.Machine
end

