-- ==== Sys2Proof/Machine/Engine.lean ====
section
/-! DEFINITION. The engine seen one step at a time: each request's pseudocode and check by instruction, the engine step (10_state R18, R35), acceptance, and what one step of the machine does with the host's next event (60_exceptions R127). -/

namespace Sys2Proof.Machine

/-- The pseudocode of a request; the panel's command bytes are no requests and have none. -/
def program (c : Config) : Instr → List MicroOp
  | .wrcmd b => wrcmdProgram b
  | .wrdata b => wrdataProgram b
  | .rdstat => rdstatProgram
  | .selchip n => selchipProgram n
  | .preset => presetProgram
  | .init => initProgram c
  | .clear => clearProgram c
  | .setorient r => setorientProgram r
  | .refresh => refreshProgram c
  | .fbwr a v => fbwrProgram a v
  | .fbrd a => fbrdProgram a
  | .fbfill v => fbfillProgram v
  | .rdctrl => rdctrlProgram
  | .displayOn => []
  | .setColumn _ => []
  | .setPage _ => []
  | .startLine _ => []

/-- The check a request makes before its first effect (60_exceptions R130, R132). -/
def check (i : Instr) (s : State) : Option ErrCode :=
  match i with
  | .wrcmd _ => none
  | .wrdata _ => none
  | .rdstat => none
  | .selchip _ => none
  | .preset => none
  | .init => needsUninit s
  | .clear => needsInit s
  | .setorient _ => none
  | .refresh => needsInit s
  | .fbwr a _ => inFb a
  | .fbrd a => inFb a
  | .fbfill _ => none
  | .rdctrl => none
  | .displayOn => none
  | .setColumn _ => none
  | .setPage _ => none
  | .startLine _ => none

/-- The least time of a delay, in nanoseconds (00_scope R7, R9). -/
def delayNs (c : Config) : Delay → Nat
  | .tAs => c.tAsNs
  | .tEn => tEnMinNs
  | .tRst => tRstMinNs

/-- The least time of a run of pseudocode, in nanoseconds (70_reset_and_hazards R162). -/
def minNs (c : Config) : List MicroOp → Nat
  | [] => 0
  | .wait d :: ops => delayNs c d + minNs c ops
  | _ :: ops => minNs c ops

/-- The cycles of the wait number `k`: at least `ceil(T × F_CLK)`, and a free extra (60_exceptions R139, 70 R164, log 11). -/
def waitCycles (c : Config) (d : Delay) (k : Nat) : Nat :=
  (delayNs c d * c.fClkHz + 999999999) / 1000000000 + Config.waitExtra k

/-- One clock cycle inside a wait: the wait begins, goes on, or ends. -/
def tickWait (d : Delay) (s : State) : State :=
  match s.waiting with
  | none =>
    { s with waiting := some (waitCycles s.cfg d s.draws.wait), draws := { s.draws with wait := s.draws.wait + 1 } }
  | some (n + 1) => { s with waiting := some n }
  | some 0 => advance { s with waiting := none }

/-- One engine step (10_state R18): the next step of the request in progress, or one cycle of its wait. -/
def tick (s : State) : Host.Outcome State Fault Refusal :=
  match s.engine with
  | .idle => .next s
  | .busy p =>
    match (program s.cfg p.req)[p.pos]? with
    | none => .fault .noSuchPosition
    | some (.wait d) => .next (tickWait d s)
    | some op => .next (stepOp s op)

/-- A word presented to an IDLE block and carried out whole: decoded first, an illegal word rejected with ILLEGAL_REQUEST (30_encoding R68 to R70, 60_exceptions R132). -/
def runRequest (w : Word) (s : State) : Host.Outcome State Fault Refusal :=
  match decodeRequest w with
  | some i => exec i s
  | none => .next (raiseError .illegalRequest s)

/-- A word presented to an IDLE block and accepted, its pseudocode left to later steps; a rejection is whole at once (log 26). -/
def acceptWord (w : Word) (s : State) : State :=
  match decodeRequest w with
  | none => raiseError .illegalRequest s
  | some i =>
    match check i s with
    | some e => raiseError e (accept i s)
    | none => accept i s

/-- One step of a block with a good pin map. Block reset comes first (70 R144). A BUSY engine takes its step and the host's word waits (60_exceptions R127). An IDLE block takes the host's next event, or waits for one (70 R146). -/
def stepValid (s : State) : Host.Outcome State Fault Refusal :=
  match s.script, s.engine with
  | .blockReset :: rest, _ => .next (blockReset { s with script := rest })
  | .pause :: rest, _ => tick { s with script := rest }
  | .request w :: rest, .idle => runRequest w { s with script := rest }
  | .requestStepwise w :: rest, .idle => .next (acceptWord w { s with script := rest })
  | _, _ => tick s

/-- The state whose next step runs the instruction of a table word (log 20, log 21). A request word is the host's next word, presented to an IDLE block. A panel command byte is on the bus, at the fall of EN of a command write in progress, which is where the panel takes its next command. -/
def placeTableWord (s : State) (nbits w : Nat) : State :=
  if nbits = 8 then
    { s with
      engine := .busy { req := .wrcmd (BitVec.ofNat 8 w), pos := 6, v := none }
      waiting := none
      lines := { s.lines with rs := false, rw := false, en := true, dbOut := BitVec.ofNat 8 w, dbOe := true }
      script := .pause :: s.script }
  else
    { s with engine := .idle, waiting := none, script := .request (BitVec.ofNat 32 w) :: s.script }

end Sys2Proof.Machine
end

