-- ==== Sys2Proof/Machine/Step.lean ====
section
/-! DEFINITION. One step of the machine, and the state that runs a given table word next. -/

namespace Sys2Proof.Machine

/-- One step; a build with a bad pin map has no runs (10_state R30). -/
def step (s : State) : Host.Outcome State Fault Refusal :=
  if s.cfg.valid then stepValid s else .refused .badPinMap

/-- `s` with the table word stored where `step` takes its next instruction. -/
def State.withFetchWord (s : State) (nbits w : Nat) : State := placeTableWord s nbits w

end Sys2Proof.Machine
end

