-- ==== Sys2Proof/Machine/Assembler.lean ====
section
/-! DEFINITION. The assembler syntax of 30_encoding R72 and the pseudo-instructions of R73, over lists of characters. -/

namespace Sys2Proof.Machine

/-! ### Pseudo-instructions (R73) -/

/-- The request a pseudo-instruction stands for, refused outside its operand range. R73 writes the command bytes of the default codes; with other codes the expansions follow the build (DESIGN CHOICE, log 30). -/
def expandPseudo (c : CmdCodes) (p : Pseudo) : Option Instr :=
  if p.inRange then
    some (match p with
      | .show => .refresh
      | .deselect => .selchip 0
      | .dispon => .wrcmd c.displayOn
      | .setstart l => .wrcmd (commandByte c.startLine (BitVec.ofNat 6 l))
      | .setpage p => .wrcmd (commandByte c.setPage (BitVec.ofNat 3 p))
      | .setcol k => .wrcmd (commandByte c.setColumn (BitVec.ofNat 6 k))
      | .fbclr => .fbfill 0x00)
  else none

/-! ### Numbers -/

/-- The value of a digit character; a hexadecimal digit in either case (DESIGN CHOICE, log 29). -/
def digitValue (ch : Char) : Option Nat :=
  let n := ch.toNat
  if 48 ≤ n ∧ n ≤ 57 then some (n - 48)
  else if 97 ≤ n ∧ n ≤ 102 then some (n - 87)
  else if 65 ≤ n ∧ n ≤ 70 then some (n - 55)
  else none

/-- Digits in a base, after the value `acc` of the digits before them. -/
def parseDigits (base acc : Nat) : List Char → Option Nat
  | [] => some acc
  | ch :: rest =>
    match digitValue ch with
    | some d => if d < base then parseDigits base (acc * base + d) rest else none
    | none => none

/-- A number: decimal, `0x` hexadecimal or `0b` binary (R72); the letter of a base in lower case only (DESIGN CHOICE, log 29). -/
def parseNumber : List Char → Option Nat
  | '0' :: 'x' :: d :: ds => parseDigits 16 0 (d :: ds)
  | '0' :: 'b' :: d :: ds => parseDigits 2 0 (d :: ds)
  | d :: ds => parseDigits 10 0 (d :: ds)
  | [] => none

/-! ### A line -/

/-- A blank character: space or tab, and no other (DESIGN CHOICE, log 29). -/
def isBlank (ch : Char) : Bool := ch == ' ' || ch == '\t'

/-- Blanks taken off both ends. -/
def trim (cs : List Char) : List Char := ((cs.dropWhile isBlank).reverse.dropWhile isBlank).reverse

/-- The line without its comment: a `;` starts one (R72). -/
def dropComment (cs : List Char) : List Char := cs.takeWhile (fun ch => ch != ';')

/-- The pieces between commas, each trimmed. -/
def splitCommas : List Char → List Char → List (List Char)
  | acc, [] => [trim acc.reverse]
  | acc, ch :: rest => if ch == ',' then trim acc.reverse :: splitCommas [] rest else splitCommas (ch :: acc) rest

/-- Every operand read as a number. -/
def parseOperands : List (List Char) → Option (List Nat)
  | [] => some []
  | o :: os =>
    match parseNumber o, parseOperands os with
    | some n, some ns => some (n :: ns)
    | _, _ => none

/-- A byte operand, 0 to 255. -/
def byteOperand (n : Nat) : Option Byte := if n ≤ 255 then some (BitVec.ofNat 8 n) else none
/-- An address operand, 0 to 4095; 1536 and more assembles and is rejected when run (R72). -/
def addrOperand (n : Nat) : Option (BitVec 12) := if n ≤ 4095 then some (BitVec.ofNat 12 n) else none

/-- A mnemonic with its operands (R72, R73); mnemonics in upper case only (DESIGN CHOICE, log 29). -/
def assembleOp (c : CmdCodes) (m : List Char) (ops : List Nat) : Option Instr :=
  match m, ops with
  | ['W', 'R', 'C', 'M', 'D'], [n] => (byteOperand n).map .wrcmd
  | ['W', 'R', 'D', 'A', 'T', 'A'], [n] => (byteOperand n).map .wrdata
  | ['R', 'D', 'S', 'T', 'A', 'T'], [] => some .rdstat
  | ['S', 'E', 'L', 'C', 'H', 'I', 'P'], [n] => (byteOperand n).map .selchip
  | ['P', 'R', 'E', 'S', 'E', 'T'], [] => some .preset
  | ['I', 'N', 'I', 'T'], [] => some .init
  | ['C', 'L', 'E', 'A', 'R'], [] => some .clear
  | ['S', 'E', 'T', 'O', 'R', 'I', 'E', 'N', 'T'], [n] =>
    if n = 0 then some (.setorient false) else if n = 1 then some (.setorient true) else none
  | ['R', 'E', 'F', 'R', 'E', 'S', 'H'], [] => some .refresh
  | ['F', 'B', 'W', 'R'], [a, n] =>
    match addrOperand a, byteOperand n with
    | some a, some v => some (.fbwr a v)
    | _, _ => none
  | ['F', 'B', 'R', 'D'], [a] => (addrOperand a).map .fbrd
  | ['F', 'B', 'F', 'I', 'L', 'L'], [n] => (byteOperand n).map .fbfill
  | ['R', 'D', 'C', 'T', 'R', 'L'], [] => some .rdctrl
  | ['S', 'H', 'O', 'W'], [] => expandPseudo c .show
  | ['D', 'E', 'S', 'E', 'L', 'E', 'C', 'T'], [] => expandPseudo c .deselect
  | ['D', 'I', 'S', 'P', 'O', 'N'], [] => expandPseudo c .dispon
  | ['S', 'E', 'T', 'S', 'T', 'A', 'R', 'T'], [n] => expandPseudo c (.setstart n)
  | ['S', 'E', 'T', 'P', 'A', 'G', 'E'], [n] => expandPseudo c (.setpage n)
  | ['S', 'E', 'T', 'C', 'O', 'L'], [n] => expandPseudo c (.setcol n)
  | ['F', 'B', 'C', 'L', 'R'], [] => expandPseudo c .fbclr
  | _, _ => none

/-- What a line of assembler is (R72). -/
inductive AsmLine where
  | blank
  | request (i : Instr)
  | error
  deriving DecidableEq, Repr

/-- One line of assembler: the mnemonic, then its operands separated by commas (R72). -/
def assembleLine (c : CmdCodes) (line : List Char) : AsmLine :=
  match trim (dropComment line) with
  | [] => .blank
  | cs =>
    let rest := trim (cs.dropWhile (fun ch => !isBlank ch))
    let operands := if rest.isEmpty then some [] else parseOperands (splitCommas [] rest)
    match operands with
    | none => .error
    | some ops =>
      match assembleOp c (cs.takeWhile (fun ch => !isBlank ch)) ops with
      | some i => .request i
      | none => .error

end Sys2Proof.Machine
end

