-- ==== Sys2Proof/Safety.lean ====
section
/-! DEFINITION. The terms claims use: the transactions a refresh sends, the levels a request's pseudocode has driven so far, and what a good state is. -/

namespace Sys2Proof.Machine

/-! ### The transactions of a refresh (41_refresh_driver R108) -/

/-- A command write with the given chip selects. -/
def commandTx (cs : BitVec 3) (b : Byte) : Tx := { rs := false, rw := false, cs := cs, db := b }
/-- A data write with the given chip selects. -/
def dataTx (cs : BitVec 3) (b : Byte) : Tx := { rs := true, rw := false, cs := cs, db := b }

/-- One page: its page command, then its 64 data bytes. -/
def pageTrace (s : State) (chip page : Nat) : List Tx :=
  commandTx (csOf chip) (commandByte s.cfg.codes.setPage (BitVec.ofNat 3 page)) ::
  (List.range cols).map (fun column => dataTx (csOf chip) (src s chip page column))

/-- One chip: its column command, then its 8 pages. -/
def chipTrace (s : State) (chip : Nat) : List Tx :=
  commandTx (csOf chip) (commandByte s.cfg.codes.setColumn (0 : BitVec 6)) ::
  (List.range pages).flatMap (pageTrace s chip)

/-- The transactions a REFRESH carried out from `s` records. -/
def refreshTrace (s : State) : List Tx :=
  commandTx s.lines.cs (commandByte s.cfg.codes.startLine (0 : BitVec 6)) ::
  [1, 2, 3].flatMap (chipTrace s) ++
  [commandTx (csOf 3) s.cfg.codes.displayOn]

/-! ### The lines a request has driven so far -/

/-- The levels that pseudocode drives and that must be back at rest between requests: EN, DB_OE and RST. -/
structure Driven where
  en   : Bool
  dbOe : Bool
  rst  : Bool
  deriving DecidableEq, Repr

/-- The levels between requests (10_state R26, R32, R36). -/
def Driven.rest : Driven := { en := false, dbOe := true, rst := true }

/-- The levels after one more step of pseudocode. -/
def Driven.step (d : Driven) : MicroOp → Driven
  | .enRise => { d with en := true }
  | .enFall => { d with en := false }
  | .releaseDb => { d with dbOe := false }
  | .restoreDb => { d with dbOe := true }
  | .driveRst v => { d with rst := v }
  | _ => d

/-- The levels after the first `n` steps of a request's pseudocode. -/
def drivenAfter (ops : List MicroOp) (n : Nat) : Driven := (ops.take n).foldl Driven.step Driven.rest

/-- The levels on the lines of a state. -/
def State.driven (s : State) : Driven := { en := s.lines.en, dbOe := s.lines.dbOe, rst := s.lines.rst }

/-! ### Good states -/

/-- ERRCODE is 0 exactly when ERR is 0, and is one of the codes 0 to 4 (10_state R23, R36). -/
def Ctrl.good (c : Ctrl) : Prop := (c.errCode = 0 ↔ c.err = false) ∧ c.errCode.toNat ≤ 4

/-- A framebuffer request in progress has passed its range check (20_memory R48). -/
def addressGood : Instr → Prop
  | .fbwr a _ => a.toNat < 1536
  | .fbrd a => a.toNat < 1536
  | _ => True

/-- The engine and the lines agree: at rest between requests (10_state R36), and inside a request at a position its pseudocode has, with the levels that pseudocode has driven. -/
def State.engineGood (s : State) : Prop :=
  match s.engine with
  | .idle => s.driven = Driven.rest ∧ s.waiting = none
  | .busy p =>
    p.req.isRequest = true ∧ p.pos < (program s.cfg p.req).length ∧
    s.driven = drivenAfter (program s.cfg p.req) p.pos ∧ addressGood p.req

/-- The invariant of the block: legal chip selects (10_state R27), a good error record (R36), the sequencer inside its ranges (R17), and engine and lines in agreement. -/
structure BlockGood (s : State) : Prop where
  cs     : csLegal s.lines.cs = true
  ctrl   : s.ctrl.good
  seq    : s.seq.chip ≠ 0
  engine : s.engineGood

/-! ### What a request leaves -/

/-- The request that took `s` to `t` has completed with response `r`: the engine is IDLE, one completion more, the build and the host's script as before (60_exceptions R128). -/
structure Completed (s t : State) (r : Response) : Prop where
  engine      : t.engine = .idle
  waiting     : t.waiting = none
  rsp         : t.rsp = r
  completions : t.completions = s.completions ++ [r]
  cfg         : t.cfg = s.cfg
  script      : t.script = s.script

/-- Every framebuffer byte reads as before. -/
def SameFb (s t : State) : Prop := ∀ a, fbRead t a = fbRead s a

/-- No line and no panel chip has changed, and nothing was sent. -/
structure NoBus (s t : State) : Prop where
  lines : t.lines = s.lines
  panel : t.panel = s.panel
  trace : t.trace = s.trace

/-- A rejection with code `e`: the error record and a completion with `rsp_err` = 1, and nothing else (60_exceptions R130). -/
structure Rejected (s t : State) (e : ErrCode) : Prop where
  completed : Completed s t { data := 0x00, err := true }
  ctrl      : t.ctrl = recordError e s.ctrl
  fb        : SameFb s t
  bus       : NoBus s t
  seq       : t.seq = s.seq
  draws     : t.draws = s.draws

/-- The requests the host may find rejected for their lifecycle or range, and why (60_exceptions R129). -/
def rejects (i : Instr) (s : State) (e : ErrCode) : Prop :=
  (i = .init ∧ s.ctrl.init = true ∧ e = .alreadyInitialized) ∨
  ((i = .refresh ∨ i = .clear) ∧ s.ctrl.init = false ∧ e = .notInitialized) ∨
  (((∃ a v, i = .fbwr a v ∧ 1536 ≤ a.toNat) ∨ (∃ a, i = .fbrd a ∧ 1536 ≤ a.toNat)) ∧ e = .fbRange)

/-- `k` steps of the machine. -/
def runSteps (k : Nat) (s : State) : Host.Outcome State Fault Refusal := Host.Core.run Sys2Proof.core k s

end Sys2Proof.Machine
end

