-- ==== Sys2Proof/Certificates/Slice0/Obligations.lean ====
section
/-! DEFINITION. The statements for the provers. -/

open Sys2Proof Sys2Proof.Machine

/-! ## Encodings -/

/-- Words written out in 30_encoding R83 and 95 section 2.6, and the four command bytes of R75, decode as the spec says. The four bytes are at the default codes (log 5). -/
def Obligations.SpecWordsDecodeAsListed : Prop :=
  decodeTableWord 32 0x1000003F = some (.wrcmd 0x3F) ∧ decodeTableWord 32 0x40000002 = some (.selchip 2) ∧
  decodeTableWord 32 0x80000001 = some (.setorient true) ∧ decodeTableWord 32 0xA00500AA = some (.fbwr 5 0xAA) ∧
  decodeTableWord 32 0xB5FF0000 = some (.fbrd 1535) ∧ decodeTableWord 32 0x90000000 = some .refresh ∧
  decodeTableWord 32 0x90000001 = none ∧ decodeTableWord 32 0xE0000000 = none ∧
  decodeTableWord 32 0xA6000000 = some (.fbwr 1536 0) ∧
  decodeTableWord 8 0x3F = some .displayOn ∧ decodeTableWord 8 0x4A = some (.setColumn 10) ∧
  decodeTableWord 8 0xBB = some (.setPage 3) ∧ decodeTableWord 8 0xC5 = some (.startLine 5) ∧ decodeTableWord 8 0x80 = none

/-- Decoding the encoding of an instruction gives it back, for every row of the table and every operand, at the default codes (30_encoding R66, R75, R76). -/
def Obligations.DecodeEncodeRoundTrip : Prop :=
  ∀ i : Instr, decode CmdCodes.default (encode CmdCodes.default i) = some i

/-- A word or byte that decodes is the encoding of what it decodes to: no bit is dropped and no two words mean the same. At the default codes. -/
def Obligations.EncodeDecodeRoundTrip : Prop :=
  ∀ (e : Encoded) (i : Instr), decode CmdCodes.default e = some i → encode CmdCodes.default i = e

/-- No word belongs to two rows of the request table (30_encoding R70: "At most one row matches a word"). -/
def Obligations.RequestRowsNeverOverlap : Prop :=
  requestRows.Pairwise (fun r q => ∀ w, ¬ (r.holds w = true ∧ q.holds w = true))

/-- The words of 30_encoding R68 and R69: a reserved OP, or a nonzero bit in a field that the OP does not use. -/
def IllegalFields (w : Word) : Prop :=
  opField w = 0x0 ∨ opField w = 0xE ∨ opField w = 0xF ∨
  rsvField w ≠ 0 ∨
  (opField w ≠ 0xA ∧ opField w ≠ 0xB ∧ addrField w ≠ 0) ∨
  ((opField w = 0x3 ∨ opField w = 0x5 ∨ opField w = 0x6 ∨ opField w = 0x7 ∨ opField w = 0x9 ∨ opField w = 0xB ∨
    opField w = 0xD) ∧ dataField w ≠ 0) ∨
  (opField w = 0x8 ∧ (dataField w).extractLsb' 1 7 ≠ 0)

/-- 30_encoding R68, R69: exactly the words with illegal fields are no row's words, and presenting one to an idle block rejects it with ILLEGAL_REQUEST and has no other effect. -/
def Obligations.IllegalWordsAreRejected : Prop :=
  ∀ w : Word,
    (decodeRequest w = none ↔ IllegalFields w) ∧
    ((∃ r ∈ requestRows, r.holds w = true) ↔ ¬ IllegalFields w) ∧
    (IllegalFields w → ∀ (s : State) (rest : List HostEvent), s.cfg.valid = true → s.engine = .idle →
      s.script = .request w :: rest →
      ∃ t, step s = .next t ∧ Rejected { s with script := rest } t .illegalRequest)

/-! ## Steps -/

/-- When an idle block is presented a word that decodes to `i`, the step is `exec` of `i`, the word taken off the host's script. -/
def Obligations.StepRunsDecodedRequest : Prop :=
  ∀ (s : State) (w : Word) (rest : List HostEvent) (i : Instr),
    s.cfg.valid = true → s.engine = .idle → s.script = .request w :: rest → decodeRequest w = some i →
    step s = exec i { s with script := rest }

/-- When the request in progress drops EN on a command write whose byte is a panel command `i`, the step is `exec` of `i`, and around it the block's own part: EN low, the transaction recorded, the position one on. A pause at the head of the script is taken off; any other word the host presents waits. What it says of the panel rests on the reference panel (log 12). -/
def Obligations.StepRunsDecodedPanelCommand : Prop :=
  ∀ (s : State) (p : InProgress) (i : Instr) (rest : List HostEvent),
    s.cfg.valid = true →
    (s.script = .pause :: rest ∨
      (s.script = rest ∧ ∀ r, s.script ≠ .blockReset :: r ∧ s.script ≠ .pause :: r)) →
    s.engine = .busy p →
    (program s.cfg p.req)[p.pos]? = some .enFall → s.lines.rs = false → s.lines.rw = false →
    decodePanel s.cfg.codes s.lines.dbOut = some i →
    ∃ u, exec i { s with script := rest } = .next u ∧
      step s = .next { u with
        lines := { u.lines with en := false }
        traceRev := commandTx s.lines.cs s.lines.dbOut :: u.traceRev
        engine := .busy { p with pos := p.pos + 1 } }

/-- 60_exceptions R127: while the engine is BUSY the block accepts no word. The step is the engine's own, the host's word stays at the head of the script, and the request in progress goes on or completes. -/
def Obligations.BusyBlockHoldsTheHostsWord : Prop :=
  ∀ (s : State) (p : InProgress) (w : Word) (rest : List HostEvent),
    s.cfg.valid = true → s.engine = .busy p → (s.script = .request w :: rest ∨ s.script = .requestStepwise w :: rest) →
    step s = tick s ∧
    ∀ t, step s = .next t → t.script = s.script ∧
      ((∃ q, t.engine = .busy q ∧ q.req = p.req ∧ t.completions = s.completions) ∨
       (t.engine = .idle ∧ t.completions = s.completions ++ [t.rsp]))

/-- 70_reset_and_hazards R144, with the table of 10_state R32: block reset, asserted in any state at all, takes every item of state to its reset value and drops the request; the framebuffer becomes the free value of a fresh draw; the trace already recorded stands and no completion is made (R145). The form of the framebuffer's unspecified bytes is the model's (log 6). -/
def Obligations.BlockResetFromEveryState : Prop :=
  ∀ (s : State) (rest : List HostEvent), s.cfg.valid = true → s.script = .blockReset :: rest →
    ∃ t, step s = .next t ∧
      t.engine = .idle ∧ t.waiting = none ∧ ctrlReg t = 0x00 ∧
      t.lines.rs = false ∧ t.lines.rw = false ∧ t.lines.en = false ∧ t.lines.rst = true ∧
      t.lines.cs1 = true ∧ t.lines.cs2 = true ∧ t.lines.cs3 = true ∧ t.lines.dbOut = 0x00 ∧ t.lines.dbOe = true ∧
      t.rsp = { data := 0x00, err := false } ∧
      (∀ a, fbRead t a = Config.fbReset (s.fb.draw + 1) a) ∧
      s.trace <+: t.trace ∧ t.completions = s.completions ∧ t.script = rest ∧ t.cfg = s.cfg

/-- 70_reset_and_hazards R147 and R145: a block reset while EN is low and RST is high leaves the panel as it was, and records no transaction. One that comes when a panel reset pulse has lasted its T_RST_MIN, and only its rise is left, ends a full pulse: every chip is in its power-on state, display off and start line 0 (20_memory R63). What it says of the panel rests on the reference panel (log 12). -/
def Obligations.BlockResetLeavesThePanel : Prop :=
  ∀ (s : State) (rest : List HostEvent), s.cfg.valid = true → s.script = .blockReset :: rest →
    (s.lines.en = false → s.lines.rst = true → ∃ t, step s = .next t ∧ t.panel = s.panel ∧ t.trace = s.trace) ∧
    (∀ p, s.engine = .busy p → (p.req = .preset ∨ p.req = .init) → p.pos = 2 → s.lines.en = false → s.lines.rst = false →
      ∃ t, step s = .next t ∧ t.trace = s.trace ∧
        ∀ k, k = 1 ∨ k = 2 ∨ k = 3 → (t.panel.chip k).on = false ∧ (t.panel.chip k).start = 0)

/-- 10_state R32: the state after reset. The form of the framebuffer's unspecified bytes is the model's (log 6). -/
def Obligations.ResetStateIsAsListed : Prop :=
  State.reset.engine = .idle ∧ State.reset.ctrl.init = false ∧ State.reset.ctrl.orient = false ∧
  State.reset.ctrl.err = false ∧ State.reset.ctrl.errCode = 0 ∧ State.reset.lines.cssel = 0 ∧
  busWord State.reset = 0x4700 ∧ State.reset.lines.dbOe = true ∧ State.reset.rsp = { data := 0x00, err := false } ∧
  ∀ a, fbRead State.reset a = Config.fbReset 0 a

/-- 10_state R30: a pin map that binds two lines to one pin, or leaves a line unbound, gives no runs. -/
def Obligations.BadPinMapHasNoRuns : Prop :=
  ∀ s : State,
    ((∃ l m p, l ≠ m ∧ (l, p) ∈ s.cfg.pinMap ∧ (m, p) ∈ s.cfg.pinMap) ∨ (∃ l, ∀ p, (l, p) ∉ s.cfg.pinMap)) →
    step s = .refused .badPinMap

/-- 10_state R29, 00_scope R6: no step changes the build's parameters. -/
def Obligations.BuildNeverChanges : Prop :=
  ∀ s t : State, step s = .next t → t.cfg = s.cfg

/-! ## Bus requests -/

/-- WRCMD (40_bus_interface R86, R87): the lines, the one transaction and the response; on the panel, the command its byte is, and no chip that is not reached. What it says of the panel rests on the reference panel (log 12). -/
def Obligations.WrcmdSendsTheByte : Prop :=
  ∀ (s : State) (b : Byte), s.engine = .idle →
    ∃ t, exec (.wrcmd b) s = .next t ∧ Completed s t { data := 0x00, err := false } ∧
      t.lines = { s.lines with rs := false, rw := false, en := false, dbOut := b } ∧
      t.trace = s.trace ++ [{ rs := false, rw := false, cs := s.lines.cs, db := b }] ∧
      t.ctrl = s.ctrl ∧ t.seq = s.seq ∧ SameFb s t ∧
      (∀ i u, decodePanel s.cfg.codes b = some i → exec i s = .next u → t.panel = u.panel) ∧
      (∀ k, k = 1 ∨ k = 2 ∨ k = 3 → reaches s.cfg.noneSelected s.lines.cs k = false → t.panel.chip k = s.panel.chip k)

/-- WRDATA (40_bus_interface R86, R88; on the panel 20_memory R62): the lines, the one transaction and the response; each chip reached stores the byte at its page and column and steps its column on, from 63 to 0. What it says of the panel rests on the reference panel (log 12). -/
def Obligations.WrdataSendsTheByte : Prop :=
  ∀ (s : State) (b : Byte), s.engine = .idle →
    ∃ t, exec (.wrdata b) s = .next t ∧ Completed s t { data := 0x00, err := false } ∧
      t.lines = { s.lines with rs := true, rw := false, en := false, dbOut := b } ∧
      t.trace = s.trace ++ [{ rs := true, rw := false, cs := s.lines.cs, db := b }] ∧
      t.ctrl = s.ctrl ∧ t.seq = s.seq ∧ SameFb s t ∧
      ∀ k, k = 1 ∨ k = 2 ∨ k = 3 →
        (reaches s.cfg.noneSelected s.lines.cs k = false → t.panel.chip k = s.panel.chip k) ∧
        (reaches s.cfg.noneSelected s.lines.cs k = true →
          let c := s.panel.chip k
          let d := t.panel.chip k
          d.on = c.on ∧ d.start = c.start ∧ d.page = c.page ∧ d.col.toNat = (c.col.toNat + 1) % 64 ∧
          d.cell c.page c.col = b ∧ ∀ q k', (q, k') ≠ (c.page, c.col) → d.cell q k' = c.cell q k')

/-- RDSTAT (40_bus_interface R89 to R91): the response is the sampled byte, a free value, and so is the transaction's; the lines afterwards; the panel does not change. It holds whatever the free value is. The form of that value is the model's (log 7), and that the panel does not change is 20_memory R63, the reference panel (log 12). -/
def Obligations.RdstatReturnsTheSampledByte : Prop :=
  ∀ s : State, s.engine = .idle →
    ∃ t, exec .rdstat s = .next t ∧ Completed s t { data := Config.statusValue s.draws.status, err := false } ∧
      t.lines = { s.lines with rs := false, rw := true, en := false, dbOe := true } ∧
      t.trace = s.trace ++ [{ rs := false, rw := true, cs := s.lines.cs, db := Config.statusValue s.draws.status }] ∧
      t.ctrl = s.ctrl ∧ t.seq = s.seq ∧ SameFb s t ∧ t.panel = s.panel

/-- SELCHIP (40_bus_interface R92 to R94): codes 1, 2 and 3 select that chip, every other code none, with no error, no strobe and no other effect; CSSEL follows. -/
def Obligations.SelchipSelectsOneChipOrNone : Prop :=
  ∀ (s : State) (c : Byte), s.engine = .idle →
    ∃ t, exec (.selchip c) s = .next t ∧ Completed s t { data := 0x00, err := false } ∧
      (c = 1 → t.lines = { s.lines with cs1 := false, cs2 := true, cs3 := true } ∧ t.lines.cs = 0b110 ∧ t.lines.cssel = 1) ∧
      (c = 2 → t.lines = { s.lines with cs1 := true, cs2 := false, cs3 := true } ∧ t.lines.cs = 0b101 ∧ t.lines.cssel = 2) ∧
      (c = 3 → t.lines = { s.lines with cs1 := true, cs2 := true, cs3 := false } ∧ t.lines.cs = 0b011 ∧ t.lines.cssel = 3) ∧
      (c ≠ 1 → c ≠ 2 → c ≠ 3 →
        t.lines = { s.lines with cs1 := true, cs2 := true, cs3 := true } ∧ t.lines.cs = 0b111 ∧ t.lines.cssel = 0) ∧
      t.trace = s.trace ∧ t.panel = s.panel ∧ t.ctrl = s.ctrl ∧ t.seq = s.seq ∧ SameFb s t

/-- PRESET (40_bus_interface R95, R96): RST is high again, no transaction, CTRL (INIT with it) and FB untouched; on the reference panel a pulse from high puts every chip in its power-on state, display off and start line 0 (20_memory R63). What it says of the panel rests on the reference panel (log 12). -/
def Obligations.PresetResetsThePanelOnly : Prop :=
  ∀ s : State, s.engine = .idle →
    ∃ t, exec .preset s = .next t ∧ Completed s t { data := 0x00, err := false } ∧
      t.lines = { s.lines with rst := true } ∧ t.trace = s.trace ∧
      t.ctrl = s.ctrl ∧ t.seq = s.seq ∧ SameFb s t ∧
      ∀ k, k = 1 ∨ k = 2 ∨ k = 3 → (t.panel.chip k).on = false ∧ (t.panel.chip k).start = 0

/-- 70_reset_and_hazards R153: a command or data write made while no chip is selected reaches no chip under IGNORE, and all three under BROADCAST; the block emits the transaction either way. (What reaching a chip does is said of the data write, and of the start-line command at the default codes.) What it says of the panel rests on the reference panel (log 12). -/
def Obligations.WriteWithNoChipSelected : Prop :=
  ∀ (s : State) (b : Byte), s.engine = .idle → s.lines.cs = 0b111 →
    ∃ t u, exec (.wrcmd b) s = .next t ∧ exec (.wrdata b) s = .next u ∧
      t.trace = s.trace ++ [commandTx 0b111 b] ∧ u.trace = s.trace ++ [dataTx 0b111 b] ∧
      (s.cfg.noneSelected = .ignore → t.panel = s.panel ∧ u.panel = s.panel) ∧
      (s.cfg.noneSelected = .broadcast → ∀ k, k = 1 ∨ k = 2 ∨ k = 3 →
        (u.panel.chip k).cell (s.panel.chip k).page (s.panel.chip k).col = b ∧
        ∀ l : BitVec 6, s.cfg.codes = CmdCodes.default → b = commandByte 0xC0 l →
          t.panel.chip k = { s.panel.chip k with start := l })

/-! ## Refresh driver requests -/

/-- INIT on an Uninitialized block (41_refresh_driver R99): its two commands with no chip selected, INIT set, the lines afterwards, and nothing else of the block. -/
def Obligations.InitBringsTheBlockUp : Prop :=
  ∀ s : State, s.engine = .idle → s.ctrl.init = false →
    ∃ t, exec .init s = .next t ∧ Completed s t { data := 0x00, err := false } ∧
      t.ctrl = { s.ctrl with init := true } ∧ t.lines.cssel = 0 ∧
      t.lines = { s.lines with rs := false, rw := false, en := false, rst := true, cs1 := true, cs2 := true, cs3 := true,
                               dbOut := s.cfg.codes.displayOn } ∧
      t.trace = s.trace ++ [commandTx 0b111 (commandByte s.cfg.codes.startLine (0 : BitVec 6)),
                            commandTx 0b111 s.cfg.codes.displayOn] ∧
      t.seq = s.seq ∧ SameFb s t

/-- The example of 41_refresh_driver R99: from block reset, INIT records exactly the two transactions and leaves CTRL = 0x01; and a second INIT is rejected (70_reset_and_hazards R150). -/
def Obligations.InitFromResetThenAgain : Prop :=
  ∃ t u, exec .init State.reset = .next t ∧
    t.trace = [{ rs := false, rw := false, cs := 0b111, db := 0xC0 }, { rs := false, rw := false, cs := 0b111, db := 0x3F }] ∧
    ctrlReg t = 0x01 ∧ exec .init t = .next u ∧ Rejected t u .alreadyInitialized ∧ ctrlReg u = 0x25

/-- SETORIENT (41_refresh_driver R100): the flag takes the given value, in either lifecycle state, and nothing else changes. -/
def Obligations.SetorientSetsTheFlag : Prop :=
  ∀ (s : State) (r : Bool), s.engine = .idle →
    ∃ t, exec (.setorient r) s = .next t ∧ Completed s t { data := 0x00, err := false } ∧
      t.ctrl = { s.ctrl with orient := r } ∧ NoBus s t ∧ t.seq = s.seq ∧ SameFb s t

/-- The transactions of 41_refresh_driver R108, by index, at the default codes. -/
def RefreshTraceAsListed (s : State) (txs : List Tx) : Prop :=
  txs.length = 1565 ∧
  txs[0]? = some (commandTx s.lines.cs 0xC0) ∧
  txs[1564]? = some (commandTx 0b011 0x3F) ∧
  (∀ chip, 1 ≤ chip → chip ≤ 3 →
    txs[1 + (chip - 1) * 521]? = some (commandTx (csOf chip) 0x40) ∧
    ∀ page, page ≤ 7 →
      txs[2 + (chip - 1) * 521 + page * 65]? = some (commandTx (csOf chip) (0xB8 ||| BitVec.ofNat 8 page)) ∧
      ∀ column, column ≤ 63 →
        txs[3 + (chip - 1) * 521 + page * 65 + column]? = some (dataTx (csOf chip) (src s chip page column)))

/-- REFRESH on an Initialized block records exactly the 1565 transactions of 41_refresh_driver R108, in their places: 1536 data writes and 29 command writes. At the default codes, which the rule itself names (log 5). -/
def Obligations.RefreshSendsTheListedTransactions : Prop :=
  ∀ s : State, s.engine = .idle → s.ctrl.init = true → s.cfg.codes = CmdCodes.default →
    ∃ t txs, exec .refresh s = .next t ∧ t.trace = s.trace ++ txs ∧ RefreshTraceAsListed s txs ∧
      (txs.filter (fun x => x.rs)).length = 1536 ∧ (txs.filter (fun x => !x.rs)).length = 29

/-- REFRESH, for every choice of the command codes (41_refresh_driver R107, R109): the transactions in the order of the loops, chip 3 left selected, the lines afterwards; FB and CTRL's stored fields are only read. The sequencer's counters are unspecified afterwards. -/
def Obligations.RefreshLeavesChipThreeSelected : Prop :=
  ∀ s : State, s.engine = .idle → s.ctrl.init = true →
    ∃ t, exec .refresh s = .next t ∧ Completed s t { data := 0x00, err := false } ∧
      t.trace = s.trace ++ refreshTrace s ∧
      t.lines = { s.lines with rs := false, rw := false, en := false, cs1 := true, cs2 := true, cs3 := false,
                               dbOut := s.cfg.codes.displayOn } ∧
      t.lines.cssel = 3 ∧ (s.cfg.codes = CmdCodes.default → t.lines.dbOut = 0x3F) ∧ t.ctrl = s.ctrl ∧ SameFb s t

/-- CLEAR on an Initialized block (41_refresh_driver R112, R113): every framebuffer byte is 0, and the trace is the one a REFRESH records from any state with the same build and lines whose framebuffer is all 0, in either orientation: 1536 data bytes, all 0; the rest as REFRESH leaves it. -/
def Obligations.ClearZeroesAndRefreshes : Prop :=
  ∀ s : State, s.engine = .idle → s.ctrl.init = true →
    ∃ t txs, exec .clear s = .next t ∧ Completed s t { data := 0x00, err := false } ∧
      (∀ a, a < 1536 → fbRead t a = 0x00) ∧
      t.trace = s.trace ++ txs ∧ (txs.filter (fun x => x.rs)).length = 1536 ∧
      (∀ x ∈ txs, x.rs = true → x.db = 0x00 ∧ x.rw = false) ∧
      (∀ z : State, z.cfg = s.cfg → z.lines = s.lines → (∀ a, a < 1536 → fbRead z a = 0x00) → txs = refreshTrace z) ∧
      t.lines = { s.lines with rs := false, rw := false, en := false, cs1 := true, cs2 := true, cs3 := false,
                               dbOut := s.cfg.codes.displayOn } ∧
      t.lines.cssel = 3 ∧ t.ctrl = s.ctrl

/-- 41_refresh_driver R112, "zeroes the framebuffer and the panel": after CLEAR every cell of the reference panel is 0, whatever the orientation. At the default codes; it rests on the reference panel (log 12). -/
def Obligations.ClearZeroesEveryPanelCell : Prop :=
  ∀ s : State, s.engine = .idle → s.ctrl.init = true → s.cfg.codes = CmdCodes.default →
    ∃ t, exec .clear s = .next t ∧
      ∀ (k : Nat) (page : BitVec 3) (column : BitVec 6), k = 1 ∨ k = 2 ∨ k = 3 →
        (t.panel.chip k).cell page column = 0x00

/-- 41_refresh_driver R113, the document's test: a REFRESH after a CLEAR sends 1536 data bytes, all 0, whatever SETORIENT did between. -/
def Obligations.RefreshAfterClearSendsZeros : Prop :=
  ∀ (s : State) (r : Bool), s.engine = .idle → s.ctrl.init = true →
    ∃ t u v txs, exec .clear s = .next t ∧ exec (.setorient r) t = .next u ∧ exec .refresh u = .next v ∧
      v.trace = u.trace ++ txs ∧ (txs.filter (fun x => x.rs)).length = 1536 ∧ ∀ x ∈ txs, x.rs = true → x.db = 0x00

/-- 41_refresh_driver R101: `r[7-i] = x[i]`, and the document's example. -/
def Obligations.RevEightReversesTheBits : Prop :=
  (∀ (x : Byte) (i : Nat), i ≤ 7 → (rev8 x).getLsbD (7 - i) = x.getLsbD i) ∧ rev8 0x47 = 0xE2

/-- 41_refresh_driver R102: an involution that keeps the population count; the values the rule lists. -/
def Obligations.RevEightIsAnInvolution : Prop :=
  (∀ b : Byte, rev8 (rev8 b) = b) ∧
  (∀ b : Byte, ((List.range 8).filter (fun i => (rev8 b).getLsbD i)).length =
    ((List.range 8).filter (fun i => b.getLsbD i)).length) ∧
  rev8 0x00 = 0x00 ∧ rev8 0xFF = 0xFF ∧ rev8 0xAA = 0x55 ∧ rev8 0x01 = 0x80

/-- 20_memory R44: `offset` maps the 1536 triples one-to-one onto {0, ..., 1535}. -/
def Obligations.OffsetIsABijection : Prop :=
  (∀ c p k, 1 ≤ c → c ≤ 3 → p ≤ 7 → k ≤ 63 → offset c p k ≤ 1535) ∧
  (∀ c p k c' p' k', 1 ≤ c → c ≤ 3 → p ≤ 7 → k ≤ 63 → 1 ≤ c' → c' ≤ 3 → p' ≤ 7 → k' ≤ 63 →
    offset c p k = offset c' p' k' → c = c' ∧ p = p' ∧ k = k') ∧
  (∀ a, a ≤ 1535 → ∃ c p k, 1 ≤ c ∧ c ≤ 3 ∧ p ≤ 7 ∧ k ≤ 63 ∧ offset c p k = a)

/-- 20_memory R45: the inverse of `offset`. -/
def Obligations.OffsetInverseFormula : Prop :=
  ∀ a, a ≤ 1535 →
    let chip := a % 192 / 64 + 1
    let page := a / 192
    let column := a % 64
    1 ≤ chip ∧ chip ≤ 3 ∧ page ≤ 7 ∧ column ≤ 63 ∧ offset chip page column = a

/-- 70_reset_and_hazards R160: after REFRESH every cell of the reference panel holds its source byte, whatever the panel and the lines were before, at the default codes. It rests on the reference panel (20_memory R59 to R62, log 12). -/
def Obligations.RefreshFillsEveryPanelCell : Prop :=
  ∀ s : State, s.engine = .idle → s.ctrl.init = true → s.cfg.codes = CmdCodes.default →
    ∃ t, exec .refresh s = .next t ∧
      ∀ (k : Nat) (page : BitVec 3) (column : BitVec 6), k = 1 ∨ k = 2 ∨ k = 3 →
        (t.panel.chip k).cell page column = src s k page.toNat column.toNat

/-- 41_refresh_driver R114: with ORIENT = 1, after REFRESH the panel cell bit at glass pixel (x, y) is framebuffer pixel (191 - x, 63 - y), the 180° rotation; with ORIENT = 0 it is pixel (x, y). At the default codes; it rests on the reference panel (log 12). -/
def Obligations.RefreshRotatesTheImage : Prop :=
  ∀ s : State, s.engine = .idle → s.ctrl.init = true → s.cfg.codes = CmdCodes.default →
    ∃ t, exec .refresh s = .next t ∧
      ∀ x y, x ≤ 191 → y ≤ 63 →
        ((t.panel.chip (x / 64 + 1)).cell (BitVec.ofNat 3 (y / 8)) (BitVec.ofNat 6 (x % 64))).getLsbD (y % 8) =
          if s.ctrl.orient then fbPixel s (191 - x) (63 - y) else fbPixel s x y

/-- 70_reset_and_hazards R155 and R156: REFRESH turns on the display of chip 3 alone, and clears the start line of only the chips its first command reaches. At the default codes; it rests on the reference panel (log 12). -/
def Obligations.RefreshTouchesOneDisplayFlag : Prop :=
  ∀ s : State, s.engine = .idle → s.ctrl.init = true → s.cfg.codes = CmdCodes.default →
    ∃ t, exec .refresh s = .next t ∧ ∀ k, k = 1 ∨ k = 2 ∨ k = 3 →
      (t.panel.chip k).on = ((s.panel.chip k).on || k == 3) ∧
      (t.panel.chip k).start = if reaches s.cfg.noneSelected s.lines.cs k then 0 else (s.panel.chip k).start

/-- 70_reset_and_hazards R154: after INIT every start line is 0, and the displays are on exactly when a strobe with no chip selected reaches all three chips. At the default codes; it rests on the reference panel (log 12). -/
def Obligations.InitTurnsTheDisplaysOnOnlyByBroadcast : Prop :=
  ∀ s : State, s.engine = .idle → s.ctrl.init = false → s.cfg.codes = CmdCodes.default →
    ∃ t, exec .init s = .next t ∧ ∀ k, k = 1 ∨ k = 2 ∨ k = 3 →
      (t.panel.chip k).start = 0 ∧ ((t.panel.chip k).on = true ↔ s.cfg.noneSelected = .broadcast)

/-- 70_reset_and_hazards R156, 20_memory R63: on a panel whose displays are on with start line 0, REFRESH shows the framebuffer on the whole glass, upright or turned by 180° as ORIENT says (41_refresh_driver R114). At the default codes; it rests on the reference panel (log 12). -/
def Obligations.RefreshShowsTheImageOnTheGlass : Prop :=
  ∀ s : State, s.engine = .idle → s.ctrl.init = true → s.cfg.codes = CmdCodes.default →
    (∀ k, k = 1 ∨ k = 2 ∨ k = 3 → (s.panel.chip k).on = true ∧ (s.panel.chip k).start = 0) →
    ∃ t, exec .refresh s = .next t ∧
      ∀ x y, x ≤ 191 → y ≤ 63 →
        glassPixel t x y = some (if s.ctrl.orient then fbPixel s (191 - x) (63 - y) else fbPixel s x y)

/-! ## Host port requests -/

/-- FBWR inside the framebuffer (42_host_port R120): the byte is stored, every other byte reads as before, and nothing else changes. -/
def Obligations.FbwrStoresOneByte : Prop :=
  ∀ (s : State) (a : BitVec 12) (v : Byte), s.engine = .idle → a.toNat < 1536 →
    ∃ t, exec (.fbwr a v) s = .next t ∧ Completed s t { data := 0x00, err := false } ∧
      fbRead t a.toNat = v ∧ (∀ b, b ≠ a.toNat → fbRead t b = fbRead s b) ∧
      NoBus s t ∧ t.ctrl = s.ctrl ∧ t.seq = s.seq

/-- FBRD inside the framebuffer (42_host_port R121): the response is the byte, and nothing else changes. -/
def Obligations.FbrdReturnsTheByte : Prop :=
  ∀ (s : State) (a : BitVec 12), s.engine = .idle → a.toNat < 1536 →
    ∃ t, exec (.fbrd a) s = .next t ∧ Completed s t { data := fbRead s a.toNat, err := false } ∧
      NoBus s t ∧ t.ctrl = s.ctrl ∧ t.seq = s.seq ∧ SameFb s t

/-- 20_memory R48: an FB request whose ADDR is 0 to 1535 reaches a framebuffer byte; one whose ADDR is 1536 or more is rejected with FB_RANGE, and it reads or writes nothing. -/
def Obligations.FbOffsetOutOfRangeIsRejected : Prop :=
  ∀ (s : State) (a : BitVec 12) (v : Byte), s.engine = .idle →
    (a.toNat ≤ 1535 →
      (∃ t, exec (.fbwr a v) s = .next t ∧ t.rsp.err = false ∧ fbRead t a.toNat = v) ∧
      (∃ t, exec (.fbrd a) s = .next t ∧ t.rsp = { data := fbRead s a.toNat, err := false })) ∧
    (1536 ≤ a.toNat →
      (∃ t, exec (.fbwr a v) s = .next t ∧ Rejected s t .fbRange) ∧
      (∃ t, exec (.fbrd a) s = .next t ∧ Rejected s t .fbRange))

/-- FBFILL (42_host_port R122): every framebuffer byte takes the value, in either lifecycle state, with no bus activity and no other effect. -/
def Obligations.FbfillFillsTheFramebuffer : Prop :=
  ∀ (s : State) (v : Byte), s.engine = .idle →
    ∃ t, exec (.fbfill v) s = .next t ∧ Completed s t { data := 0x00, err := false } ∧
      (∀ a, a < 1536 → fbRead t a = v) ∧ NoBus s t ∧ t.ctrl = s.ctrl ∧ t.seq = s.seq

/-- RDCTRL (42_host_port R123, 10_state R23): the response is CTRL, field by field, and nothing changes. -/
def Obligations.RdctrlReturnsCtrl : Prop :=
  ∀ s : State, s.engine = .idle →
    ∃ t, exec .rdctrl s = .next t ∧ Completed s t { data := ctrlReg s, err := false } ∧
      t.rsp.data.getLsbD 0 = s.ctrl.init ∧ t.rsp.data.getLsbD 1 = s.ctrl.orient ∧ t.rsp.data.getLsbD 2 = s.ctrl.err ∧
      t.rsp.data.extractLsb' 3 3 = s.ctrl.errCode ∧ t.rsp.data.extractLsb' 6 2 = s.lines.cssel ∧
      NoBus s t ∧ t.ctrl = s.ctrl ∧ t.seq = s.seq ∧ SameFb s t

/-- The instructions `is`, carried out one after another from `s`, end in `t`, and none of them writes the framebuffer byte at offset `a`: no FBWR there, no FBFILL, no CLEAR but one that is rejected. -/
def RunsWithoutWriting (a : Nat) : List Instr → State → State → Prop
  | [], s, t => t = s
  | i :: is, s, t =>
    (∀ b v, i = .fbwr b v → b.toNat ≠ a) ∧ (∀ v, i ≠ .fbfill v) ∧ (i = .clear → s.ctrl.init = false) ∧
    ∃ u, exec i s = .next u ∧ RunsWithoutWriting a is u t

/-- 20_memory R58: an FBRD returns the byte the most recent FBWR, FBFILL or CLEAR wrote at that offset, whatever instructions that write nothing there have run since; and the reset draw at an offset that nothing has written since reset. The form of the reset draw is the model's (log 6). -/
def Obligations.FbrdReturnsTheLatestWrite : Prop :=
  ∀ (s u : State) (a : BitVec 12) (v : Byte) (is : List Instr), s.engine = .idle → a.toNat < 1536 →
    (cellsFind s.fb.cells a.toNat = none → RunsWithoutWriting a.toNat is s u →
      ∃ r, exec (.fbrd a) u = .next r ∧ r.rsp = { data := Config.fbReset s.fb.draw a.toNat, err := false }) ∧
    (∃ t, exec (.fbwr a v) s = .next t ∧ (RunsWithoutWriting a.toNat is t u →
      ∃ r, exec (.fbrd a) u = .next r ∧ r.rsp = { data := v, err := false })) ∧
    (∃ t, exec (.fbfill v) s = .next t ∧ (RunsWithoutWriting a.toNat is t u →
      ∃ r, exec (.fbrd a) u = .next r ∧ r.rsp = { data := v, err := false })) ∧
    (s.ctrl.init = true → ∃ t, exec .clear s = .next t ∧ (RunsWithoutWriting a.toNat is t u →
      ∃ r, exec (.fbrd a) u = .next r ∧ r.rsp = { data := 0x00, err := false }))

/-! ## Panel commands -/

/-- 20_memory R61: each of the four command bytes changes its one register of each chip reached, and nothing else: no other chip, no cell, nothing of the block. What it says of the panel rests on the reference panel (log 12). -/
def Obligations.PanelCommandsSetOneRegister : Prop :=
  ∀ (s : State) (c : BitVec 6) (p : BitVec 3) (l : BitVec 6),
    let new := fun (f : Chip → Chip) (k : Nat) =>
      if reaches s.cfg.noneSelected s.lines.cs k then f (s.panel.chip k) else s.panel.chip k
    let after := fun (f : Chip → Chip) => { s with panel := { chip1 := new f 1, chip2 := new f 2, chip3 := new f 3 } }
    exec .displayOn s = .next (after (fun x => { x with on := true })) ∧
    exec (.setColumn c) s = .next (after (fun x => { x with col := c })) ∧
    exec (.setPage p) s = .next (after (fun x => { x with page := p })) ∧
    exec (.startLine l) s = .next (after (fun x => { x with start := l }))

/-- 30_encoding R81, 20_memory R60: with chip `k` selected a strobe reaches chip `k` alone; with none selected PANEL_NONE_SELECTED decides. What it says of the panel rests on the reference panel (log 12). -/
def Obligations.StrobeReachesTheSelectedChip : Prop :=
  ∀ (n : NoneSelected) (k j : Nat), k ≤ 3 → 1 ≤ j → j ≤ 3 →
    (reaches n (csOf k) j = true ↔ (j = k ∨ (k = 0 ∧ n = .broadcast)))

/-! ## Errors and completions -/

/-- 60_exceptions R129, R130 and R132, and 41_refresh_driver R98: a request whose own check fails is rejected with the code listed, and a rejected request has no effect but the error record and its completion. -/
def Obligations.RejectedRequestsHaveNoEffect : Prop :=
  ∀ (i : Instr) (s : State) (e : ErrCode), s.engine = .idle → rejects i s e →
    ∃ t, exec i s = .next t ∧ Rejected s t e ∧
      t.ctrl.err = true ∧ (s.ctrl.err = false → t.ctrl.errCode = e.code) ∧ (s.ctrl.err = true → t.ctrl.errCode = s.ctrl.errCode)

/-- 60_exceptions R131: ERR stays 1 until block reset, and ERRCODE keeps the first code; the first error records its code, and each later one still answers its own request with rsp_err = 1. -/
def Obligations.ErrorRecordIsSticky : Prop :=
  (∀ s t : State, (∀ rest, s.script ≠ .blockReset :: rest) → step s = .next t → s.ctrl.err = true →
    t.ctrl.err = true ∧ t.ctrl.errCode = s.ctrl.errCode) ∧
  (∀ (s : State) (i : Instr) (e : ErrCode), s.engine = .idle → rejects i s e →
    ∃ t, exec i s = .next t ∧ t.rsp.err = true ∧ t.ctrl.err = true ∧ (s.ctrl.err = false → t.ctrl.errCode = e.code)) ∧
  (∀ (s : State) (w : Word) (rest : List HostEvent), s.cfg.valid = true → s.engine = .idle → s.script = .request w :: rest →
    decodeRequest w = none →
    ∃ t, step s = .next t ∧ t.rsp.err = true ∧ t.ctrl.err = true ∧ (s.ctrl.err = false → t.ctrl.errCode = 1))

/-- 30_encoding R74, 60_exceptions R128: a request on an idle block completes exactly once; rsp_err is 1 exactly when it was rejected; rsp_data is the status byte, the framebuffer byte or CTRL for the three reads, and 0 for every other request and every rejected one. An illegal word is a rejected request too. The form of the status byte's free value is the model's (log 7). -/
def Obligations.EveryRequestCompletesOnce : Prop :=
  (∀ (s : State) (w : Word) (rest : List HostEvent), s.cfg.valid = true → s.engine = .idle → s.script = .request w :: rest →
    decodeRequest w = none →
    ∃ t, step s = .next t ∧ Completed { s with script := rest } t { data := 0x00, err := true }) ∧
  ∀ (i : Instr) (s : State), i.isRequest = true → s.engine = .idle →
    ∃ t r, exec i s = .next t ∧ Completed s t r ∧
      (r.err = true ↔ ∃ e, rejects i s e) ∧
      (r.err = true → r.data = 0x00) ∧
      (r.err = false →
        (i = .rdstat → r.data = Config.statusValue s.draws.status) ∧
        (∀ a, i = .fbrd a → r.data = fbRead s a.toNat) ∧
        (i = .rdctrl → r.data = ctrlReg s) ∧
        (i ≠ .rdstat → (∀ a, i ≠ .fbrd a) → i ≠ .rdctrl → r.data = 0x00))

/-- A host request handed to a BUSY block is not accepted (60_exceptions R127): the model stops with the fault that says so. The fault is the model's choice (log 19). -/
def Obligations.BusyBlockAcceptsNoRequest : Prop :=
  ∀ (i : Instr) (s : State) (p : InProgress), i.isRequest = true → s.engine = .busy p →
    exec i s = .fault .engineBusy

/-- 10_state R24: which request writes which field of CTRL. -/
def Obligations.CtrlFieldsHaveTheirWriters : Prop :=
  ∀ (i : Instr) (s t : State), exec i s = .next t →
    (t.ctrl.init ≠ s.ctrl.init → i = .init ∧ t.ctrl.init = true) ∧
    (t.ctrl.orient ≠ s.ctrl.orient → ∃ r, i = .setorient r ∧ t.ctrl.orient = r) ∧
    (t.ctrl.err ≠ s.ctrl.err → (∃ e, rejects i s e) ∧ t.ctrl.err = true) ∧
    (t.ctrl.errCode ≠ s.ctrl.errCode → (∃ e, rejects i s e ∧ t.ctrl.errCode = e.code) ∧ s.ctrl.err = false) ∧
    (t.lines.cssel ≠ s.lines.cssel → (∃ c, i = .selchip c) ∨ i = .init ∨ i = .refresh ∨ i = .clear)

/-- 20_memory R47: only FBWR, FBFILL and CLEAR write the framebuffer; no other instruction changes any byte of it. -/
def Obligations.OnlyThreeRequestsWriteTheFramebuffer : Prop :=
  ∀ (i : Instr) (s t : State), exec i s = .next t →
    (∀ a v, i ≠ .fbwr a v) → (∀ v, i ≠ .fbfill v) → i ≠ .clear → SameFb s t

/-- 30_encoding R82: every transaction a request records is a command write, from WRCMD, INIT, REFRESH or CLEAR; or a data write, from WRDATA, REFRESH or CLEAR; or a status read, from RDSTAT; never a data read. And its chip selects are legal, if they were legal before (R81). -/
def Obligations.RequestsMakeOnlyThreeKindsOfTransaction : Prop :=
  ∀ (i : Instr) (s t : State), exec i s = .next t → csLegal s.lines.cs = true →
    csLegal t.lines.cs = true ∧
    ∃ txs, t.trace = s.trace ++ txs ∧ ∀ x ∈ txs, csLegal x.cs = true ∧
      ((x.rs = false ∧ x.rw = false ∧ ((∃ b, i = .wrcmd b) ∨ i = .init ∨ i = .refresh ∨ i = .clear)) ∨
       (x.rs = true ∧ x.rw = false ∧ ((∃ b, i = .wrdata b) ∨ i = .refresh ∨ i = .clear)) ∨
       (x.rs = false ∧ x.rw = true ∧ i = .rdstat))

/-! ## Invariants and whole-machine rules -/

/-- The invariant holds at reset (10_state R32, R36), the memories are in canonical form, which is the model's (log 6), and the pin map is a good one: the build's at reset is the model's choice (log 10). -/
def Obligations.ResetMeetsTheInvariant : Prop :=
  BlockGood State.reset ∧ State.reset.memWf = true ∧ State.reset.cfg.valid = true

/-- 10_state R27, R36, R17: every step keeps the invariant, block reset and each engine step of a request in progress included. -/
def Obligations.StepKeepsTheInvariant : Prop :=
  ∀ s t : State, BlockGood s → step s = .next t → BlockGood t

/-- Every step keeps the framebuffer and the panel's cells in canonical form. The form is the model's (log 6). -/
def Obligations.StepKeepsMemoryCanonical : Prop :=
  ∀ s t : State, BlockGood s → s.memWf = true → step s = .next t → t.memWf = true

/-- A good state with a good pin map never faults and is never refused: no request can hang the block (93 section 1). -/
def Obligations.GoodStatesAlwaysStep : Prop :=
  ∀ s : State, BlockGood s → s.cfg.valid = true → ∃ t, step s = .next t

/-- 30_encoding R79: inside a request, no line but EN changes in a step that begins or ends with EN high. -/
def Obligations.LinesHoldWhileEnIsHigh : Prop :=
  ∀ (s t : State) (p : InProgress), BlockGood s → s.engine = .busy p → (∀ rest, s.script ≠ .blockReset :: rest) →
    step s = .next t → (s.lines.en = true ∨ t.lines.en = true) → t.lines = { s.lines with en := t.lines.en }

/-- A request carried out one engine step at a time ends in the very state that carrying it out whole gives, after finitely many steps (20_memory R52; 70_reset_and_hazards R164). That there are two forms is the model's choice (log 2). -/
def Obligations.StepwiseRunReachesTheSameState : Prop :=
  ∀ (s t : State) (w : Word) (i : Instr), s.cfg.valid = true → s.engine = .idle → s.script = [] →
    decodeRequest w = some i → exec i s = .next t →
    ∃ n, runSteps (n + 1) { s with script := [.requestStepwise w] } = .next t

/-- 41_refresh_driver R115: while a REFRESH runs, and a CLEAR after its first step, the framebuffer and the orientation flag hold still, block reset apart. -/
def Obligations.ImageHoldsStillDuringARefresh : Prop :=
  ∀ (s t : State) (p : InProgress), s.engine = .busy p → (p.req = .refresh ∨ (p.req = .clear ∧ 1 ≤ p.pos)) →
    (∀ rest, s.script ≠ .blockReset :: rest) → step s = .next t → t.fb = s.fb ∧ t.ctrl.orient = s.ctrl.orient

/-- 70_reset_and_hazards R162: the least duration of each request, `2 × T_EN_MIN + T_AS` per strobe and T_RST_MIN per panel reset, in nanoseconds. -/
def Obligations.LeastDurationsAsListed : Prop :=
  ∀ (c : Config) (b : Byte) (n : Byte) (r : Bool) (a : BitVec 12),
    let strobe := 2 * tEnMinNs + c.tAsNs
    minNs c (program c (.wrcmd b)) = strobe ∧ minNs c (program c (.wrdata b)) = strobe ∧
    minNs c (program c .rdstat) = strobe ∧ minNs c (program c (.selchip n)) = 0 ∧
    minNs c (program c (.setorient r)) = 0 ∧ minNs c (program c .preset) = tRstMinNs ∧
    minNs c (program c .init) = tRstMinNs + 2 * strobe ∧
    minNs c (program c .refresh) = 1565 * strobe ∧ minNs c (program c .clear) = 1565 * strobe ∧
    minNs c (program c (.fbwr a b)) = 0 ∧ minNs c (program c (.fbrd a)) = 0 ∧ minNs c (program c (.fbfill b)) = 0 ∧
    minNs c (program c .rdctrl) = 0 ∧
    (c.tAsNs = 0 → strobe = 2000 ∧ 1565 * strobe = 3130000 ∧ tRstMinNs + 2 * strobe = 1004000)

/-- 30_encoding R73: the pseudo-instructions, at the default codes. The codes are log 5. -/
def Obligations.PseudoInstructionsExpand : Prop :=
  expandPseudo CmdCodes.default .show = some .refresh ∧ expandPseudo CmdCodes.default .deselect = some (.selchip 0) ∧
  expandPseudo CmdCodes.default .dispon = some (.wrcmd 0x3F) ∧ expandPseudo CmdCodes.default .fbclr = some (.fbfill 0x00) ∧
  (∀ l, l ≤ 63 → expandPseudo CmdCodes.default (.setstart l) = some (.wrcmd (0xC0 ||| BitVec.ofNat 8 l))) ∧
  (∀ p, p ≤ 7 → expandPseudo CmdCodes.default (.setpage p) = some (.wrcmd (0xB8 ||| BitVec.ofNat 8 p))) ∧
  (∀ k, k ≤ 63 → expandPseudo CmdCodes.default (.setcol k) = some (.wrcmd (0x40 ||| BitVec.ofNat 8 k))) ∧
  (∀ l, 63 < l → expandPseudo CmdCodes.default (.setstart l) = none) ∧
  (∀ p, 7 < p → expandPseudo CmdCodes.default (.setpage p) = none) ∧
  (∀ k, 63 < k → expandPseudo CmdCodes.default (.setcol k) = none)
end

