-- ==== Sys2Proof/Laws/Decode.lean ====
section
/-! SUPPORT. Request words by their fields (30_encoding R65), and what it takes to be a row's word. -/

namespace Sys2Proof

/-- A word from all its four fields. -/
def fieldsWord (op : BitVec 4) (a : BitVec 12) (r d : Byte) : Word := op ++ a ++ r ++ d

theorem requestWord_eq (op : BitVec 4) (a : BitVec 12) (d : Byte) : requestWord op a d = fieldsWord op a 0 d := rfl

theorem fieldsWord_fields (w : Word) : fieldsWord (opField w) (addrField w) (rsvField w) (dataField w) = w := by
  unfold fieldsWord opField addrField rsvField dataField
  ext i hi
  simp
  grind

@[simp] theorem opField_fieldsWord (op : BitVec 4) (a : BitVec 12) (r d : Byte) : opField (fieldsWord op a r d) = op := by
  unfold fieldsWord opField; ext i hi; simp; grind
@[simp] theorem addrField_fieldsWord (op : BitVec 4) (a : BitVec 12) (r d : Byte) : addrField (fieldsWord op a r d) = a := by
  unfold fieldsWord addrField; ext i hi; simp; grind
@[simp] theorem rsvField_fieldsWord (op : BitVec 4) (a : BitVec 12) (r d : Byte) : rsvField (fieldsWord op a r d) = r := by
  unfold fieldsWord rsvField; ext i hi; simp; grind
@[simp] theorem dataField_fieldsWord (op : BitVec 4) (a : BitVec 12) (r d : Byte) : dataField (fieldsWord op a r d) = d := by
  unfold fieldsWord dataField; ext i hi; simp; grind

/-- Two words are the same when their fields are. -/
theorem word_ext {v w : Word} (h1 : opField v = opField w) (h2 : addrField v = addrField w) (h3 : rsvField v = rsvField w)
    (h4 : dataField v = dataField w) : v = w := by
  rw [← fieldsWord_fields v, ← fieldsWord_fields w, h1, h2, h3, h4]

theorem opField_and (v w : Word) : opField (v &&& w) = opField v &&& opField w := by unfold opField; ext i hi; simp
theorem addrField_and (v w : Word) : addrField (v &&& w) = addrField v &&& addrField w := by unfold addrField; ext i hi; simp
theorem rsvField_and (v w : Word) : rsvField (v &&& w) = rsvField v &&& rsvField w := by unfold rsvField; ext i hi; simp
theorem dataField_and (v w : Word) : dataField (v &&& w) = dataField v &&& dataField w := by unfold dataField; ext i hi; simp

/-- A row's test, field by field. -/
theorem RequestRow.holds_iff (r : RequestRow) (w : Word) : r.holds w = true ↔
    opField w &&& opField r.mask = opField r.bits ∧ addrField w &&& addrField r.mask = addrField r.bits ∧
    rsvField w &&& rsvField r.mask = rsvField r.bits ∧ dataField w &&& dataField r.mask = dataField r.bits := by
  rw [RequestRow.holds, beq_iff_eq]
  constructor
  · intro h
    rw [← opField_and, ← addrField_and, ← rsvField_and, ← dataField_and, h]
    exact ⟨rfl, rfl, rfl, rfl⟩
  · rintro ⟨h1, h2, h3, h4⟩
    exact word_ext (by rw [opField_and, h1]) (by rw [addrField_and, h2]) (by rw [rsvField_and, h3]) (by rw [dataField_and, h4])

/-- Every row tests the whole OP field. -/
theorem requestRows_op : ∀ r ∈ requestRows, opField r.mask = 0xF#4 := by
  simp [requestRows, opField]

/-- A row's word has the row's OP (30_encoding R65, R66). -/
theorem RequestRow.op_of_holds {r : RequestRow} (hr : r ∈ requestRows) {w : Word} (h : r.holds w = true) :
    opField w = opField r.bits := by
  have := ((r.holds_iff w).mp h).1
  rw [requestRows_op r hr] at this
  rw [← this]
  generalize opField w = x
  revert x
  decide

end Sys2Proof
end

