-- ==== Sys2Proof/Laws/State.lean ====
section
/-! SUPPORT. One lemma per field per named change of State: what the change writes, and what it leaves alone. -/

namespace Sys2Proof.Machine

/-! ### What each operation leaves alone -/

@[simp] theorem fbWrite_cfg (a : Nat) (v : Byte) (s : State) : (fbWrite a v s).cfg = s.cfg := rfl
@[simp] theorem fbWrite_ctrl (a : Nat) (v : Byte) (s : State) : (fbWrite a v s).ctrl = s.ctrl := rfl
@[simp] theorem fbWrite_lines (a : Nat) (v : Byte) (s : State) : (fbWrite a v s).lines = s.lines := rfl
@[simp] theorem fbWrite_seq (a : Nat) (v : Byte) (s : State) : (fbWrite a v s).seq = s.seq := rfl
@[simp] theorem fbWrite_rsp (a : Nat) (v : Byte) (s : State) : (fbWrite a v s).rsp = s.rsp := rfl
@[simp] theorem fbWrite_engine (a : Nat) (v : Byte) (s : State) : (fbWrite a v s).engine = s.engine := rfl
@[simp] theorem fbWrite_waiting (a : Nat) (v : Byte) (s : State) : (fbWrite a v s).waiting = s.waiting := rfl
@[simp] theorem fbWrite_panel (a : Nat) (v : Byte) (s : State) : (fbWrite a v s).panel = s.panel := rfl
@[simp] theorem fbWrite_traceRev (a : Nat) (v : Byte) (s : State) : (fbWrite a v s).traceRev = s.traceRev := rfl
@[simp] theorem fbWrite_completionsRev (a : Nat) (v : Byte) (s : State) : (fbWrite a v s).completionsRev = s.completionsRev := rfl
@[simp] theorem fbWrite_script (a : Nat) (v : Byte) (s : State) : (fbWrite a v s).script = s.script := rfl
@[simp] theorem fbWrite_draws (a : Nat) (v : Byte) (s : State) : (fbWrite a v s).draws = s.draws := rfl

@[simp] theorem fbFill_cfg (v : Byte) (s : State) : (fbFill v s).cfg = s.cfg := by simp only [fbFill]
@[simp] theorem fbFill_ctrl (v : Byte) (s : State) : (fbFill v s).ctrl = s.ctrl := by simp only [fbFill]
@[simp] theorem fbFill_lines (v : Byte) (s : State) : (fbFill v s).lines = s.lines := by simp only [fbFill]
@[simp] theorem fbFill_seq (v : Byte) (s : State) : (fbFill v s).seq = s.seq := by simp only [fbFill]
@[simp] theorem fbFill_rsp (v : Byte) (s : State) : (fbFill v s).rsp = s.rsp := by simp only [fbFill]
@[simp] theorem fbFill_engine (v : Byte) (s : State) : (fbFill v s).engine = s.engine := by simp only [fbFill]
@[simp] theorem fbFill_waiting (v : Byte) (s : State) : (fbFill v s).waiting = s.waiting := by simp only [fbFill]
@[simp] theorem fbFill_panel (v : Byte) (s : State) : (fbFill v s).panel = s.panel := by simp only [fbFill]
@[simp] theorem fbFill_traceRev (v : Byte) (s : State) : (fbFill v s).traceRev = s.traceRev := by simp only [fbFill]
@[simp] theorem fbFill_completionsRev (v : Byte) (s : State) : (fbFill v s).completionsRev = s.completionsRev := by simp only [fbFill]
@[simp] theorem fbFill_script (v : Byte) (s : State) : (fbFill v s).script = s.script := by simp only [fbFill]
@[simp] theorem fbFill_draws (v : Byte) (s : State) : (fbFill v s).draws = s.draws := by simp only [fbFill]

@[simp] theorem onSelected_cfg (f : Chip → Chip) (s : State) : (onSelected f s).cfg = s.cfg := rfl
@[simp] theorem onSelected_fb (f : Chip → Chip) (s : State) : (onSelected f s).fb = s.fb := rfl
@[simp] theorem onSelected_ctrl (f : Chip → Chip) (s : State) : (onSelected f s).ctrl = s.ctrl := rfl
@[simp] theorem onSelected_lines (f : Chip → Chip) (s : State) : (onSelected f s).lines = s.lines := rfl
@[simp] theorem onSelected_seq (f : Chip → Chip) (s : State) : (onSelected f s).seq = s.seq := rfl
@[simp] theorem onSelected_rsp (f : Chip → Chip) (s : State) : (onSelected f s).rsp = s.rsp := rfl
@[simp] theorem onSelected_engine (f : Chip → Chip) (s : State) : (onSelected f s).engine = s.engine := rfl
@[simp] theorem onSelected_waiting (f : Chip → Chip) (s : State) : (onSelected f s).waiting = s.waiting := rfl
@[simp] theorem onSelected_traceRev (f : Chip → Chip) (s : State) : (onSelected f s).traceRev = s.traceRev := rfl
@[simp] theorem onSelected_completionsRev (f : Chip → Chip) (s : State) : (onSelected f s).completionsRev = s.completionsRev := rfl
@[simp] theorem onSelected_script (f : Chip → Chip) (s : State) : (onSelected f s).script = s.script := rfl
@[simp] theorem onSelected_draws (f : Chip → Chip) (s : State) : (onSelected f s).draws = s.draws := rfl

@[simp] theorem scrambleSelected_cfg (s : State) : (scrambleSelected s).cfg = s.cfg := rfl
@[simp] theorem scrambleSelected_fb (s : State) : (scrambleSelected s).fb = s.fb := rfl
@[simp] theorem scrambleSelected_ctrl (s : State) : (scrambleSelected s).ctrl = s.ctrl := rfl
@[simp] theorem scrambleSelected_lines (s : State) : (scrambleSelected s).lines = s.lines := rfl
@[simp] theorem scrambleSelected_seq (s : State) : (scrambleSelected s).seq = s.seq := rfl
@[simp] theorem scrambleSelected_rsp (s : State) : (scrambleSelected s).rsp = s.rsp := rfl
@[simp] theorem scrambleSelected_engine (s : State) : (scrambleSelected s).engine = s.engine := rfl
@[simp] theorem scrambleSelected_waiting (s : State) : (scrambleSelected s).waiting = s.waiting := rfl
@[simp] theorem scrambleSelected_traceRev (s : State) : (scrambleSelected s).traceRev = s.traceRev := rfl
@[simp] theorem scrambleSelected_completionsRev (s : State) : (scrambleSelected s).completionsRev = s.completionsRev := rfl
@[simp] theorem scrambleSelected_script (s : State) : (scrambleSelected s).script = s.script := rfl
@[simp] theorem scrambleSelected_draws_status (s : State) : (scrambleSelected s).draws.status = s.draws.status := rfl
@[simp] theorem scrambleSelected_draws_wait (s : State) : (scrambleSelected s).draws.wait = s.draws.wait := rfl
@[simp] theorem scrambleSelected_draws_cut (s : State) : (scrambleSelected s).draws.cut = s.draws.cut := rfl
@[simp] theorem scrambleSelected_draws_seq (s : State) : (scrambleSelected s).draws.seq = s.draws.seq := rfl

@[simp] theorem panelPowerOn_cfg (s : State) : (panelPowerOn s).cfg = s.cfg := rfl
@[simp] theorem panelPowerOn_fb (s : State) : (panelPowerOn s).fb = s.fb := rfl
@[simp] theorem panelPowerOn_ctrl (s : State) : (panelPowerOn s).ctrl = s.ctrl := rfl
@[simp] theorem panelPowerOn_lines (s : State) : (panelPowerOn s).lines = s.lines := rfl
@[simp] theorem panelPowerOn_seq (s : State) : (panelPowerOn s).seq = s.seq := rfl
@[simp] theorem panelPowerOn_rsp (s : State) : (panelPowerOn s).rsp = s.rsp := rfl
@[simp] theorem panelPowerOn_engine (s : State) : (panelPowerOn s).engine = s.engine := rfl
@[simp] theorem panelPowerOn_waiting (s : State) : (panelPowerOn s).waiting = s.waiting := rfl
@[simp] theorem panelPowerOn_traceRev (s : State) : (panelPowerOn s).traceRev = s.traceRev := rfl
@[simp] theorem panelPowerOn_completionsRev (s : State) : (panelPowerOn s).completionsRev = s.completionsRev := rfl
@[simp] theorem panelPowerOn_script (s : State) : (panelPowerOn s).script = s.script := rfl
@[simp] theorem panelPowerOn_draws_status (s : State) : (panelPowerOn s).draws.status = s.draws.status := rfl
@[simp] theorem panelPowerOn_draws_wait (s : State) : (panelPowerOn s).draws.wait = s.draws.wait := rfl
@[simp] theorem panelPowerOn_draws_cut (s : State) : (panelPowerOn s).draws.cut = s.draws.cut := rfl
@[simp] theorem panelPowerOn_draws_seq (s : State) : (panelPowerOn s).draws.seq = s.draws.seq := rfl

@[simp] theorem panelCommand_cfg (b : Byte) (s : State) : (panelCommand b s).cfg = s.cfg := by
  unfold panelCommand; split <;> rfl
@[simp] theorem panelCommand_fb (b : Byte) (s : State) : (panelCommand b s).fb = s.fb := by
  unfold panelCommand; split <;> rfl
@[simp] theorem panelCommand_ctrl (b : Byte) (s : State) : (panelCommand b s).ctrl = s.ctrl := by
  unfold panelCommand; split <;> rfl
@[simp] theorem panelCommand_lines (b : Byte) (s : State) : (panelCommand b s).lines = s.lines := by
  unfold panelCommand; split <;> rfl
@[simp] theorem panelCommand_seq (b : Byte) (s : State) : (panelCommand b s).seq = s.seq := by
  unfold panelCommand; split <;> rfl
@[simp] theorem panelCommand_rsp (b : Byte) (s : State) : (panelCommand b s).rsp = s.rsp := by
  unfold panelCommand; split <;> rfl
@[simp] theorem panelCommand_engine (b : Byte) (s : State) : (panelCommand b s).engine = s.engine := by
  unfold panelCommand; split <;> rfl
@[simp] theorem panelCommand_waiting (b : Byte) (s : State) : (panelCommand b s).waiting = s.waiting := by
  unfold panelCommand; split <;> rfl
@[simp] theorem panelCommand_traceRev (b : Byte) (s : State) : (panelCommand b s).traceRev = s.traceRev := by
  unfold panelCommand; split <;> rfl
@[simp] theorem panelCommand_completionsRev (b : Byte) (s : State) : (panelCommand b s).completionsRev = s.completionsRev := by
  unfold panelCommand; split <;> rfl
@[simp] theorem panelCommand_script (b : Byte) (s : State) : (panelCommand b s).script = s.script := by
  unfold panelCommand; split <;> rfl
@[simp] theorem panelCommand_draws_status (b : Byte) (s : State) : (panelCommand b s).draws.status = s.draws.status := by
  unfold panelCommand; split <;> rfl
@[simp] theorem panelCommand_draws_wait (b : Byte) (s : State) : (panelCommand b s).draws.wait = s.draws.wait := by
  unfold panelCommand; split <;> rfl
@[simp] theorem panelCommand_draws_cut (b : Byte) (s : State) : (panelCommand b s).draws.cut = s.draws.cut := by
  unfold panelCommand; split <;> rfl
@[simp] theorem panelCommand_draws_seq (b : Byte) (s : State) : (panelCommand b s).draws.seq = s.draws.seq := by
  unfold panelCommand; split <;> rfl

@[simp] theorem panelLatch_cfg (b : Byte) (s : State) : (panelLatch b s).cfg = s.cfg := by
  unfold panelLatch; split <;> simp
@[simp] theorem panelLatch_fb (b : Byte) (s : State) : (panelLatch b s).fb = s.fb := by
  unfold panelLatch; split <;> simp
@[simp] theorem panelLatch_ctrl (b : Byte) (s : State) : (panelLatch b s).ctrl = s.ctrl := by
  unfold panelLatch; split <;> simp
@[simp] theorem panelLatch_lines (b : Byte) (s : State) : (panelLatch b s).lines = s.lines := by
  unfold panelLatch; split <;> simp
@[simp] theorem panelLatch_seq (b : Byte) (s : State) : (panelLatch b s).seq = s.seq := by
  unfold panelLatch; split <;> simp
@[simp] theorem panelLatch_rsp (b : Byte) (s : State) : (panelLatch b s).rsp = s.rsp := by
  unfold panelLatch; split <;> simp
@[simp] theorem panelLatch_engine (b : Byte) (s : State) : (panelLatch b s).engine = s.engine := by
  unfold panelLatch; split <;> simp
@[simp] theorem panelLatch_waiting (b : Byte) (s : State) : (panelLatch b s).waiting = s.waiting := by
  unfold panelLatch; split <;> simp
@[simp] theorem panelLatch_traceRev (b : Byte) (s : State) : (panelLatch b s).traceRev = s.traceRev := by
  unfold panelLatch; split <;> simp
@[simp] theorem panelLatch_completionsRev (b : Byte) (s : State) : (panelLatch b s).completionsRev = s.completionsRev := by
  unfold panelLatch; split <;> simp
@[simp] theorem panelLatch_script (b : Byte) (s : State) : (panelLatch b s).script = s.script := by
  unfold panelLatch; split <;> simp
@[simp] theorem panelLatch_draws_status (b : Byte) (s : State) : (panelLatch b s).draws.status = s.draws.status := by
  unfold panelLatch; split <;> simp
@[simp] theorem panelLatch_draws_wait (b : Byte) (s : State) : (panelLatch b s).draws.wait = s.draws.wait := by
  unfold panelLatch; split <;> simp
@[simp] theorem panelLatch_draws_cut (b : Byte) (s : State) : (panelLatch b s).draws.cut = s.draws.cut := by
  unfold panelLatch; split <;> simp
@[simp] theorem panelLatch_draws_seq (b : Byte) (s : State) : (panelLatch b s).draws.seq = s.draws.seq := by
  unfold panelLatch; split <;> simp

@[simp] theorem onProgress_cfg (f : InProgress → InProgress) (s : State) : (onProgress f s).cfg = s.cfg := by
  unfold onProgress; split <;> rfl
@[simp] theorem onProgress_fb (f : InProgress → InProgress) (s : State) : (onProgress f s).fb = s.fb := by
  unfold onProgress; split <;> rfl
@[simp] theorem onProgress_ctrl (f : InProgress → InProgress) (s : State) : (onProgress f s).ctrl = s.ctrl := by
  unfold onProgress; split <;> rfl
@[simp] theorem onProgress_lines (f : InProgress → InProgress) (s : State) : (onProgress f s).lines = s.lines := by
  unfold onProgress; split <;> rfl
@[simp] theorem onProgress_seq (f : InProgress → InProgress) (s : State) : (onProgress f s).seq = s.seq := by
  unfold onProgress; split <;> rfl
@[simp] theorem onProgress_rsp (f : InProgress → InProgress) (s : State) : (onProgress f s).rsp = s.rsp := by
  unfold onProgress; split <;> rfl
@[simp] theorem onProgress_waiting (f : InProgress → InProgress) (s : State) : (onProgress f s).waiting = s.waiting := by
  unfold onProgress; split <;> rfl
@[simp] theorem onProgress_panel (f : InProgress → InProgress) (s : State) : (onProgress f s).panel = s.panel := by
  unfold onProgress; split <;> rfl
@[simp] theorem onProgress_traceRev (f : InProgress → InProgress) (s : State) : (onProgress f s).traceRev = s.traceRev := by
  unfold onProgress; split <;> rfl
@[simp] theorem onProgress_completionsRev (f : InProgress → InProgress) (s : State) : (onProgress f s).completionsRev = s.completionsRev := by
  unfold onProgress; split <;> rfl
@[simp] theorem onProgress_script (f : InProgress → InProgress) (s : State) : (onProgress f s).script = s.script := by
  unfold onProgress; split <;> rfl
@[simp] theorem onProgress_draws (f : InProgress → InProgress) (s : State) : (onProgress f s).draws = s.draws := by
  unfold onProgress; split <;> rfl

@[simp] theorem advance_cfg (s : State) : (advance s).cfg = s.cfg := by simp [advance]
@[simp] theorem advance_fb (s : State) : (advance s).fb = s.fb := by simp [advance]
@[simp] theorem advance_ctrl (s : State) : (advance s).ctrl = s.ctrl := by simp [advance]
@[simp] theorem advance_lines (s : State) : (advance s).lines = s.lines := by simp [advance]
@[simp] theorem advance_seq (s : State) : (advance s).seq = s.seq := by simp [advance]
@[simp] theorem advance_rsp (s : State) : (advance s).rsp = s.rsp := by simp [advance]
@[simp] theorem advance_waiting (s : State) : (advance s).waiting = s.waiting := by simp [advance]
@[simp] theorem advance_panel (s : State) : (advance s).panel = s.panel := by simp [advance]
@[simp] theorem advance_traceRev (s : State) : (advance s).traceRev = s.traceRev := by simp [advance]
@[simp] theorem advance_completionsRev (s : State) : (advance s).completionsRev = s.completionsRev := by simp [advance]
@[simp] theorem advance_script (s : State) : (advance s).script = s.script := by simp [advance]
@[simp] theorem advance_draws (s : State) : (advance s).draws = s.draws := by simp [advance]

@[simp] theorem driveRst_cfg (v : Bool) (s : State) : (driveRst v s).cfg = s.cfg := by
  unfold driveRst; split <;> rfl
@[simp] theorem driveRst_fb (v : Bool) (s : State) : (driveRst v s).fb = s.fb := by
  unfold driveRst; split <;> rfl
@[simp] theorem driveRst_ctrl (v : Bool) (s : State) : (driveRst v s).ctrl = s.ctrl := by
  unfold driveRst; split <;> rfl
@[simp] theorem driveRst_seq (v : Bool) (s : State) : (driveRst v s).seq = s.seq := by
  unfold driveRst; split <;> rfl
@[simp] theorem driveRst_rsp (v : Bool) (s : State) : (driveRst v s).rsp = s.rsp := by
  unfold driveRst; split <;> rfl
@[simp] theorem driveRst_engine (v : Bool) (s : State) : (driveRst v s).engine = s.engine := by
  unfold driveRst; split <;> rfl
@[simp] theorem driveRst_waiting (v : Bool) (s : State) : (driveRst v s).waiting = s.waiting := by
  unfold driveRst; split <;> rfl
@[simp] theorem driveRst_traceRev (v : Bool) (s : State) : (driveRst v s).traceRev = s.traceRev := by
  unfold driveRst; split <;> rfl
@[simp] theorem driveRst_completionsRev (v : Bool) (s : State) : (driveRst v s).completionsRev = s.completionsRev := by
  unfold driveRst; split <;> rfl
@[simp] theorem driveRst_script (v : Bool) (s : State) : (driveRst v s).script = s.script := by
  unfold driveRst; split <;> rfl
@[simp] theorem driveRst_draws_status (v : Bool) (s : State) : (driveRst v s).draws.status = s.draws.status := by
  unfold driveRst; split <;> rfl
@[simp] theorem driveRst_draws_wait (v : Bool) (s : State) : (driveRst v s).draws.wait = s.draws.wait := by
  unfold driveRst; split <;> rfl
@[simp] theorem driveRst_draws_cut (v : Bool) (s : State) : (driveRst v s).draws.cut = s.draws.cut := by
  unfold driveRst; split <;> rfl
@[simp] theorem driveRst_draws_seq (v : Bool) (s : State) : (driveRst v s).draws.seq = s.draws.seq := by
  unfold driveRst; split <;> rfl

@[simp] theorem onLines_cfg (f : Lines → Lines) (s : State) : (onLines f s).cfg = s.cfg := rfl
@[simp] theorem onLines_fb (f : Lines → Lines) (s : State) : (onLines f s).fb = s.fb := rfl
@[simp] theorem onLines_ctrl (f : Lines → Lines) (s : State) : (onLines f s).ctrl = s.ctrl := rfl
@[simp] theorem onLines_seq (f : Lines → Lines) (s : State) : (onLines f s).seq = s.seq := rfl
@[simp] theorem onLines_rsp (f : Lines → Lines) (s : State) : (onLines f s).rsp = s.rsp := rfl
@[simp] theorem onLines_engine (f : Lines → Lines) (s : State) : (onLines f s).engine = s.engine := rfl
@[simp] theorem onLines_waiting (f : Lines → Lines) (s : State) : (onLines f s).waiting = s.waiting := rfl
@[simp] theorem onLines_panel (f : Lines → Lines) (s : State) : (onLines f s).panel = s.panel := rfl
@[simp] theorem onLines_traceRev (f : Lines → Lines) (s : State) : (onLines f s).traceRev = s.traceRev := rfl
@[simp] theorem onLines_completionsRev (f : Lines → Lines) (s : State) : (onLines f s).completionsRev = s.completionsRev := rfl
@[simp] theorem onLines_script (f : Lines → Lines) (s : State) : (onLines f s).script = s.script := rfl
@[simp] theorem onLines_draws (f : Lines → Lines) (s : State) : (onLines f s).draws = s.draws := rfl

@[simp] theorem onSeq_cfg (f : Seq → Seq) (s : State) : (onSeq f s).cfg = s.cfg := rfl
@[simp] theorem onSeq_fb (f : Seq → Seq) (s : State) : (onSeq f s).fb = s.fb := rfl
@[simp] theorem onSeq_ctrl (f : Seq → Seq) (s : State) : (onSeq f s).ctrl = s.ctrl := rfl
@[simp] theorem onSeq_lines (f : Seq → Seq) (s : State) : (onSeq f s).lines = s.lines := rfl
@[simp] theorem onSeq_rsp (f : Seq → Seq) (s : State) : (onSeq f s).rsp = s.rsp := rfl
@[simp] theorem onSeq_engine (f : Seq → Seq) (s : State) : (onSeq f s).engine = s.engine := rfl
@[simp] theorem onSeq_waiting (f : Seq → Seq) (s : State) : (onSeq f s).waiting = s.waiting := rfl
@[simp] theorem onSeq_panel (f : Seq → Seq) (s : State) : (onSeq f s).panel = s.panel := rfl
@[simp] theorem onSeq_traceRev (f : Seq → Seq) (s : State) : (onSeq f s).traceRev = s.traceRev := rfl
@[simp] theorem onSeq_completionsRev (f : Seq → Seq) (s : State) : (onSeq f s).completionsRev = s.completionsRev := rfl
@[simp] theorem onSeq_script (f : Seq → Seq) (s : State) : (onSeq f s).script = s.script := rfl
@[simp] theorem onSeq_draws (f : Seq → Seq) (s : State) : (onSeq f s).draws = s.draws := rfl

@[simp] theorem onCtrl_cfg (f : Ctrl → Ctrl) (s : State) : (onCtrl f s).cfg = s.cfg := rfl
@[simp] theorem onCtrl_fb (f : Ctrl → Ctrl) (s : State) : (onCtrl f s).fb = s.fb := rfl
@[simp] theorem onCtrl_lines (f : Ctrl → Ctrl) (s : State) : (onCtrl f s).lines = s.lines := rfl
@[simp] theorem onCtrl_seq (f : Ctrl → Ctrl) (s : State) : (onCtrl f s).seq = s.seq := rfl
@[simp] theorem onCtrl_rsp (f : Ctrl → Ctrl) (s : State) : (onCtrl f s).rsp = s.rsp := rfl
@[simp] theorem onCtrl_engine (f : Ctrl → Ctrl) (s : State) : (onCtrl f s).engine = s.engine := rfl
@[simp] theorem onCtrl_waiting (f : Ctrl → Ctrl) (s : State) : (onCtrl f s).waiting = s.waiting := rfl
@[simp] theorem onCtrl_panel (f : Ctrl → Ctrl) (s : State) : (onCtrl f s).panel = s.panel := rfl
@[simp] theorem onCtrl_traceRev (f : Ctrl → Ctrl) (s : State) : (onCtrl f s).traceRev = s.traceRev := rfl
@[simp] theorem onCtrl_completionsRev (f : Ctrl → Ctrl) (s : State) : (onCtrl f s).completionsRev = s.completionsRev := rfl
@[simp] theorem onCtrl_script (f : Ctrl → Ctrl) (s : State) : (onCtrl f s).script = s.script := rfl
@[simp] theorem onCtrl_draws (f : Ctrl → Ctrl) (s : State) : (onCtrl f s).draws = s.draws := rfl

@[simp] theorem drawWait_cfg (s : State) : (drawWait s).cfg = s.cfg := rfl
@[simp] theorem drawWait_fb (s : State) : (drawWait s).fb = s.fb := rfl
@[simp] theorem drawWait_ctrl (s : State) : (drawWait s).ctrl = s.ctrl := rfl
@[simp] theorem drawWait_lines (s : State) : (drawWait s).lines = s.lines := rfl
@[simp] theorem drawWait_seq (s : State) : (drawWait s).seq = s.seq := rfl
@[simp] theorem drawWait_rsp (s : State) : (drawWait s).rsp = s.rsp := rfl
@[simp] theorem drawWait_engine (s : State) : (drawWait s).engine = s.engine := rfl
@[simp] theorem drawWait_waiting (s : State) : (drawWait s).waiting = s.waiting := rfl
@[simp] theorem drawWait_panel (s : State) : (drawWait s).panel = s.panel := rfl
@[simp] theorem drawWait_traceRev (s : State) : (drawWait s).traceRev = s.traceRev := rfl
@[simp] theorem drawWait_completionsRev (s : State) : (drawWait s).completionsRev = s.completionsRev := rfl
@[simp] theorem drawWait_script (s : State) : (drawWait s).script = s.script := rfl
@[simp] theorem drawWait_draws_status (s : State) : (drawWait s).draws.status = s.draws.status := rfl
@[simp] theorem drawWait_draws_panel (s : State) : (drawWait s).draws.panel = s.draws.panel := rfl
@[simp] theorem drawWait_draws_cut (s : State) : (drawWait s).draws.cut = s.draws.cut := rfl
@[simp] theorem drawWait_draws_seq (s : State) : (drawWait s).draws.seq = s.draws.seq := rfl

@[simp] theorem drawStatus_cfg (s : State) : (drawStatus s).cfg = s.cfg := rfl
@[simp] theorem drawStatus_fb (s : State) : (drawStatus s).fb = s.fb := rfl
@[simp] theorem drawStatus_ctrl (s : State) : (drawStatus s).ctrl = s.ctrl := rfl
@[simp] theorem drawStatus_lines (s : State) : (drawStatus s).lines = s.lines := rfl
@[simp] theorem drawStatus_seq (s : State) : (drawStatus s).seq = s.seq := rfl
@[simp] theorem drawStatus_rsp (s : State) : (drawStatus s).rsp = s.rsp := rfl
@[simp] theorem drawStatus_engine (s : State) : (drawStatus s).engine = s.engine := rfl
@[simp] theorem drawStatus_waiting (s : State) : (drawStatus s).waiting = s.waiting := rfl
@[simp] theorem drawStatus_panel (s : State) : (drawStatus s).panel = s.panel := rfl
@[simp] theorem drawStatus_traceRev (s : State) : (drawStatus s).traceRev = s.traceRev := rfl
@[simp] theorem drawStatus_completionsRev (s : State) : (drawStatus s).completionsRev = s.completionsRev := rfl
@[simp] theorem drawStatus_script (s : State) : (drawStatus s).script = s.script := rfl
@[simp] theorem drawStatus_draws_wait (s : State) : (drawStatus s).draws.wait = s.draws.wait := rfl
@[simp] theorem drawStatus_draws_panel (s : State) : (drawStatus s).draws.panel = s.draws.panel := rfl
@[simp] theorem drawStatus_draws_cut (s : State) : (drawStatus s).draws.cut = s.draws.cut := rfl
@[simp] theorem drawStatus_draws_seq (s : State) : (drawStatus s).draws.seq = s.draws.seq := rfl

@[simp] theorem seqDone_cfg (s : State) : (seqDone s).cfg = s.cfg := rfl
@[simp] theorem seqDone_fb (s : State) : (seqDone s).fb = s.fb := rfl
@[simp] theorem seqDone_ctrl (s : State) : (seqDone s).ctrl = s.ctrl := rfl
@[simp] theorem seqDone_lines (s : State) : (seqDone s).lines = s.lines := rfl
@[simp] theorem seqDone_rsp (s : State) : (seqDone s).rsp = s.rsp := rfl
@[simp] theorem seqDone_engine (s : State) : (seqDone s).engine = s.engine := rfl
@[simp] theorem seqDone_waiting (s : State) : (seqDone s).waiting = s.waiting := rfl
@[simp] theorem seqDone_panel (s : State) : (seqDone s).panel = s.panel := rfl
@[simp] theorem seqDone_traceRev (s : State) : (seqDone s).traceRev = s.traceRev := rfl
@[simp] theorem seqDone_completionsRev (s : State) : (seqDone s).completionsRev = s.completionsRev := rfl
@[simp] theorem seqDone_script (s : State) : (seqDone s).script = s.script := rfl
@[simp] theorem seqDone_draws_status (s : State) : (seqDone s).draws.status = s.draws.status := rfl
@[simp] theorem seqDone_draws_wait (s : State) : (seqDone s).draws.wait = s.draws.wait := rfl
@[simp] theorem seqDone_draws_panel (s : State) : (seqDone s).draws.panel = s.draws.panel := rfl
@[simp] theorem seqDone_draws_cut (s : State) : (seqDone s).draws.cut = s.draws.cut := rfl

@[simp] theorem record_cfg (t : Tx) (s : State) : (record t s).cfg = s.cfg := rfl
@[simp] theorem record_fb (t : Tx) (s : State) : (record t s).fb = s.fb := rfl
@[simp] theorem record_ctrl (t : Tx) (s : State) : (record t s).ctrl = s.ctrl := rfl
@[simp] theorem record_lines (t : Tx) (s : State) : (record t s).lines = s.lines := rfl
@[simp] theorem record_seq (t : Tx) (s : State) : (record t s).seq = s.seq := rfl
@[simp] theorem record_rsp (t : Tx) (s : State) : (record t s).rsp = s.rsp := rfl
@[simp] theorem record_engine (t : Tx) (s : State) : (record t s).engine = s.engine := rfl
@[simp] theorem record_waiting (t : Tx) (s : State) : (record t s).waiting = s.waiting := rfl
@[simp] theorem record_panel (t : Tx) (s : State) : (record t s).panel = s.panel := rfl
@[simp] theorem record_completionsRev (t : Tx) (s : State) : (record t s).completionsRev = s.completionsRev := rfl
@[simp] theorem record_script (t : Tx) (s : State) : (record t s).script = s.script := rfl
@[simp] theorem record_draws (t : Tx) (s : State) : (record t s).draws = s.draws := rfl

@[simp] theorem enFall_cfg (s : State) : (enFall s).cfg = s.cfg := by simp [enFall]
@[simp] theorem enFall_fb (s : State) : (enFall s).fb = s.fb := by simp [enFall]
@[simp] theorem enFall_ctrl (s : State) : (enFall s).ctrl = s.ctrl := by simp [enFall]
@[simp] theorem enFall_seq (s : State) : (enFall s).seq = s.seq := by simp [enFall]
@[simp] theorem enFall_rsp (s : State) : (enFall s).rsp = s.rsp := by simp [enFall]
@[simp] theorem enFall_engine (s : State) : (enFall s).engine = s.engine := by simp [enFall]
@[simp] theorem enFall_waiting (s : State) : (enFall s).waiting = s.waiting := by simp [enFall]
@[simp] theorem enFall_completionsRev (s : State) : (enFall s).completionsRev = s.completionsRev := by simp [enFall]
@[simp] theorem enFall_script (s : State) : (enFall s).script = s.script := by simp [enFall]
@[simp] theorem enFall_draws_status (s : State) : (enFall s).draws.status = s.draws.status := by simp [enFall]
@[simp] theorem enFall_draws_wait (s : State) : (enFall s).draws.wait = s.draws.wait := by simp [enFall]
@[simp] theorem enFall_draws_cut (s : State) : (enFall s).draws.cut = s.draws.cut := by simp [enFall]
@[simp] theorem enFall_draws_seq (s : State) : (enFall s).draws.seq = s.draws.seq := by simp [enFall]

@[simp] theorem sampleDb_cfg (s : State) : (sampleDb s).cfg = s.cfg := by simp [sampleDb]
@[simp] theorem sampleDb_fb (s : State) : (sampleDb s).fb = s.fb := by simp [sampleDb]
@[simp] theorem sampleDb_ctrl (s : State) : (sampleDb s).ctrl = s.ctrl := by simp [sampleDb]
@[simp] theorem sampleDb_lines (s : State) : (sampleDb s).lines = s.lines := by simp [sampleDb]
@[simp] theorem sampleDb_seq (s : State) : (sampleDb s).seq = s.seq := by simp [sampleDb]
@[simp] theorem sampleDb_rsp (s : State) : (sampleDb s).rsp = s.rsp := by simp [sampleDb]
@[simp] theorem sampleDb_waiting (s : State) : (sampleDb s).waiting = s.waiting := by simp [sampleDb]
@[simp] theorem sampleDb_panel (s : State) : (sampleDb s).panel = s.panel := by simp [sampleDb]
@[simp] theorem sampleDb_traceRev (s : State) : (sampleDb s).traceRev = s.traceRev := by simp [sampleDb]
@[simp] theorem sampleDb_completionsRev (s : State) : (sampleDb s).completionsRev = s.completionsRev := by simp [sampleDb]
@[simp] theorem sampleDb_script (s : State) : (sampleDb s).script = s.script := by simp [sampleDb]
@[simp] theorem sampleDb_draws_wait (s : State) : (sampleDb s).draws.wait = s.draws.wait := by simp [sampleDb]
@[simp] theorem sampleDb_draws_panel (s : State) : (sampleDb s).draws.panel = s.draws.panel := by simp [sampleDb]
@[simp] theorem sampleDb_draws_cut (s : State) : (sampleDb s).draws.cut = s.draws.cut := by simp [sampleDb]
@[simp] theorem sampleDb_draws_seq (s : State) : (sampleDb s).draws.seq = s.draws.seq := by simp [sampleDb]

@[simp] theorem restoreDb_cfg (s : State) : (restoreDb s).cfg = s.cfg := rfl
@[simp] theorem restoreDb_fb (s : State) : (restoreDb s).fb = s.fb := rfl
@[simp] theorem restoreDb_ctrl (s : State) : (restoreDb s).ctrl = s.ctrl := rfl
@[simp] theorem restoreDb_seq (s : State) : (restoreDb s).seq = s.seq := rfl
@[simp] theorem restoreDb_rsp (s : State) : (restoreDb s).rsp = s.rsp := rfl
@[simp] theorem restoreDb_engine (s : State) : (restoreDb s).engine = s.engine := rfl
@[simp] theorem restoreDb_waiting (s : State) : (restoreDb s).waiting = s.waiting := rfl
@[simp] theorem restoreDb_panel (s : State) : (restoreDb s).panel = s.panel := rfl
@[simp] theorem restoreDb_traceRev (s : State) : (restoreDb s).traceRev = s.traceRev := rfl
@[simp] theorem restoreDb_completionsRev (s : State) : (restoreDb s).completionsRev = s.completionsRev := rfl
@[simp] theorem restoreDb_script (s : State) : (restoreDb s).script = s.script := rfl
@[simp] theorem restoreDb_draws_wait (s : State) : (restoreDb s).draws.wait = s.draws.wait := rfl
@[simp] theorem restoreDb_draws_panel (s : State) : (restoreDb s).draws.panel = s.draws.panel := rfl
@[simp] theorem restoreDb_draws_cut (s : State) : (restoreDb s).draws.cut = s.draws.cut := rfl
@[simp] theorem restoreDb_draws_seq (s : State) : (restoreDb s).draws.seq = s.draws.seq := rfl

@[simp] theorem complete_cfg (d : Byte) (e : Bool) (s : State) : (complete d e s).cfg = s.cfg := rfl
@[simp] theorem complete_fb (d : Byte) (e : Bool) (s : State) : (complete d e s).fb = s.fb := rfl
@[simp] theorem complete_ctrl (d : Byte) (e : Bool) (s : State) : (complete d e s).ctrl = s.ctrl := rfl
@[simp] theorem complete_lines (d : Byte) (e : Bool) (s : State) : (complete d e s).lines = s.lines := rfl
@[simp] theorem complete_seq (d : Byte) (e : Bool) (s : State) : (complete d e s).seq = s.seq := rfl
@[simp] theorem complete_panel (d : Byte) (e : Bool) (s : State) : (complete d e s).panel = s.panel := rfl
@[simp] theorem complete_traceRev (d : Byte) (e : Bool) (s : State) : (complete d e s).traceRev = s.traceRev := rfl
@[simp] theorem complete_script (d : Byte) (e : Bool) (s : State) : (complete d e s).script = s.script := rfl
@[simp] theorem complete_draws (d : Byte) (e : Bool) (s : State) : (complete d e s).draws = s.draws := rfl

@[simp] theorem raiseError_cfg (e : ErrCode) (s : State) : (raiseError e s).cfg = s.cfg := rfl
@[simp] theorem raiseError_fb (e : ErrCode) (s : State) : (raiseError e s).fb = s.fb := rfl
@[simp] theorem raiseError_lines (e : ErrCode) (s : State) : (raiseError e s).lines = s.lines := rfl
@[simp] theorem raiseError_seq (e : ErrCode) (s : State) : (raiseError e s).seq = s.seq := rfl
@[simp] theorem raiseError_panel (e : ErrCode) (s : State) : (raiseError e s).panel = s.panel := rfl
@[simp] theorem raiseError_traceRev (e : ErrCode) (s : State) : (raiseError e s).traceRev = s.traceRev := rfl
@[simp] theorem raiseError_script (e : ErrCode) (s : State) : (raiseError e s).script = s.script := rfl
@[simp] theorem raiseError_draws (e : ErrCode) (s : State) : (raiseError e s).draws = s.draws := rfl

@[simp] theorem accept_cfg (i : Instr) (s : State) : (accept i s).cfg = s.cfg := rfl
@[simp] theorem accept_fb (i : Instr) (s : State) : (accept i s).fb = s.fb := rfl
@[simp] theorem accept_ctrl (i : Instr) (s : State) : (accept i s).ctrl = s.ctrl := rfl
@[simp] theorem accept_lines (i : Instr) (s : State) : (accept i s).lines = s.lines := rfl
@[simp] theorem accept_seq (i : Instr) (s : State) : (accept i s).seq = s.seq := rfl
@[simp] theorem accept_rsp (i : Instr) (s : State) : (accept i s).rsp = s.rsp := rfl
@[simp] theorem accept_panel (i : Instr) (s : State) : (accept i s).panel = s.panel := rfl
@[simp] theorem accept_traceRev (i : Instr) (s : State) : (accept i s).traceRev = s.traceRev := rfl
@[simp] theorem accept_completionsRev (i : Instr) (s : State) : (accept i s).completionsRev = s.completionsRev := rfl
@[simp] theorem accept_script (i : Instr) (s : State) : (accept i s).script = s.script := rfl
@[simp] theorem accept_draws (i : Instr) (s : State) : (accept i s).draws = s.draws := rfl

/-! ### What each operation writes -/

@[simp] theorem complete_rsp (d : Byte) (e : Bool) (s : State) : (complete d e s).rsp = ⟨d, e⟩ := rfl
@[simp] theorem complete_engine (d : Byte) (e : Bool) (s : State) : (complete d e s).engine = .idle := rfl
@[simp] theorem complete_completionsRev (d : Byte) (e : Bool) (s : State) :
    (complete d e s).completionsRev = ⟨d, e⟩ :: s.completionsRev := rfl
@[simp] theorem complete_waiting (d : Byte) (e : Bool) (s : State) : (complete d e s).waiting = none := rfl
@[simp] theorem raiseError_waiting (e : ErrCode) (s : State) : (raiseError e s).waiting = none := rfl
@[simp] theorem raiseError_rsp (e : ErrCode) (s : State) : (raiseError e s).rsp = ⟨0x00, true⟩ := rfl
@[simp] theorem raiseError_engine (e : ErrCode) (s : State) : (raiseError e s).engine = .idle := rfl
@[simp] theorem raiseError_completionsRev (e : ErrCode) (s : State) :
    (raiseError e s).completionsRev = ⟨0x00, true⟩ :: s.completionsRev := rfl
@[simp] theorem raiseError_ctrl (e : ErrCode) (s : State) : (raiseError e s).ctrl = recordError e s.ctrl := rfl
@[simp] theorem accept_engine (i : Instr) (s : State) : (accept i s).engine = .busy ⟨i, 0, none⟩ := rfl
@[simp] theorem accept_waiting (i : Instr) (s : State) : (accept i s).waiting = none := rfl
@[simp] theorem fbWrite_fb (a : Nat) (v : Byte) (s : State) : (fbWrite a v s).fb = s.fb.write a v := rfl
@[simp] theorem fbFill_fb (v : Byte) (s : State) : (fbFill v s).fb = s.fb.fill fbBytes v := by simp only [fbFill]
@[simp] theorem onSelected_panel (f : Chip → Chip) (s : State) :
    (onSelected f s).panel = s.panel.onReached s.cfg.noneSelected s.lines.cs (fun _ => f) := rfl
@[simp] theorem onLines_lines (f : Lines → Lines) (s : State) : (onLines f s).lines = f s.lines := rfl
@[simp] theorem onSeq_seq (f : Seq → Seq) (s : State) : (onSeq f s).seq = f s.seq := rfl
@[simp] theorem onCtrl_ctrl (f : Ctrl → Ctrl) (s : State) : (onCtrl f s).ctrl = f s.ctrl := rfl
@[simp] theorem drawWait_draws_wait (s : State) : (drawWait s).draws.wait = s.draws.wait + 1 := rfl
@[simp] theorem drawStatus_draws_status (s : State) : (drawStatus s).draws.status = s.draws.status + 1 := rfl
@[simp] theorem seqDone_seq (s : State) : (seqDone s).seq = Seq.drawn s.draws.seq := rfl
@[simp] theorem seqDone_draws_seq (s : State) : (seqDone s).draws.seq = s.draws.seq + 1 := rfl
@[simp] theorem record_traceRev (t : Tx) (s : State) : (record t s).traceRev = t :: s.traceRev := rfl
@[simp] theorem enFall_lines (s : State) : (enFall s).lines = { s.lines with en := false } := by simp [enFall]
@[simp] theorem enFall_traceRev (s : State) : (enFall s).traceRev = txNow (txByte s) s :: s.traceRev := by
  simp [enFall]
@[simp] theorem driveRst_lines (v : Bool) (s : State) : (driveRst v s).lines = { s.lines with rst := v } := by
  unfold driveRst; split <;> rfl
@[simp] theorem enFall_panel (s : State) : (enFall s).panel = (panelLatch (txByte s) s).panel := rfl
@[simp] theorem enFall_draws_panel (s : State) :
    (enFall s).draws.panel = (panelLatch (txByte s) s).draws.panel := rfl
@[simp] theorem sampleDb_draws_status (s : State) : (sampleDb s).draws.status = s.draws.status + 1 := by
  simp [sampleDb]
@[simp] theorem restoreDb_lines (s : State) : (restoreDb s).lines = { s.lines with dbOe := true } := rfl
@[simp] theorem restoreDb_draws_status (s : State) : (restoreDb s).draws.status = s.draws.status + 1 := rfl
@[simp] theorem onProgress_idle (f : InProgress → InProgress) (s : State) (h : s.engine = .idle) :
    onProgress f s = s := by simp [onProgress, h]
theorem onProgress_busy (f : InProgress → InProgress) (s : State) (p : InProgress) (h : s.engine = .busy p) :
    onProgress f s = { s with engine := .busy (f p) } := by simp [onProgress, h]
theorem onProgress_engine_busy (f : InProgress → InProgress) (s : State) (p : InProgress) (h : s.engine = .busy p) :
    (onProgress f s).engine = .busy (f p) := by simp [onProgress, h]

end Sys2Proof.Machine
end

