-- ==== Sys2Proof/Laws/Memory.lean ====
section
/-! SUPPORT. Byte memories: what a read finds after a write or a fill, and that writes and fills keep the canonical form. -/

namespace Sys2Proof.Machine

/-! ### Reading after writing -/

theorem cellsFind_cellsWrite (m : List Host.Cell) (a b : Nat) (v : Byte) :
    cellsFind (cellsWrite m a v) b = if b = a then some v else cellsFind m b := by
  induction m with
  | nil => rfl
  | cons e rest ih =>
    obtain ⟨c, w⟩ := e
    simp only [cellsWrite]
    split
    · by_cases hb : b = a <;> simp [cellsFind, hb]
    · split
      · subst c
        by_cases hb : b = a <;> simp [cellsFind, hb]
      · by_cases hb : b = c
        · subst hb
          have : ¬ b = a := fun h => by omega
          simp [cellsFind, this]
        · simp [cellsFind, hb, ih]

theorem cellsFind_cellsFill (v : Byte) (n a b : Nat) :
    cellsFind (cellsFill a v n) b = if a ≤ b ∧ b < a + n then some v else none := by
  induction n generalizing a with
  | zero => simp [cellsFill, cellsFind]
  | succ n ih =>
    simp only [cellsFill, cellsFind, ih]
    by_cases h : b = a
    · subst h; simp
    · by_cases h' : a ≤ b ∧ b < a + (n + 1)
      · rw [if_neg h, if_pos h', if_pos (by omega)]
      · rw [if_neg h, if_neg h', if_neg (by omega)]

@[simp] theorem Bank.write_draw (b : Bank) (a : Nat) (v : Byte) : (b.write a v).draw = b.draw := rfl
@[simp] theorem Bank.fill_draw (b : Bank) (n : Nat) (v : Byte) : (b.fill n v).draw = b.draw := rfl

/-- A framebuffer byte after one byte is written (20_memory R58). -/
theorem fbRead_fbWrite (a b : Nat) (v : Byte) (s : State) :
    fbRead (fbWrite a v s) b = if b = a then v else fbRead s b := by
  simp only [fbRead, fbWrite_fb, Bank.write, cellsFind_cellsWrite]
  split <;> rfl

/-- A framebuffer byte after a fill (42_host_port R122). -/
theorem fbRead_fbFill (b : Nat) (v : Byte) (s : State) (h : b < 1536) : fbRead (fbFill v s) b = v := by
  simp [fbRead, Bank.fill, cellsFind_cellsFill, fbBytes, h]

/-- The framebuffer read depends on the framebuffer alone. -/
theorem fbRead_congr {s t : State} (h : s.fb = t.fb) (a : Nat) : fbRead s a = fbRead t a := by
  simp [fbRead, h]

/-- The source byte depends on the framebuffer and the orientation flag alone. -/
theorem src_congr {s t : State} (h : s.fb = t.fb) (hc : s.ctrl = t.ctrl) (k p c : Nat) : src s k p c = src t k p c := by
  simp [src, fbRead_congr h, hc]

/-! ### The canonical form -/

theorem cellsRise_mono {lo lo' hi : Nat} (h : lo' ≤ lo) {m : List Host.Cell} (hm : cellsRise lo hi m = true) :
    cellsRise lo' hi m = true := by
  cases m with
  | nil => rfl
  | cons e rest =>
    simp only [cellsRise, Bool.and_eq_true, decide_eq_true_eq] at *
    exact ⟨⟨Nat.le_trans h hm.1.1, hm.1.2⟩, hm.2⟩

theorem cellsRise_cellsWrite {lo hi : Nat} {m : List Host.Cell} (hm : cellsRise lo hi m = true) {a : Nat}
    (hlo : lo ≤ a) (hhi : a < hi) (v : Byte) : cellsRise lo hi (cellsWrite m a v) = true := by
  induction m generalizing lo with
  | nil => simp [cellsWrite, cellsRise, hlo, hhi]
  | cons e rest ih =>
    obtain ⟨c, w⟩ := e
    simp only [cellsRise, Bool.and_eq_true, decide_eq_true_eq] at hm
    obtain ⟨⟨h1, h2⟩, h3⟩ := hm
    simp only [cellsWrite]
    split
    · simp only [cellsRise, Bool.and_eq_true, decide_eq_true_eq]
      exact ⟨⟨hlo, hhi⟩, ⟨by omega, h2⟩, h3⟩
    · split
      · subst c
        simp only [cellsRise, Bool.and_eq_true, decide_eq_true_eq]
        exact ⟨⟨h1, h2⟩, h3⟩
      · simp only [cellsRise, Bool.and_eq_true, decide_eq_true_eq]
        exact ⟨⟨h1, h2⟩, ih h3 (by omega)⟩

theorem cellsRise_cellsFill (v : Byte) {n a hi : Nat} (h : a + n ≤ hi) : cellsRise a hi (cellsFill a v n) = true := by
  induction n generalizing a with
  | zero => rfl
  | succ n ih =>
    simp only [cellsFill, cellsRise, Bool.and_eq_true, decide_eq_true_eq]
    exact ⟨⟨by omega, by omega⟩, ih (by omega)⟩

theorem Bank.wf_write {n a : Nat} {b : Bank} (hb : b.wf n = true) (ha : a < n) (v : Byte) : (b.write a v).wf n = true :=
  cellsRise_cellsWrite hb (Nat.zero_le a) ha v

theorem Bank.wf_fill (n : Nat) (v : Byte) (b : Bank) : (b.fill n v).wf n = true :=
  cellsRise_cellsFill v (by omega)

@[simp] theorem Bank.wf_empty (n k : Nat) : (Bank.mk [] k).wf n = true := rfl

theorem cellAddr_lt (page : BitVec 3) (col : BitVec 6) : cellAddr page col < 512 := by
  have := page.isLt; have := col.isLt; simp only [cellAddr]; omega

/-- Different cells have different addresses. -/
theorem cellAddr_inj {p q : BitVec 3} {c d : BitVec 6} (h : cellAddr p c = cellAddr q d) : p = q ∧ c = d := by
  have hc := c.isLt; have hd := d.isLt
  simp only [cellAddr] at h
  exact ⟨BitVec.eq_of_toNat_eq (by omega), BitVec.eq_of_toNat_eq (by omega)⟩

/-! ### The cells of a chip -/

/-- A cell of a chip after a data byte (20_memory R62). -/
theorem Chip.cell_data (b : Byte) (c : Chip) (p : BitVec 3) (k : BitVec 6) :
    (c.data b).cell p k = if p = c.page ∧ k = c.col then b else c.cell p k := by
  simp only [Chip.cell, Chip.data, Bank.write, cellsFind_cellsWrite]
  by_cases h : p = c.page ∧ k = c.col
  · obtain ⟨rfl, rfl⟩ := h
    simp
  · have : ¬ cellAddr p k = cellAddr c.page c.col := fun e => h (cellAddr_inj e)
    simp [h, this]

end Sys2Proof.Machine
end

