-- ==== Sys2Proof/Laws/Ops.lean ====
section
/-! SUPPORT. What the shared operations do: the panel's latch, the line helpers as runs of engine steps, and carrying a request out. -/

namespace Sys2Proof.Machine

/-! ### Runs of steps -/

@[simp] theorem runOps_nil (s : State) : runOps [] s = s := rfl
@[simp] theorem runOps_cons (op : MicroOp) (ops : List MicroOp) (s : State) :
    runOps (op :: ops) s = runOps ops (stepOp s op) := rfl
theorem runOps_append (xs ys : List MicroOp) (s : State) : runOps (xs ++ ys) s = runOps ys (runOps xs s) := by
  simp [runOps, List.foldl_append]

/-- The last step of a request completes it; the position is gone with it. -/
@[simp] theorem stepOp_complete (a : Answer) (s : State) :
    stepOp s (.complete a) = complete (answerByte a s) false s := by
  exact onProgress_idle (fun p => { p with pos := p.pos + 1 }) _ (complete_engine (answerByte a s) false s)

/-- A request's pseudocode ends by completing. -/
theorem runOps_complete (ops : List MicroOp) (a : Answer) (s : State) :
    runOps (ops ++ [.complete a]) s = complete (answerByte a (runOps ops s)) false (runOps ops s) := by
  rw [runOps_append, runOps_cons, runOps_nil, stepOp_complete]

/-- An invariant carried through a counted loop of pseudocode. -/
theorem runOps_range {P : Nat → State → Prop} (n : Nat) (f : Nat → List MicroOp) (s : State) (h0 : P 0 s)
    (hs : ∀ k, k < n → ∀ t, P k t → P (k + 1) (runOps (f k) t)) : P n (runOps ((List.range n).flatMap f) s) := by
  induction n with
  | zero => simpa using h0
  | succ n ih =>
    rw [List.range_succ, List.flatMap_append, runOps_append]
    simp only [List.flatMap_cons, List.flatMap_nil, List.append_nil]
    exact hs n (by omega) _ (ih (fun k hk => hs k (by omega)))

/-! ### The panel's latch -/

/-- The lines the panel looks at, and what it is: the latch depends on nothing else. -/
structure SamePanelView (s t : State) : Prop where
  codes : s.cfg = t.cfg
  panel : s.panel = t.panel
  draws : s.draws.panel = t.draws.panel
  rs    : s.lines.rs = t.lines.rs
  rw    : s.lines.rw = t.lines.rw
  cs    : s.lines.cs = t.lines.cs

theorem panelLatch_congr {s t : State} (h : SamePanelView s t) (b : Byte) :
    (panelLatch b s).panel = (panelLatch b t).panel ∧ (panelLatch b s).draws.panel = (panelLatch b t).draws.panel := by
  obtain ⟨h1, h2, h3, h4, h5, h6⟩ := h
  unfold panelLatch panelCommand
  rw [h4, h5, h1]
  split
  · split <;> simp [displayOnEffect, setColumnEffect, setPageEffect, startLineEffect, onSelected, scrambleSelected, h1, h2, h3, h6]
  · simp [onSelected, h1, h2, h3, h6]
  · exact ⟨h2, h3⟩
  · simp [scrambleSelected, h1, h2, h3, h6]

/-! ### One bus write -/

/-- What a run of steps that only writes bytes to the bus leaves alone, and the transactions it adds. -/
structure Sent (s t : State) (txs : List Tx) : Prop where
  cfg            : t.cfg = s.cfg
  fb             : t.fb = s.fb
  ctrl           : t.ctrl = s.ctrl
  rsp            : t.rsp = s.rsp
  completionsRev : t.completionsRev = s.completionsRev
  script         : t.script = s.script
  waiting        : t.waiting = s.waiting
  rst            : t.lines.rst = s.lines.rst
  dbOe           : t.lines.dbOe = s.lines.dbOe
  status         : t.draws.status = s.draws.status
  cut            : t.draws.cut = s.draws.cut
  seqDraws       : t.draws.seq = s.draws.seq
  traceRev       : t.traceRev = txs.reverse ++ s.traceRev

theorem Sent.refl (s : State) : Sent s s [] := by constructor <;> simp

theorem Sent.trans {s t u : State} {xs ys : List Tx} (h : Sent s t xs) (k : Sent t u ys) : Sent s u (xs ++ ys) := by
  obtain ⟨a1, a2, a3, a4, a5, a6, a7, a8, a9, a10, a11, a12, a13⟩ := h
  obtain ⟨b1, b2, b3, b4, b5, b6, b7, b8, b9, b10, b11, b12, b13⟩ := k
  constructor <;> simp_all

theorem Sent.trace {s t : State} {txs : List Tx} (h : Sent s t txs) : t.trace = s.trace ++ txs := by
  simp [State.trace, h.traceRev]

/-- The lines at the moment a write strobes: `BusWrite` has driven RS, RW and DB (40_bus_interface R86). -/
def Lines.writing (rs : Bool) (b : Byte) (l : Lines) : Lines := { l with rs := rs, rw := false, dbOut := b }

theorem busWrite_sent (rs : Bool) (b : Byte) (s : State) :
    Sent s (runOps (busWriteOps rs b) s) [⟨rs, false, s.lines.cs, b⟩] := by
  constructor <;> simp [busWriteOps, strobeOps, stepOp, runOp, txNow, txByte, Lines.cs]

theorem busWrite_lines (rs : Bool) (b : Byte) (s : State) :
    (runOps (busWriteOps rs b) s).lines = { s.lines.writing rs b with en := false } := by
  simp [busWriteOps, strobeOps, stepOp, runOp, Lines.writing]

theorem busWrite_seq (rs : Bool) (b : Byte) (s : State) : (runOps (busWriteOps rs b) s).seq = s.seq := by
  simp [busWriteOps, strobeOps, stepOp, runOp]

@[simp] theorem onProgress_onProgress (f g : InProgress → InProgress) (s : State) :
    onProgress f (onProgress g s) = onProgress (fun p => f (g p)) s := by
  unfold onProgress; cases h : s.engine <;> simp [h]

theorem onProgress_engine_congr (f : InProgress → InProgress) {s t : State} (h : s.engine = t.engine) :
    (onProgress f s).engine = (onProgress f t).engine := by
  unfold onProgress; rw [h]; split <;> simp_all

theorem busWrite_panel (rs : Bool) (b : Byte) (s : State) :
    (runOps (busWriteOps rs b) s).panel = (panelLatch b (onLines (Lines.writing rs b) s)).panel := by
  simp only [busWriteOps, strobeOps, List.cons_append, List.nil_append, runOps_cons, runOps_nil, stepOp, runOp, advance_panel,
    enFall_panel, drawWait_panel]
  have hb : ∀ u : State, u.lines.rw = false → u.lines.dbOut = b → txByte u = b := fun u h1 h2 => by simp [txByte, h1, h2]
  rw [hb _ (by simp) (by simp)]
  exact (panelLatch_congr (by constructor <;> simp [Lines.writing, Lines.cs]) b).1

/-! ### One data byte of a refresh -/

theorem txByte_write {s : State} {b : Byte} (h : s.lines.rw = false) (hb : s.lines.dbOut = b) : txByte s = b := by
  simp [txByte, h, hb]

theorem dataByte_sent (s : State) (hrw : s.lines.rw = false) :
    Sent s (runOps dataByteOps s) [⟨s.lines.rs, false, s.lines.cs, srcAtSeq s⟩] := by
  constructor <;> simp [dataByteOps, strobeOps, stepOp, runOp, txNow, txByte, Lines.cs, hrw]

theorem dataByte_lines (s : State) :
    (runOps dataByteOps s).lines = { s.lines with dbOut := srcAtSeq s, en := false } := by
  simp [dataByteOps, strobeOps, stepOp, runOp]

theorem dataByte_seq (s : State) : (runOps dataByteOps s).seq = s.seq := by
  simp [dataByteOps, strobeOps, stepOp, runOp]

theorem dataByte_panel (s : State) (hrw : s.lines.rw = false) :
    (runOps dataByteOps s).panel = (panelLatch (srcAtSeq s) s).panel := by
  simp only [dataByteOps, strobeOps, runOps_cons, runOps_nil, stepOp, runOp, advance_panel, enFall_panel, drawWait_panel]
  rw [txByte_write (b := srcAtSeq s) (by simpa using hrw) (by simp)]
  exact (panelLatch_congr (by constructor <;> simp [Lines.cs]) _).1

/-! ### The status read and the panel reset -/

theorem busRead_lines (s : State) :
    (runOps busReadOps s).lines = { s.lines with rs := false, rw := true, en := false, dbOe := true } := by
  simp [busReadOps, stepOp, runOp]

theorem panelReset_lines (s : State) : (runOps panelResetOps s).lines = { s.lines with rst := true } := by
  simp [panelResetOps, stepOp, runOp]

/-! ### Carrying a request out -/

/-- Everything `carryOut` can answer. -/
theorem carryOut_cases (i : Instr) (c : Option ErrCode) (ops : List MicroOp) (s : State) :
    (∃ p, s.engine = .busy p ∧ carryOut i c ops s = .fault .engineBusy) ∨
    (s.engine = .idle ∧ ∃ e, c = some e ∧ carryOut i c ops s = .next (raiseError e (accept i s))) ∨
    (s.engine = .idle ∧ c = none ∧ carryOut i c ops s = .next (runOps ops (accept i s))) := by
  unfold carryOut
  cases s.engine <;> cases c <;> simp

theorem carryOut_idle (i : Instr) (ops : List MicroOp) {s : State} (h : s.engine = .idle) :
    carryOut i none ops s = .next (runOps ops (accept i s)) := by
  unfold carryOut; rw [h]

theorem carryOut_rejects (i : Instr) (e : ErrCode) (ops : List MicroOp) {s : State} (h : s.engine = .idle) :
    carryOut i (some e) ops s = .next (raiseError e (accept i s)) := by
  unfold carryOut; rw [h]

/-! ### Block reset and the panel -/

/-- Between strobes, with RST high, block reset leaves the panel alone (70_reset_and_hazards R147). -/
theorem panelAfterReset_rest {s : State} (he : s.lines.en = false) (hr : s.lines.rst = true) :
    panelAfterReset s = s.panel := by simp [panelAfterReset, he, hr]

/-- A reset pulse of full length that block reset ends leaves the power-on state (20_memory R63). -/
theorem panelAfterReset_full {s : State} (hr : s.lines.rst = false) (hf : resetPulseFull s = true) :
    panelAfterReset s = (panelPowerOn s).panel := by simp [panelAfterReset, hr, hf]

/-- The pulse is full where only the rise of RST is left. -/
theorem resetPulseFull_rise {s : State} {p : InProgress} (he : s.engine = .busy p) (hp : p.pos = 2) :
    resetPulseFull s = true := by simp [resetPulseFull, he, hp, panelResetOps]

end Sys2Proof.Machine
end

