-- ==== Sys2Proof/Laws/Refresh.lean ====
section
/-! SUPPORT. The refresh sequence (41_refresh_driver R105): the transactions it sends and what it leaves alone, loop by loop. -/

namespace Sys2Proof.Machine

/-- The chip selects of two line sets are the same. -/
structure SameSelect (l m : Lines) : Prop where
  cs1 : m.cs1 = l.cs1
  cs2 : m.cs2 = l.cs2
  cs3 : m.cs3 = l.cs3

theorem SameSelect.refl (l : Lines) : SameSelect l l := ⟨rfl, rfl, rfl⟩
theorem SameSelect.trans {l m n : Lines} (h : SameSelect l m) (k : SameSelect m n) : SameSelect l n :=
  ⟨k.1.trans h.1, k.2.trans h.2, k.3.trans h.3⟩
theorem SameSelect.cs {l m : Lines} (h : SameSelect l m) : m.cs = l.cs := by simp [Lines.cs, h.1, h.2, h.3]

/-- The source bytes are the same in two states that differ by bus writes. -/
theorem Sent.src {s t : State} {txs : List Tx} (h : Sent s t txs) (k p c : Nat) : Machine.src t k p c = Machine.src s k p c :=
  src_congr h.fb h.ctrl k p c

/-- After the first `n` data bytes of a page. -/
structure DataSent (chip page n : Nat) (s t : State) : Prop where
  sent : Sent s t ((List.range n).map (fun column => dataTx s.lines.cs (src s chip page column)))
  sel  : SameSelect s.lines t.lines
  rs   : t.lines.rs = true
  rw   : t.lines.rw = false
  en   : t.lines.en = false
  chip : t.seq.chip = s.seq.chip
  page : t.seq.page = s.seq.page

theorem seqCol_sent (c : BitVec 6) (s : State) : Sent s (stepOp s (.seqCol c)) [] := by
  constructor <;> simp [stepOp, runOp]

/-- The source byte at the sequencer, once its column has stepped on. -/
theorem DataSent.src_next {chip page n : Nat} {s t : State} (h : DataSent chip page n s t)
    (hc : s.seq.chip.toNat = chip) (hp : s.seq.page.toNat = page) (hn : n < 64) :
    srcAtSeq (stepOp t (.seqCol (BitVec.ofNat 6 n))) = src s chip page n := by
  have : (BitVec.ofNat 6 n).toNat = n := by simp; omega
  simp only [srcAtSeq, stepOp, runOp, advance_seq, onSeq_seq, h.chip, h.page, hc, hp, this]
  rw [← h.sent.src]
  exact src_congr (by simp) (by simp) _ _ _

theorem seqCol_lines (c : BitVec 6) (t : State) : (stepOp t (.seqCol c)).lines = t.lines := by simp [stepOp, runOp]

theorem DataSent.step {chip page n : Nat} {s t : State} (h : DataSent chip page n s t)
    (hc : s.seq.chip.toNat = chip) (hp : s.seq.page.toNat = page) (hn : n < 64) :
    DataSent chip page (n + 1) s (runOps (MicroOp.seqCol (BitVec.ofNat 6 n) :: dataByteOps) t) := by
  have hsent := dataByte_sent (stepOp t (.seqCol (BitVec.ofNat 6 n))) (by rw [seqCol_lines]; exact h.rw)
  have hl := dataByte_lines (stepOp t (.seqCol (BitVec.ofNat 6 n)))
  rw [seqCol_lines, h.src_next hc hp hn] at hl hsent
  rw [runOps_cons]
  refine ⟨?_, h.sel.trans (by rw [hl]; exact ⟨rfl, rfl, rfl⟩), by rw [hl]; exact h.rs, by rw [hl]; exact h.rw, by rw [hl],
    by rw [dataByte_seq]; simpa [stepOp, runOp] using h.chip, by rw [dataByte_seq]; simpa [stepOp, runOp] using h.page⟩
  have hs := (h.sent.trans (seqCol_sent (BitVec.ofNat 6 n) t)).trans hsent
  rw [List.append_nil] at hs
  rw [List.range_succ, List.map_append]
  simpa [dataTx, h.rs, h.sel.cs] using hs

theorem data_none (chip page : Nat) {s : State} (hrs : s.lines.rs = true) (hrw : s.lines.rw = false)
    (hen : s.lines.en = false) : DataSent chip page 0 s s :=
  ⟨by simpa using Sent.refl s, SameSelect.refl _, hrs, hrw, hen, rfl, rfl⟩

/-- The data bytes of a page, `n` of them. -/
def dataOps (n : Nat) : List MicroOp :=
  (List.range n).flatMap (fun col => MicroOp.seqCol (BitVec.ofNat 6 col) :: dataByteOps)

theorem data_loop {chip page : Nat} {s : State} (hc : s.seq.chip.toNat = chip) (hp : s.seq.page.toNat = page)
    (hrs : s.lines.rs = true) (hrw : s.lines.rw = false) (hen : s.lines.en = false) (n : Nat) (hn : n ≤ 64) :
    DataSent chip page n s (runOps (dataOps n) s) :=
  runOps_range (P := fun k t => DataSent chip page k s t) n _ s (data_none chip page hrs hrw hen)
    (fun k hk t ht => ht.step hc hp (by omega))

/-- What one page, and any number of pages, leave. -/
structure PagesSent (s t : State) (txs : List Tx) : Prop where
  sent : Sent s t txs
  sel  : SameSelect s.lines t.lines
  en   : t.lines.en = false
  chip : t.seq.chip = s.seq.chip

theorem page_sent {chip page : Nat} {s : State} (hc : s.seq.chip.toNat = chip) (hcs : s.lines.cs = csOf chip)
    (hp : page < 8) : PagesSent s (runOps (pageOps s.cfg page) s) (pageTrace s chip page) := by
  let s1 := stepOp s (.seqPage (BitVec.ofNat 3 page))
  let b := commandByte s.cfg.codes.setPage (BitVec.ofNat 3 page)
  let s2 := runOps (busWriteOps false b) s1
  let s3 := runOps [.driveRs true, .driveRw false] s2
  have e : runOps (pageOps s.cfg page) s =
      runOps (dataOps 64) s3 := by
    simp only [pageOps, cols, dataOps, List.cons_append, runOps_cons, runOps_append, s3, s2, s1, b, runOps_nil]
  have h1 : Sent s s1 [] := by constructor <;> simp [s1, stepOp, runOp]
  have l1 : s1.lines = s.lines := by simp [s1, stepOp, runOp]
  have h2 : Sent s1 s2 [⟨false, false, s.lines.cs, b⟩] := by
    have := busWrite_sent false b s1
    rwa [l1] at this
  have l2 : s2.lines = { s.lines.writing false b with en := false } := by
    rw [← l1]; exact busWrite_lines false b s1
  have h3 : Sent s2 s3 [] := by constructor <;> simp [s3, stepOp, runOp]
  have l3 : s3.lines = { s.lines.writing true b with en := false } := by
    simp [s3, stepOp, runOp, l2, Lines.writing]
  have q2 : s3.seq = s1.seq := by
    simp only [s3, runOps_cons, runOps_nil, stepOp, runOp, advance_seq, onLines_seq]
    exact busWrite_seq false b s1
  have q1 : s1.seq = { s.seq with page := BitVec.ofNat 3 page } := by simp [s1, stepOp, runOp]
  have h03 := (h1.trans h2).trans h3
  have hd := data_loop (chip := chip) (page := page) (s := s3) (by rw [q2, q1]; exact hc)
    (by rw [q2, q1]; simp; omega) (by rw [l3]; rfl) (by rw [l3]; rfl) (by rw [l3]) 64 (by omega)
  rw [e]
  have hcs3 : s3.lines.cs = s.lines.cs := by rw [l3]; rfl
  refine ⟨?_, ?_, hd.en, ?_⟩
  · have := h03.trans hd.sent
    simpa [pageTrace, commandTx, cols, hcs3, hcs, h03.src, b] using this
  · exact SameSelect.trans (by rw [l3]; exact ⟨rfl, rfl, rfl⟩) hd.sel
  · rw [hd.chip, q2, q1]

theorem PagesSent.src {s t : State} {txs : List Tx} (h : PagesSent s t txs) (k p c : Nat) :
    Machine.src t k p c = Machine.src s k p c := h.sent.src k p c

theorem pageTrace_congr {s t : State} {txs : List Tx} (h : Sent s t txs) (chip page : Nat) :
    pageTrace t chip page = pageTrace s chip page := by
  simp [pageTrace, h.src, h.cfg]

theorem chipTrace_congr {s t : State} {txs : List Tx} (h : Sent s t txs) (chip : Nat) :
    chipTrace t chip = chipTrace s chip := by
  have : pageTrace t chip = pageTrace s chip := funext (pageTrace_congr h chip)
  rw [chipTrace, chipTrace, this, h.cfg]

theorem PagesSent.step {chip k : Nat} {s t : State} (ht : PagesSent s t ((List.range k).flatMap (pageTrace s chip)))
    (hc : s.seq.chip.toNat = chip) (hcs : s.lines.cs = csOf chip) (hk : k < 8) :
    PagesSent s (runOps (pageOps s.cfg k) t) ((List.range (k + 1)).flatMap (pageTrace s chip)) := by
  have h := page_sent (chip := chip) (page := k) (s := t) (by rw [ht.chip]; exact hc)
    (by rw [ht.sel.cs]; exact hcs) hk
  rw [ht.sent.cfg] at h
  refine ⟨?_, ht.sel.trans h.sel, h.en, h.chip.trans ht.chip⟩
  have := ht.sent.trans h.sent
  rw [pageTrace_congr ht.sent] at this
  rw [List.range_succ, List.flatMap_append]
  simpa using this

theorem page_loop {chip : Nat} {s : State} (hc : s.seq.chip.toNat = chip) (hcs : s.lines.cs = csOf chip)
    (hen : s.lines.en = false) (n : Nat) (hn : n ≤ 8) :
    PagesSent s (runOps ((List.range n).flatMap (pageOps s.cfg)) s) ((List.range n).flatMap (pageTrace s chip)) :=
  runOps_range (P := fun k t => PagesSent s t ((List.range k).flatMap (pageTrace s chip))) n _ s
    ⟨by simpa using Sent.refl s, SameSelect.refl _, hen, rfl⟩ (fun k hk t ht => ht.step hc hcs (by omega))

/-- What one chip leaves: its own chip selected. -/
structure ChipSent (chip : Nat) (s t : State) : Prop where
  sent : Sent s t (chipTrace s chip)
  sel  : t.lines.cs1 = !(chip == 1) ∧ t.lines.cs2 = !(chip == 2) ∧ t.lines.cs3 = !(chip == 3)
  en   : t.lines.en = false

theorem selectLines_cs {chip : Nat} (h : chip = 1 ∨ chip = 2 ∨ chip = 3) (l : Lines) :
    selectLines (BitVec.ofNat 8 chip) l =
      { l with cs1 := !(chip == 1), cs2 := !(chip == 2), cs3 := !(chip == 3) } := by
  rcases h with rfl | rfl | rfl <;> simp [selectLines]

theorem chip_sent {chip : Nat} (hk : chip = 1 ∨ chip = 2 ∨ chip = 3) {s : State} :
    ChipSent chip s (runOps (chipOps s.cfg chip) s) := by
  let b := commandByte s.cfg.codes.setColumn (0 : BitVec 6)
  let s1 := runOps [.seqChip (BitVec.ofNat 2 chip), .selectChip (BitVec.ofNat 8 chip)] s
  let s2 := runOps (busWriteOps false b) s1
  have e : runOps (chipOps s.cfg chip) s = runOps ((List.range 8).flatMap (pageOps s.cfg)) s2 := by
    simp only [chipOps, pages, runOps_append, s2, s1, b]
  have h1 : Sent s s1 [] := by
    constructor <;> simp [s1, stepOp, runOp, selectLines_cs hk]
  have l1 : s1.lines = { s.lines with cs1 := !(chip == 1), cs2 := !(chip == 2), cs3 := !(chip == 3) } := by
    simp [s1, stepOp, runOp, selectLines_cs hk]
  have q1 : s1.seq.chip = BitVec.ofNat 2 chip := by simp [s1, stepOp, runOp]
  have c1 : s1.lines.cs = csOf chip := by
    rw [l1]; rcases hk with rfl | rfl | rfl <;> simp [Lines.cs, csOf]
  have h2 : Sent s1 s2 [⟨false, false, s1.lines.cs, b⟩] := busWrite_sent false b s1
  have l2 : s2.lines = { s1.lines.writing false b with en := false } := busWrite_lines false b s1
  have q2 : s2.seq = s1.seq := busWrite_seq false b s1
  have h02 := h1.trans h2
  have hp := page_loop (chip := chip) (s := s2)
    (by rw [q2, q1]; rcases hk with rfl | rfl | rfl <;> rfl) (by rw [l2, ← c1]; rfl) (by rw [l2]) 8 (by omega)
  rw [h02.cfg] at hp
  rw [e]
  refine ⟨?_, ?_, hp.en⟩
  · have := h02.trans hp.sent
    have hpt : pageTrace s2 chip = pageTrace s chip := funext (pageTrace_congr h02 chip)
    rw [hpt, c1] at this
    simpa [chipTrace, pages, commandTx, b] using this
  · rw [hp.sel.cs1, hp.sel.cs2, hp.sel.cs3, l2]
    simp [Lines.writing, l1]

/-- The whole refresh sequence: what it sends, and what it leaves (41_refresh_driver R105, R108, R109). -/
structure Refreshed (s t : State) : Prop where
  cfg            : t.cfg = s.cfg
  fb             : t.fb = s.fb
  ctrl           : t.ctrl = s.ctrl
  rsp            : t.rsp = s.rsp
  completionsRev : t.completionsRev = s.completionsRev
  script         : t.script = s.script
  waiting        : t.waiting = s.waiting
  status         : t.draws.status = s.draws.status
  cut            : t.draws.cut = s.draws.cut
  trace          : t.trace = s.trace ++ refreshTrace s
  lines          : t.lines = { s.lines with rs := false, rw := false, en := false, cs1 := true, cs2 := true, cs3 := false,
                                            dbOut := s.cfg.codes.displayOn }

theorem refreshOps_eq (c : Config) : refreshOps c =
    busWriteOps false (commandByte c.codes.startLine (0 : BitVec 6)) ++ (chipOps c 1 ++ (chipOps c 2 ++ (chipOps c 3 ++
      (busWriteOps false c.codes.displayOn ++ [.seqDone])))) := by
  rw [refreshOps, List.flatMap_cons, List.flatMap_cons, List.flatMap_cons, List.flatMap_nil, List.append_nil,
    List.append_assoc, List.append_assoc, List.append_assoc, List.append_assoc]

theorem refresh_does (s : State) : Refreshed s (runOps (refreshOps s.cfg) s) := by
  obtain ⟨b, hb⟩ : ∃ b, b = commandByte s.cfg.codes.startLine (0 : BitVec 6) := ⟨_, rfl⟩
  obtain ⟨s1, e1⟩ : ∃ u, u = runOps (busWriteOps false b) s := ⟨_, rfl⟩
  obtain ⟨s2, e2⟩ : ∃ u, u = runOps (chipOps s.cfg 1) s1 := ⟨_, rfl⟩
  obtain ⟨s3, e3⟩ : ∃ u, u = runOps (chipOps s.cfg 2) s2 := ⟨_, rfl⟩
  obtain ⟨s4, e4⟩ : ∃ u, u = runOps (chipOps s.cfg 3) s3 := ⟨_, rfl⟩
  obtain ⟨s5, e5⟩ : ∃ u, u = runOps (busWriteOps false s.cfg.codes.displayOn) s4 := ⟨_, rfl⟩
  have e : runOps (refreshOps s.cfg) s = stepOp s5 .seqDone := by
    rw [refreshOps_eq, runOps_append, runOps_append, runOps_append, runOps_append, runOps_append, ← hb, ← e1, ← e2, ← e3,
      ← e4, ← e5, runOps_cons, runOps_nil]
  have h1 : Sent s s1 [commandTx s.lines.cs b] := e1 ▸ busWrite_sent false b s
  have h2 : ChipSent 1 s1 s2 := by
    rw [e2, ← h1.cfg]; exact chip_sent (by simp)
  have h12 := h1.trans h2.sent
  have h3 : ChipSent 2 s2 s3 := by
    rw [e3, ← h12.cfg]; exact chip_sent (by simp)
  have h13 := h12.trans h3.sent
  have h4 : ChipSent 3 s3 s4 := by
    rw [e4, ← h13.cfg]; exact chip_sent (by simp)
  have h14 := h13.trans h4.sent
  have h5 : Sent s4 s5 [commandTx s4.lines.cs s.cfg.codes.displayOn] := e5 ▸ busWrite_sent false _ s4
  have l5 : s5.lines = { s4.lines.writing false s.cfg.codes.displayOn with en := false } := e5 ▸ busWrite_lines false _ s4
  have h15 := h14.trans h5
  have hcs : s4.lines.cs = csOf 3 := by
    simp [Lines.cs, h4.sel, csOf]
  rw [e]
  constructor
  · simpa [stepOp, runOp] using h15.cfg
  · simpa [stepOp, runOp] using h15.fb
  · simpa [stepOp, runOp] using h15.ctrl
  · simpa [stepOp, runOp] using h15.rsp
  · simpa [stepOp, runOp] using h15.completionsRev
  · simpa [stepOp, runOp] using h15.script
  · simpa [stepOp, runOp] using h15.waiting
  · simpa [stepOp, runOp] using h15.status
  · simpa [stepOp, runOp] using h15.cut
  · have := h15.trace
    rw [chipTrace_congr h1, chipTrace_congr h12, chipTrace_congr h13, hcs, hb] at this
    have ht : (stepOp s5 .seqDone).trace = s5.trace := by simp [stepOp, runOp, State.trace]
    rw [ht, this]
    simp only [refreshTrace, List.flatMap_cons, List.flatMap_nil, List.append_nil, List.append_assoc, List.cons_append,
      List.nil_append]
  · have hr := h14.rst
    have hd := h14.dbOe
    have hl : (stepOp s5 .seqDone).lines = s5.lines := by simp [stepOp, runOp]
    rw [hl, l5]
    ext <;> simp [Lines.writing, hr, hd, h4.sel]

end Sys2Proof.Machine
end

