-- ==== Sys2Proof/Laws/Panel.lean ====
section
/-! SUPPORT. The reference panel under bus writes (20_memory R60 to R62), and what a refresh leaves in its cells (70_reset_and_hazards R160). -/

namespace Sys2Proof.Machine

/-- A chip number. -/
def isChip (k : Nat) : Prop := k = 1 ∨ k = 2 ∨ k = 3

theorem onReached_chip (n : NoneSelected) (cs : BitVec 3) (f : Nat → Chip → Chip) (p : Panel) {k : Nat} (hk : isChip k) :
    (p.onReached n cs f).chip k = if reaches n cs k then f k (p.chip k) else p.chip k := by
  rcases hk with rfl | rfl | rfl <;> simp [Panel.onReached, Panel.chip]

/-- With one chip selected, a strobe reaches that chip alone. -/
theorem reaches_csOf (n : NoneSelected) {chip j : Nat} (hc : isChip chip) (hj : isChip j) :
    reaches n (csOf chip) j = (j == chip) := by
  rcases hc with rfl | rfl | rfl <;> rcases hj with rfl | rfl | rfl <;> cases n <;> rfl

theorem onSelected_chip (f : Chip → Chip) (s : State) {j : Nat} (hj : isChip j) :
    (onSelected f s).panel.chip j = if reaches s.cfg.noneSelected s.lines.cs j then f (s.panel.chip j) else s.panel.chip j := by
  rw [onSelected_panel, onReached_chip _ _ _ _ hj]

/-! ### The command bytes of the default codes -/

theorem decodePanel_displayOn : decodePanel CmdCodes.default CmdCodes.default.displayOn = some .displayOn := by decide
theorem decodePanel_setColumn (c : BitVec 6) :
    decodePanel CmdCodes.default (commandByte CmdCodes.default.setColumn c) = some (.setColumn c) := by
  revert c; decide
theorem decodePanel_setPage (p : BitVec 3) :
    decodePanel CmdCodes.default (commandByte CmdCodes.default.setPage p) = some (.setPage p) := by
  revert p; decide
theorem decodePanel_startLine (l : BitVec 6) :
    decodePanel CmdCodes.default (commandByte CmdCodes.default.startLine l) = some (.startLine l) := by
  revert l; decide

/-- What a command write of a known command does to the panel. -/
theorem command_panel {b : Byte} {i : Instr} {f : Chip → Chip} {s : State} (hd : decodePanel s.cfg.codes b = some i)
    (hf : (i = .displayOn ∧ f = Chip.displayOn) ∨ (∃ c, i = .setColumn c ∧ f = Chip.setColumn c) ∨
      (∃ p, i = .setPage p ∧ f = Chip.setPage p) ∨ (∃ l, i = .startLine l ∧ f = Chip.startLine l))
    {j : Nat} (hj : isChip j) :
    (runOps (busWriteOps false b) s).panel.chip j =
      if reaches s.cfg.noneSelected s.lines.cs j then f (s.panel.chip j) else s.panel.chip j := by
  rw [busWrite_panel]
  have hrs : (onLines (Lines.writing false b) s).lines.rs = false := rfl
  have hrw : (onLines (Lines.writing false b) s).lines.rw = false := rfl
  have hcs : (onLines (Lines.writing false b) s).lines.cs = s.lines.cs := rfl
  simp only [panelLatch, hrs, hrw, panelCommand, onLines_cfg, hd]
  rcases hf with ⟨rfl, rfl⟩ | ⟨c, rfl, rfl⟩ | ⟨p, rfl, rfl⟩ | ⟨l, rfl, rfl⟩ <;>
    simp only [displayOnEffect, setColumnEffect, setPageEffect, startLineEffect, onSelected_chip _ _ hj, hcs, onLines_cfg,
      onLines_panel]

/-- What a data byte does to the panel. -/
theorem data_panel {s : State} (hrs : s.lines.rs = true) (hrw : s.lines.rw = false) {j : Nat} (hj : isChip j) :
    (runOps dataByteOps s).panel.chip j =
      if reaches s.cfg.noneSelected s.lines.cs j then (s.panel.chip j).data (srcAtSeq s) else s.panel.chip j := by
  rw [dataByte_panel s hrw]
  simp only [panelLatch, hrs, hrw, onSelected_chip _ _ hj]

/-! ### The cells a refresh writes -/

/-- A chip after `n` data bytes `g 0`, `g 1`, … from column 0 on. -/
structure Streamed (g : Nat → Byte) (n : Nat) (c d : Chip) : Prop where
  page : d.page = c.page
  col  : d.col = BitVec.ofNat 6 n
  cell : ∀ q k, d.cell q k = if q = c.page ∧ k.toNat < n then g k.toNat else c.cell q k

theorem Streamed.step {g : Nat → Byte} {n : Nat} {c d : Chip} (h : Streamed g n c d) (hn : n < 64) :
    Streamed g (n + 1) c (d.data (g n)) := by
  refine ⟨h.page, ?_, ?_⟩
  · simp only [Chip.data, h.col]
    exact BitVec.eq_of_toNat_eq (by simp)
  · intro q k
    rw [Chip.cell_data, h.cell, h.page, h.col]
    by_cases hq : q = c.page
    · by_cases hk : k.toNat = n
      · have : k = BitVec.ofNat 6 n := BitVec.eq_of_toNat_eq (by simp; omega)
        rw [if_pos ⟨hq, this⟩, if_pos ⟨hq, by omega⟩, hk]
      · have : ¬ k = BitVec.ofNat 6 n := fun e => hk (by rw [e]; simp; omega)
        rw [if_neg (fun e => this e.2)]
        by_cases hlt : k.toNat < n
        · rw [if_pos ⟨hq, hlt⟩, if_pos ⟨hq, by omega⟩]
        · rw [if_neg (fun e => hlt e.2), if_neg (fun e => by omega)]
    · rw [if_neg (fun e => hq e.1), if_neg (fun e => hq e.1), if_neg (fun e => hq e.1)]

/-- What a stretch of a refresh does to the panel while one chip is selected: that chip goes by `R`, the others keep still. -/
structure OnlyChip (chip : Nat) (R : Chip → Chip → Prop) (s t : State) : Prop where
  own    : R (s.panel.chip chip) (t.panel.chip chip)
  others : ∀ j, isChip j → j ≠ chip → t.panel.chip j = s.panel.chip j

theorem data_loop_panel {chip page : Nat} {s : State} (hch : isChip chip) (hc : s.seq.chip.toNat = chip)
    (hp : s.seq.page.toNat = page) (hcs : s.lines.cs = csOf chip)
    (hrs : s.lines.rs = true) (hrw : s.lines.rw = false) (hen : s.lines.en = false) (hcol : (s.panel.chip chip).col = 0)
    (n : Nat) (hn : n ≤ 64) :
    OnlyChip chip (Streamed (src s chip page) n) s (runOps (dataOps n) s) := by
  refine (runOps_range (P := fun k t => DataSent chip page k s t ∧ OnlyChip chip (Streamed (src s chip page) k) s t) n
    _ s ⟨data_none chip page hrs hrw hen, ⟨rfl, by simpa using hcol, by simp⟩, fun _ _ _ => rfl⟩ ?_).2
  intro k hk t ⟨hd, hs⟩
  refine ⟨hd.step hc hp (by omega), ?_⟩
  have key : ∀ j, isChip j → (runOps dataByteOps (stepOp t (.seqCol (BitVec.ofNat 6 k)))).panel.chip j =
      if j == chip then (t.panel.chip j).data (src s chip page k) else t.panel.chip j := by
    intro j hj
    have hpn : (stepOp t (.seqCol (BitVec.ofNat 6 k))).panel = t.panel := by simp [stepOp, runOp]
    rw [data_panel (by rw [seqCol_lines]; exact hd.rs) (by rw [seqCol_lines]; exact hd.rw) hj, seqCol_lines, hpn,
      hd.src_next hc hp (by omega), hd.sel.cs, hcs, reaches_csOf _ hch hj]
  rw [runOps_cons]
  refine ⟨?_, ?_⟩
  · rw [key chip hch]
    simpa using hs.own.step (by omega)
  · intro j hj hne
    rw [key j hj, hs.others j hj hne]
    simp [hne]

/-- A chip that has taken the pages below `n` of an image `g`, its column back at 0. -/
structure Paged (g : Nat → Nat → Byte) (n : Nat) (c d : Chip) : Prop where
  col  : d.col = 0
  cell : ∀ q k, d.cell q k = if q.toNat < n then g q.toNat k.toNat else c.cell q k

theorem Chip.cell_setPage (p q : BitVec 3) (k : BitVec 6) (c : Chip) : (c.setPage p).cell q k = c.cell q k := rfl

theorem page_panel {chip page : Nat} {s : State} (hch : isChip chip) (hcodes : s.cfg.codes = CmdCodes.default)
    (hc : s.seq.chip.toNat = chip) (hcs : s.lines.cs = csOf chip) (hp : page < 8) (hcol : (s.panel.chip chip).col = 0) :
    OnlyChip chip (fun c d => Streamed (src s chip page) 64 (c.setPage (BitVec.ofNat 3 page)) d) s
      (runOps (pageOps s.cfg page) s) := by
  obtain ⟨b, hb⟩ : ∃ b, b = commandByte s.cfg.codes.setPage (BitVec.ofNat 3 page) := ⟨_, rfl⟩
  obtain ⟨s1, e1⟩ : ∃ u, u = stepOp s (.seqPage (BitVec.ofNat 3 page)) := ⟨_, rfl⟩
  obtain ⟨s2, e2⟩ : ∃ u, u = runOps (busWriteOps false b) s1 := ⟨_, rfl⟩
  obtain ⟨s3, e3⟩ : ∃ u, u = runOps [.driveRs true, .driveRw false] s2 := ⟨_, rfl⟩
  have e : runOps (pageOps s.cfg page) s = runOps (dataOps 64) s3 := by
    simp only [pageOps, cols, dataOps, List.cons_append, runOps_cons, runOps_append, e3, e2, e1, hb, runOps_nil]
  have c1 : s1.cfg = s.cfg := by simp [e1, stepOp, runOp]
  have p1 : s1.panel = s.panel := by simp [e1, stepOp, runOp]
  have l1 : s1.lines = s.lines := by simp [e1, stepOp, runOp]
  have q1 : s1.seq = { s.seq with page := BitVec.ofNat 3 page } := by simp [e1, stepOp, runOp]
  have hb' : b = commandByte CmdCodes.default.setPage (BitVec.ofNat 3 page) := by rw [hb, hcodes]
  have p2 : ∀ j, isChip j → s2.panel.chip j =
      if j == chip then (s.panel.chip j).setPage (BitVec.ofNat 3 page) else s.panel.chip j := by
    intro j hj
    rw [e2, command_panel (i := .setPage (BitVec.ofNat 3 page)) (f := Chip.setPage (BitVec.ofNat 3 page))
      (by rw [c1, hcodes, hb', decodePanel_setPage]) (by simp) hj, c1, p1, l1, hcs, reaches_csOf _ hch hj]
  have p3 : s3.panel = s2.panel := by simp [e3, stepOp, runOp]
  have l2 : s2.lines = { s.lines.writing false b with en := false } := by rw [e2, busWrite_lines, l1]
  have l3 : s3.lines = { s.lines.writing true b with en := false } := by
    simp [e3, stepOp, runOp, l2, Lines.writing]
  have q3 : s3.seq = { s.seq with page := BitVec.ofNat 3 page } := by
    rw [e3, ← q1, ← busWrite_seq false b s1, ← e2]
    simp [stepOp, runOp]
  have f3 : s3.fb = s.fb ∧ s3.ctrl = s.ctrl := by
    have h2 := busWrite_sent false b s1
    rw [← e2] at h2
    constructor
    · rw [show s3.fb = s2.fb by simp [e3, stepOp, runOp], h2.fb]; simp [e1, stepOp, runOp]
    · rw [show s3.ctrl = s2.ctrl by simp [e3, stepOp, runOp], h2.ctrl]; simp [e1, stepOp, runOp]
  have hsrc : src s3 chip page = src s chip page := funext (src_congr f3.1 f3.2 chip page)
  have hd := data_loop_panel (chip := chip) (page := page) (s := s3) hch (by rw [q3]; exact hc)
    (by rw [q3]; simp; omega) (by rw [l3]; exact hcs) (by rw [l3]; rfl) (by rw [l3]; rfl) (by rw [l3])
    (by rw [p3, p2 chip hch]; simpa [Chip.setPage] using hcol) 64 (by omega)
  rw [e]
  refine ⟨?_, ?_⟩
  · have := hd.own
    rw [p3, p2 chip hch, hsrc] at this
    simpa using this
  · intro j hj hne
    rw [hd.others j hj hne, p3, p2 j hj]
    simp [hne]

theorem page_loop_panel {chip : Nat} {s : State} (hch : isChip chip) (hcodes : s.cfg.codes = CmdCodes.default)
    (hc : s.seq.chip.toNat = chip) (hcs : s.lines.cs = csOf chip) (hen : s.lines.en = false)
    (hcol : (s.panel.chip chip).col = 0) (n : Nat) (hn : n ≤ 8) :
    OnlyChip chip (Paged (src s chip) n) s (runOps ((List.range n).flatMap (pageOps s.cfg)) s) := by
  refine (runOps_range (P := fun k t => PagesSent s t ((List.range k).flatMap (pageTrace s chip)) ∧
    OnlyChip chip (Paged (src s chip) k) s t) n _ s
    ⟨⟨by simpa using Sent.refl s, SameSelect.refl _, hen, rfl⟩, ⟨hcol, by simp⟩, fun _ _ _ => rfl⟩ ?_).2
  intro k hk t ⟨hd, hs⟩
  have hcfg := hd.sent.cfg
  refine ⟨hd.step hc hcs (by omega), ?_⟩
  have hp := page_panel (chip := chip) (page := k) (s := t) hch (by rw [hcfg]; exact hcodes) (by rw [hd.chip]; exact hc)
    (by rw [hd.sel.cs]; exact hcs) (by omega) hs.own.col
  rw [hcfg] at hp
  have hsrc : src t chip k = src s chip k := funext (hd.sent.src chip k)
  rw [hsrc] at hp
  refine ⟨⟨?_, ?_⟩, fun j hj hne => (hp.others j hj hne).trans (hs.others j hj hne)⟩
  · rw [hp.own.col]; rfl
  · intro q c
    rw [hp.own.cell, Chip.cell_setPage, hs.own.cell]
    have hc64 := c.isLt
    by_cases hq : q.toNat = k
    · have : q = BitVec.ofNat 3 k := BitVec.eq_of_toNat_eq (by simp; omega)
      rw [if_pos ⟨this, by omega⟩, if_pos (by omega), hq]
    · have : ¬ q = BitVec.ofNat 3 k := fun e => hq (by rw [e]; simp; omega)
      rw [if_neg (fun e => this e.1)]
      by_cases hlt : q.toNat < k
      · rw [if_pos hlt, if_pos (by omega)]
      · rw [if_neg hlt, if_neg (by omega)]

theorem Chip.cell_setColumn (n : BitVec 6) (q : BitVec 3) (k : BitVec 6) (c : Chip) : (c.setColumn n).cell q k = c.cell q k := rfl

theorem chip_panel {chip : Nat} (hch : isChip chip) {s : State} (hcodes : s.cfg.codes = CmdCodes.default) :
    OnlyChip chip (Paged (src s chip) 8) s (runOps (chipOps s.cfg chip) s) := by
  obtain ⟨b, hb⟩ : ∃ b, b = commandByte s.cfg.codes.setColumn (0 : BitVec 6) := ⟨_, rfl⟩
  obtain ⟨s1, e1⟩ : ∃ u, u = runOps [.seqChip (BitVec.ofNat 2 chip), .selectChip (BitVec.ofNat 8 chip)] s := ⟨_, rfl⟩
  obtain ⟨s2, e2⟩ : ∃ u, u = runOps (busWriteOps false b) s1 := ⟨_, rfl⟩
  have e : runOps (chipOps s.cfg chip) s = runOps ((List.range 8).flatMap (pageOps s.cfg)) s2 := by
    simp only [chipOps, pages, runOps_append, e2, e1, hb]
  have h1 : Sent s s1 [] := by
    rw [e1]; constructor <;> simp [stepOp, runOp, selectLines_cs hch]
  have l1 : s1.lines = { s.lines with cs1 := !(chip == 1), cs2 := !(chip == 2), cs3 := !(chip == 3) } := by
    simp [e1, stepOp, runOp, selectLines_cs hch]
  have q1 : s1.seq.chip = BitVec.ofNat 2 chip := by simp [e1, stepOp, runOp]
  have p1 : s1.panel = s.panel := by simp [e1, stepOp, runOp]
  have c1 : s1.lines.cs = csOf chip := by
    rw [l1]; rcases hch with rfl | rfl | rfl <;> simp [Lines.cs, csOf]
  have h2 : Sent s1 s2 [⟨false, false, s1.lines.cs, b⟩] := e2 ▸ busWrite_sent false b s1
  have l2 : s2.lines = { s1.lines.writing false b with en := false } := e2 ▸ busWrite_lines false b s1
  have q2 : s2.seq = s1.seq := e2 ▸ busWrite_seq false b s1
  have h02 := h1.trans h2
  have p2 : ∀ j, isChip j → s2.panel.chip j = if j == chip then (s.panel.chip j).setColumn 0 else s.panel.chip j := by
    intro j hj
    rw [e2, command_panel (i := .setColumn 0) (f := Chip.setColumn 0)
      (by rw [h1.cfg, hcodes, hb, hcodes, decodePanel_setColumn]) (by simp) hj, p1, c1, reaches_csOf _ hch hj]
  have hp := page_loop_panel (chip := chip) (s := s2) hch (by rw [h02.cfg]; exact hcodes)
    (by rw [q2, q1]; rcases hch with rfl | rfl | rfl <;> rfl) (by rw [l2, ← c1]; rfl) (by rw [l2])
    (by rw [p2 chip hch]; simp [Chip.setColumn]) 8 (by omega)
  have hsrc : src s2 chip = src s chip := funext fun p => funext (h02.src chip p)
  rw [h02.cfg, hsrc] at hp
  rw [e]
  refine ⟨⟨hp.own.col, fun q k => ?_⟩, fun j hj hne => ?_⟩
  · have hq := q.isLt
    rw [hp.own.cell, if_pos (by omega), if_pos (by omega)]
  · rw [hp.others j hj hne, p2 j hj]
    simp [hne]

/-- What REFRESH's bracketing commands may do to a chip: not its cells. -/
theorem command_cells {b : Byte} {i : Instr} {f : Chip → Chip} {s : State} (hd : decodePanel s.cfg.codes b = some i)
    (hf : (i = .displayOn ∧ f = Chip.displayOn) ∨ (∃ c, i = .setColumn c ∧ f = Chip.setColumn c) ∨
      (∃ p, i = .setPage p ∧ f = Chip.setPage p) ∨ (∃ l, i = .startLine l ∧ f = Chip.startLine l))
    {j : Nat} (hj : isChip j) (q : BitVec 3) (k : BitVec 6) :
    ((runOps (busWriteOps false b) s).panel.chip j).cell q k = (s.panel.chip j).cell q k := by
  rw [command_panel hd hf hj]
  split
  · rcases hf with ⟨_, rfl⟩ | ⟨c, _, rfl⟩ | ⟨p, _, rfl⟩ | ⟨l, _, rfl⟩ <;> rfl
  · rfl

/-- After the refresh sequence every cell of the panel holds its source byte, whatever the panel held before (70_reset_and_hazards R160), with the default command codes. -/
theorem refresh_cells (s : State) (hcodes : s.cfg.codes = CmdCodes.default) {j : Nat} (hj : isChip j) (q : BitVec 3)
    (k : BitVec 6) : ((runOps (refreshOps s.cfg) s).panel.chip j).cell q k = src s j q.toNat k.toNat := by
  obtain ⟨b, hb⟩ : ∃ b, b = commandByte s.cfg.codes.startLine (0 : BitVec 6) := ⟨_, rfl⟩
  obtain ⟨s1, e1⟩ : ∃ u, u = runOps (busWriteOps false b) s := ⟨_, rfl⟩
  obtain ⟨s2, e2⟩ : ∃ u, u = runOps (chipOps s.cfg 1) s1 := ⟨_, rfl⟩
  obtain ⟨s3, e3⟩ : ∃ u, u = runOps (chipOps s.cfg 2) s2 := ⟨_, rfl⟩
  obtain ⟨s4, e4⟩ : ∃ u, u = runOps (chipOps s.cfg 3) s3 := ⟨_, rfl⟩
  obtain ⟨s5, e5⟩ : ∃ u, u = runOps (busWriteOps false s.cfg.codes.displayOn) s4 := ⟨_, rfl⟩
  have e : runOps (refreshOps s.cfg) s = stepOp s5 .seqDone := by
    rw [refreshOps_eq, runOps_append, runOps_append, runOps_append, runOps_append, runOps_append, ← hb, ← e1, ← e2, ← e3,
      ← e4, ← e5, runOps_cons, runOps_nil]
  have h1 : Sent s s1 [commandTx s.lines.cs b] := e1 ▸ busWrite_sent false b s
  have h2 : ChipSent 1 s1 s2 := by rw [e2, ← h1.cfg]; exact chip_sent (by simp)
  have h12 := h1.trans h2.sent
  have h3 : ChipSent 2 s2 s3 := by rw [e3, ← h12.cfg]; exact chip_sent (by simp)
  have h13 := h12.trans h3.sent
  have h4 : ChipSent 3 s3 s4 := by rw [e4, ← h13.cfg]; exact chip_sent (by simp)
  have h14 := h13.trans h4.sent
  have k2 : OnlyChip 1 (Paged (src s1 1) 8) s1 s2 := by
    rw [e2, ← h1.cfg]; exact chip_panel (.inl rfl) (by rw [h1.cfg]; exact hcodes)
  have k3 : OnlyChip 2 (Paged (src s2 2) 8) s2 s3 := by
    rw [e3, ← h12.cfg]; exact chip_panel (.inr (.inl rfl)) (by rw [h12.cfg]; exact hcodes)
  have k4 : OnlyChip 3 (Paged (src s3 3) 8) s3 s4 := by
    rw [e4, ← h13.cfg]; exact chip_panel (.inr (.inr rfl)) (by rw [h13.cfg]; exact hcodes)
  have hq := q.isLt
  have hs5 : (s5.panel.chip j).cell q k = (s4.panel.chip j).cell q k := by
    rw [e5]
    exact command_cells (i := .displayOn) (f := Chip.displayOn)
      (by rw [h14.cfg, hcodes, decodePanel_displayOn]) (by simp) hj q k
  have hpn : (runOps (refreshOps s.cfg) s).panel = s5.panel := by rw [e]; simp [stepOp, runOp]
  rw [hpn, hs5]
  have i1 : isChip 1 := .inl rfl
  have i2 : isChip 2 := .inr (.inl rfl)
  have i3 : isChip 3 := .inr (.inr rfl)
  rcases hj with rfl | rfl | rfl
  · rw [k4.others 1 i1 (by decide), k3.others 1 i1 (by decide), k2.own.cell, if_pos (by omega), h1.src]
  · rw [k4.others 2 i2 (by decide), k3.own.cell, if_pos (by omega), h12.src]
  · rw [k4.own.cell, if_pos (by omega), h13.src]

end Sys2Proof.Machine
end

