-- ==== Sys2Proof/Laws/Engine.lean ====
section
/-! SUPPORT. The engine one step at a time: what each step of pseudocode keeps, that every request's pseudocode is well timed (30_encoding R79), and that a stepwise run is the run of the whole. -/

namespace Sys2Proof.Machine

/-! ### One step of pseudocode -/

@[simp] theorem selectLines_en (c : Byte) (l : Lines) : (selectLines c l).en = l.en := by
  unfold selectLines; split; rfl; split; rfl; split <;> rfl
@[simp] theorem selectLines_dbOe (c : Byte) (l : Lines) : (selectLines c l).dbOe = l.dbOe := by
  unfold selectLines; split; rfl; split; rfl; split <;> rfl
@[simp] theorem selectLines_rst (c : Byte) (l : Lines) : (selectLines c l).rst = l.rst := by
  unfold selectLines; split; rfl; split; rfl; split <;> rfl

theorem selectLines_legal (c : Byte) (l : Lines) : csLegal (selectLines c l).cs = true := by
  unfold selectLines
  split
  · simp [csLegal, Lines.cs]
  · split
    · simp [csLegal, Lines.cs]
    · split <;> simp [csLegal, Lines.cs]

/-- The levels of EN, DB_OE and RST follow the pseudocode. -/
theorem stepOp_driven (s : State) (op : MicroOp) : (stepOp s op).driven = s.driven.step op := by
  cases op <;> simp [State.driven, stepOp, runOp, Driven.step]

theorem stepOp_cfg (s : State) (op : MicroOp) : (stepOp s op).cfg = s.cfg := by
  cases op <;> simp [stepOp, runOp]

theorem stepOp_script (s : State) (op : MicroOp) : (stepOp s op).script = s.script := by
  cases op <;> simp [stepOp, runOp]

theorem runOps_cfg (ops : List MicroOp) (s : State) : (runOps ops s).cfg = s.cfg := by
  induction ops generalizing s with
  | nil => rfl
  | cons op ops ih => rw [runOps_cons, ih, stepOp_cfg]

theorem runOps_script (ops : List MicroOp) (s : State) : (runOps ops s).script = s.script := by
  induction ops generalizing s with
  | nil => rfl
  | cons op ops ih => rw [runOps_cons, ih, stepOp_script]

/-- Which step completes the request. -/
def isComplete : MicroOp → Bool
  | .complete _ => true
  | _ => false

/-- A step that does not complete the request leaves it in progress, one position on. -/
theorem stepOp_busy {s : State} {p : InProgress} (h : s.engine = .busy p) {op : MicroOp} (hop : isComplete op = false) :
    ∃ v, (stepOp s op).engine = .busy { p with pos := p.pos + 1, v := v } := by
  cases op <;> simp only [isComplete, Bool.true_eq_false] at hop <;> unfold stepOp advance
  case sampleDb =>
    refine ⟨some (dbLevels s), ?_⟩
    rw [onProgress_engine_busy _ _ { p with v := some (dbLevels s) }]
    simp [runOp, sampleDb, drawStatus, onProgress_busy _ _ _ h]
  all_goals
    refine ⟨p.v, ?_⟩
    rw [onProgress_engine_busy _ _ p]
    simpa [runOp] using h

/-- The part of the invariant that does not look at the engine. -/
structure PartsGood (s : State) : Prop where
  cs   : csLegal s.lines.cs = true
  ctrl : s.ctrl.good
  seq  : s.seq.chip ≠ 0

theorem seqDrawn_chip (k : Nat) : (Seq.drawn k).chip ≠ 0 := by
  have h := (Config.seqChip k).isLt
  intro e
  have := congrArg BitVec.toNat e
  simp [Seq.drawn] at this
  omega

/-- A step never gives the sequencer chip 0. -/
def seqOk : MicroOp → Bool
  | .seqChip k => k != 0
  | _ => true

theorem stepOp_parts {s : State} (h : PartsGood s) {op : MicroOp} (hop : seqOk op = true) : PartsGood (stepOp s op) := by
  obtain ⟨h1, h2, h3⟩ := h
  cases op
  case selectChip c => exact ⟨by simpa [stepOp, runOp] using selectLines_legal c s.lines, by simpa [stepOp, runOp] using h2, by simpa [stepOp, runOp] using h3⟩
  case seqChip k =>
    refine ⟨by simpa [stepOp, runOp] using h1, by simpa [stepOp, runOp] using h2, ?_⟩
    simpa [stepOp, runOp, seqOk] using hop
  case seqDone => exact ⟨by simpa [stepOp, runOp] using h1, by simpa [stepOp, runOp] using h2, by simpa [stepOp, runOp] using seqDrawn_chip _⟩
  all_goals
    exact ⟨by simpa [stepOp, runOp, Lines.cs] using h1, by simpa [stepOp, runOp, Ctrl.good] using h2, by simpa [stepOp, runOp] using h3⟩

theorem recordError_good (e : ErrCode) {c : Ctrl} (h : c.good) : (recordError e c).good := by
  obtain ⟨h1, h2⟩ := h
  unfold recordError
  cases hc : c.err
  · cases e <;> simp [Ctrl.good, ErrCode.code]
  · refine ⟨?_, by simpa using h2⟩
    simp [hc] at h1 ⊢
    exact h1

theorem raiseError_parts (e : ErrCode) {s : State} (h : PartsGood s) : PartsGood (raiseError e s) :=
  ⟨by simpa using h.cs, by simpa using recordError_good e h.ctrl, by simpa using h.seq⟩

/-! ### Well-timed pseudocode (30_encoding R79) -/

/-- What may happen while EN is high: a wait, the sample, the fall of EN. -/
def opOk (d : Driven) (op : MicroOp) : Bool :=
  seqOk op && !isComplete op &&
  (!d.en || match op with
    | .wait _ => true
    | .enFall => true
    | .sampleDb => true
    | _ => false)

/-- From the levels `d` every step is timed well, and the levels end at rest. -/
def okRun : Driven → List MicroOp → Bool
  | d, [] => d == Driven.rest
  | d, op :: ops => opOk d op && okRun (d.step op) ops

theorem okRun_append {d : Driven} {xs ys : List MicroOp} (hx : okRun d xs = true) (hy : okRun Driven.rest ys = true) :
    okRun d (xs ++ ys) = true := by
  induction xs generalizing d with
  | nil => simp only [okRun, beq_iff_eq] at hx; subst hx; exact hy
  | cons op xs ih =>
    simp only [okRun, List.cons_append, Bool.and_eq_true] at *
    exact ⟨hx.1, ih hx.2⟩

theorem okRun_flatMap {α : Type} {l : List α} {f : α → List MicroOp} (h : ∀ a ∈ l, okRun Driven.rest (f a) = true) :
    okRun Driven.rest (l.flatMap f) = true := by
  induction l with
  | nil => rfl
  | cons a l ih =>
    rw [List.flatMap_cons]
    exact okRun_append (h a (by simp)) (ih (fun b hb => h b (by simp [hb])))

theorem okRun_busWrite (rs : Bool) (b : Byte) : okRun Driven.rest (busWriteOps rs b) = true := rfl

theorem okRun_page (c : Config) (page : Nat) : okRun Driven.rest (pageOps c page) = true := by
  unfold pageOps
  refine okRun_append (okRun_append (xs := _ :: busWriteOps _ _) rfl rfl) (okRun_flatMap ?_)
  intro k _
  rfl

theorem okRun_chip (c : Config) {chip : Nat} (h : isChip chip) : okRun Driven.rest (chipOps c chip) = true := by
  unfold chipOps
  refine okRun_append (okRun_append ?_ (okRun_busWrite _ _)) (okRun_flatMap fun p _ => okRun_page c p)
  rcases h with rfl | rfl | rfl <;> rfl

theorem okRun_refresh (c : Config) : okRun Driven.rest (refreshOps c) = true := by
  rw [refreshOps_eq]
  exact okRun_append (okRun_busWrite _ _) (okRun_append (okRun_chip c (.inl rfl)) (okRun_append (okRun_chip c (.inr (.inl rfl)))
    (okRun_append (okRun_chip c (.inr (.inr rfl))) (okRun_append (okRun_busWrite _ _) rfl))))

/-- Every request's pseudocode is a well-timed body and then its completion. -/
theorem program_shape (c : Config) (i : Instr) (h : i.isRequest = true) :
    ∃ body a, program c i = body ++ [.complete a] ∧ okRun Driven.rest body = true := by
  cases i
  case wrcmd b => exact ⟨_, _, rfl, rfl⟩
  case wrdata b => exact ⟨_, _, rfl, rfl⟩
  case rdstat => exact ⟨_, _, rfl, rfl⟩
  case selchip n => exact ⟨[.selectChip n], _, rfl, rfl⟩
  case preset => exact ⟨_, _, rfl, rfl⟩
  case init =>
    refine ⟨panelResetOps ++ [.selectChip 0] ++ busWriteOps false (commandByte c.codes.startLine (0 : BitVec 6)) ++
      busWriteOps false c.codes.displayOn ++ [.setInit], .zero, ?_, rfl⟩
    simp [program, initProgram]
  case clear =>
    exact ⟨.fbFill 0x00 :: refreshOps c, .zero, rfl, okRun_append (xs := [.fbFill 0x00]) rfl (okRun_refresh c)⟩
  case setorient r => exact ⟨[.setOrient r], _, rfl, rfl⟩
  case refresh => exact ⟨_, _, rfl, okRun_refresh c⟩
  case fbwr a v => exact ⟨[.fbWrite a.toNat v], _, rfl, rfl⟩
  case fbrd a => exact ⟨[], _, rfl, rfl⟩
  case fbfill v => exact ⟨[.fbFill v], _, rfl, rfl⟩
  case rdctrl => exact ⟨[], _, rfl, rfl⟩
  all_goals simp [Instr.isRequest] at h

/-- At each position of a well-timed body the step there is in order, and so is the rest. -/
theorem okRun_at {d : Driven} {ops : List MicroOp} (h : okRun d ops = true) {n : Nat} {op : MicroOp}
    (hn : ops[n]? = some op) : opOk ((ops.take n).foldl Driven.step d) op = true := by
  induction ops generalizing d n with
  | nil => simp at hn
  | cons x xs ih =>
    simp only [okRun, Bool.and_eq_true] at h
    cases n with
    | zero => simp at hn; subst hn; simpa using h.1
    | succ n => simpa using ih h.2 (by simpa using hn)

theorem okRun_end {d : Driven} {ops : List MicroOp} (h : okRun d ops = true) : ops.foldl Driven.step d = Driven.rest := by
  induction ops generalizing d with
  | nil => simpa [okRun] using h
  | cons x xs ih =>
    simp only [okRun, Bool.and_eq_true] at h
    exact ih h.2

theorem drivenAfter_succ {ops : List MicroOp} {n : Nat} {op : MicroOp} (h : ops[n]? = some op) :
    drivenAfter ops (n + 1) = (drivenAfter ops n).step op := by
  simp [drivenAfter, List.take_add_one, h, List.foldl_append]

/-- The step at a position of a request's pseudocode: either its completion, at the last position and with the levels at rest, or a step in order with more to come. -/
theorem program_at {c : Config} {i : Instr} (hi : i.isRequest = true) {n : Nat} {op : MicroOp}
    (h : (program c i)[n]? = some op) :
    ((∃ a, op = .complete a) ∧ n + 1 = (program c i).length ∧ drivenAfter (program c i) n = Driven.rest) ∨
    (opOk (drivenAfter (program c i) n) op = true ∧ n + 1 < (program c i).length) := by
  obtain ⟨body, a, hp, hb⟩ := program_shape c i hi
  rw [hp] at h ⊢
  by_cases hn : n < body.length
  · right
    rw [List.getElem?_append_left hn] at h
    have ht : drivenAfter (body ++ [.complete a]) n = (body.take n).foldl Driven.step Driven.rest := by
      rw [drivenAfter, List.take_append_of_le_length (by omega)]
    rw [ht]
    exact ⟨okRun_at hb h, by simp; omega⟩
  · left
    rw [List.getElem?_append_right (by omega)] at h
    have hn0 : n - body.length = 0 := by
      by_contra hne
      rw [List.getElem?_eq_none (by simp; omega)] at h
      exact absurd h (by simp)
    have hnb : n = body.length := by omega
    subst hnb
    simp at h
    refine ⟨⟨a, h.symm⟩, by simp, ?_⟩
    rw [drivenAfter, List.take_append_of_le_length (by omega), List.take_length]
    exact okRun_end hb

/-! ### Runs -/

/-- A well-timed run keeps the parts good and ends with the levels at rest. -/
theorem okRun_runOps {ops : List MicroOp} {s : State} (h : okRun s.driven ops = true) (hp : PartsGood s) :
    PartsGood (runOps ops s) ∧ (runOps ops s).driven = Driven.rest := by
  induction ops generalizing s with
  | nil => exact ⟨hp, by simpa [okRun] using h⟩
  | cons op ops ih =>
    simp only [okRun, Bool.and_eq_true] at h
    rw [runOps_cons]
    refine ih ?_ (stepOp_parts hp ?_)
    · rw [stepOp_driven]; exact h.2
    · have := h.1
      simp only [opOk, Bool.and_eq_true] at this
      exact this.1.1

theorem runSteps_zero (s : State) : runSteps 0 s = .next s := rfl

/-- One step, then the others. -/
theorem runSteps_unfold (k : Nat) (s : State) : runSteps (k + 1) s =
    (match step s with
      | .next t => runSteps k t
      | .fault r => .fault r
      | .refused r => .refused r : Host.Outcome State Fault Refusal) := by
  unfold runSteps
  cases h : step s <;> simp only [Host.Core.run, show Sys2Proof.core.step s = step s from rfl, h] <;> rfl

theorem runSteps_succ {s t : State} (h : step s = .next t) (k : Nat) : runSteps (k + 1) s = runSteps k t := by
  rw [runSteps_unfold, h]

theorem runSteps_one {s t : State} (h : step s = .next t) : runSteps 1 s = .next t := by
  rw [runSteps_succ h, runSteps_zero]

theorem runSteps_add {s t : State} {k : Nat} (h : runSteps k s = .next t) (m : Nat) :
    runSteps (k + m) s = runSteps m t := by
  induction k generalizing s with
  | zero =>
    rw [runSteps_zero] at h
    injection h with h
    rw [h, Nat.zero_add]
  | succ k ih =>
    rw [Nat.add_right_comm, runSteps_unfold]
    rw [runSteps_unfold] at h
    cases hs : step s with
    | next u => rw [hs] at h; exact ih h
    | fault r => rw [hs] at h; exact absurd h (by simp)
    | refused r => rw [hs] at h; exact absurd h (by simp)

/-! ### The stepwise run of a request -/

/-- With the host silent, a step is an engine step. -/
theorem step_silent {s : State} (hv : s.cfg.valid = true) (hs : s.script = []) : step s = tick s := by
  simp [step, hv, stepValid, hs]

/-- The step at a position that is no wait. -/
theorem tick_op {s : State} {p : InProgress} (he : s.engine = .busy p) {op : MicroOp}
    (hop : (program s.cfg p.req)[p.pos]? = some op) (hw : ∀ d, op ≠ .wait d) : tick s = .next (stepOp s op) := by
  unfold tick
  simp only [he, hop]

theorem tick_wait {s : State} {p : InProgress} (he : s.engine = .busy p) {d : Delay}
    (hop : (program s.cfg p.req)[p.pos]? = some (.wait d)) : tick s = .next (tickWait d s) := by
  simp [tick, he, hop]

/-- A wait that has begun ends (70_reset_and_hazards R164). -/
theorem wait_ends {s : State} {p : InProgress} (he : s.engine = .busy p) {d : Delay} (n : Nat) (hw : s.waiting = some n)
    (hop : (program s.cfg p.req)[p.pos]? = some (.wait d)) (hv : s.cfg.valid = true) (hs : s.script = []) :
    ∃ k, runSteps k s = .next (advance { s with waiting := none }) := by
  induction n generalizing s with
  | zero =>
    refine ⟨1, runSteps_one ?_⟩
    rw [step_silent hv hs, tick_wait he hop]
    simp [tickWait, hw]
  | succ n ih =>
    obtain ⟨k, hk⟩ := ih (s := { s with waiting := some n }) he rfl hop hv hs
    refine ⟨k + 1, ?_⟩
    rw [runSteps_succ (t := { s with waiting := some n })]
    · exact hk
    · rw [step_silent hv hs, tick_wait he hop]
      simp [tickWait, hw]

theorem stepOp_waiting {s : State} (h : s.waiting = none) (op : MicroOp) : (stepOp s op).waiting = none := by
  cases op <;> simp [stepOp, runOp, h]

/-- Each step of pseudocode is reached by engine steps. -/
theorem op_done {s : State} {p : InProgress} (he : s.engine = .busy p) {op : MicroOp} (hw : s.waiting = none)
    (hop : (program s.cfg p.req)[p.pos]? = some op) (hv : s.cfg.valid = true) (hs : s.script = []) :
    ∃ k, runSteps k s = .next (stepOp s op) := by
  by_cases hwait : ∃ d, op = .wait d
  · obtain ⟨d, rfl⟩ := hwait
    obtain ⟨u, hu⟩ : ∃ u, u = { drawWait s with waiting := some (waitCycles s.cfg d s.draws.wait) } := ⟨_, rfl⟩
    have h1 : step s = .next u := by
      rw [step_silent hv hs, tick_wait he hop, hu]
      simp [tickWait, hw, drawWait]
    obtain ⟨k, hk⟩ := wait_ends (s := u) (p := p) (by rw [hu]; exact he) _ (by rw [hu]) (by rw [hu]; exact hop)
      (by rw [hu]; exact hv) (by rw [hu]; exact hs)
    refine ⟨k + 1, ?_⟩
    rw [runSteps_succ h1, hk, hu]
    congr 1
    have : { drawWait s with waiting := none } = drawWait s := by simp [drawWait, ← hw]
    simp only [this]
    rfl
  · refine ⟨1, runSteps_one ?_⟩
    rw [step_silent hv hs, tick_op he hop (fun d e => hwait ⟨d, e⟩)]

/-- What is left of a request's pseudocode, run by engine steps, ends where running it whole ends. -/
theorem stepwise_rest {i : Instr} (hi : i.isRequest = true) (ops : List MicroOp) {s : State} {n : Nat} {v : Option Byte}
    (he : s.engine = .busy ⟨i, n, v⟩) (hw : s.waiting = none) (hops : (program s.cfg i).drop n = ops)
    (hv : s.cfg.valid = true) (hs : s.script = []) : ∃ k, runSteps k s = .next (runOps ops s) := by
  induction ops generalizing s n v with
  | nil => exact ⟨0, rfl⟩
  | cons op ops ih =>
    have hop : (program s.cfg i)[n]? = some op := by
      have := congrArg (fun l => l[0]?) hops
      simpa using this
    obtain ⟨k, hk⟩ := op_done he hw hop hv hs
    have hdrop : (program s.cfg i).drop (n + 1) = ops := by
      rw [← List.drop_drop, hops]; rfl
    rw [runOps_cons]
    rcases program_at hi hop with ⟨⟨a, rfl⟩, hlen, _⟩ | ⟨hok, _⟩
    · have : ops = [] := by
        rw [← hdrop, List.drop_eq_nil_iff]; omega
      subst this
      exact ⟨k, hk⟩
    · have hnc : isComplete op = false := by
        simp only [opOk, Bool.and_eq_true] at hok
        simpa using hok.1.2
      obtain ⟨v', hv'⟩ := stepOp_busy he hnc
      obtain ⟨m, hm⟩ := ih (s := stepOp s op) (n := n + 1) (v := v') hv' (stepOp_waiting hw op)
        (by rw [stepOp_cfg]; exact hdrop) (by rw [stepOp_cfg]; exact hv) (by rw [stepOp_script]; exact hs)
      exact ⟨k + m, by rw [runSteps_add hk, hm]⟩

end Sys2Proof.Machine
end

