-- ==== Sys2Proof/Laws/Requests.lean ====
section
/-! SUPPORT. Carrying a request out from an IDLE block: what its completion leaves, in terms of what its pseudocode left. -/

namespace Sys2Proof.Machine

theorem accept_trace (i : Instr) (s : State) : (accept i s).trace = s.trace := rfl
theorem accept_completions (i : Instr) (s : State) : (accept i s).completions = s.completions := rfl

/-- A request whose pseudocode kept the build, the script and the completions has completed. -/
theorem completed_of {s u : State} {d : Byte} {e : Bool} (hc : u.cfg = s.cfg) (hs : u.script = s.script)
    (hr : u.completionsRev = s.completionsRev) : Completed s (complete d e u) { data := d, err := e } :=
  ⟨rfl, rfl, rfl, by simp [State.completions, hr], hc, hs⟩

/-- A rejection on an IDLE block. -/
theorem rejected_accept (i : Instr) (e : ErrCode) (s : State) : Rejected s (raiseError e (accept i s)) e :=
  ⟨completed_of rfl rfl rfl, rfl, fun _ => rfl, ⟨rfl, rfl, rfl⟩, rfl, rfl⟩

theorem rejected_illegal (s : State) : Rejected s (raiseError .illegalRequest s) .illegalRequest :=
  ⟨completed_of rfl rfl rfl, rfl, fun _ => rfl, ⟨rfl, rfl, rfl⟩, rfl, rfl⟩

/-- A request that writes one byte to the bus. -/
theorem busWrite_request (rs : Bool) (b : Byte) (i : Instr) {s : State} (h : s.engine = .idle) :
    ∃ t, carryOut i none (busWriteOps rs b ++ [.complete .zero]) s = .next t ∧
      Completed s t { data := 0x00, err := false } ∧
      t.lines = { s.lines with rs := rs, rw := false, en := false, dbOut := b } ∧
      t.trace = s.trace ++ [{ rs := rs, rw := false, cs := s.lines.cs, db := b }] ∧
      t.ctrl = s.ctrl ∧ t.seq = s.seq ∧ SameFb s t ∧
      t.panel = (panelLatch b (onLines (Lines.writing rs b) s)).panel := by
  refine ⟨_, carryOut_idle _ _ h, ?_⟩
  have hs := busWrite_sent rs b (accept i s)
  have hl := busWrite_lines rs b (accept i s)
  have hq := busWrite_seq rs b (accept i s)
  have hp := busWrite_panel rs b (accept i s)
  rw [runOps_complete]
  obtain ⟨u, hu⟩ : ∃ u, u = runOps (busWriteOps rs b) (accept i s) := ⟨_, rfl⟩
  rw [← hu] at hs hl hq hp ⊢
  refine ⟨completed_of hs.cfg hs.script hs.completionsRev, hl, hs.trace, hs.ctrl, hq,
    fun a => fbRead_congr hs.fb a, ?_⟩
  rw [complete_panel, hp]
  exact (panelLatch_congr (by constructor <;> rfl) b).1

/-- A REFRESH carried out from an IDLE, Initialized block. -/
theorem refresh_request {s : State} (h : s.engine = .idle) (hi : s.ctrl.init = true) :
    ∃ u, Refreshed (accept .refresh s) u ∧ u = runOps (refreshOps s.cfg) (accept .refresh s) ∧
      execRefresh s = .next (complete 0x00 false u) := by
  refine ⟨_, refresh_does (accept .refresh s), rfl, ?_⟩
  have : needsInit s = none := by simp [needsInit, hi]
  rw [execRefresh, this, carryOut_idle _ _ h, refreshProgram, runOps_complete]
  rfl

/-- A CLEAR carried out from an IDLE, Initialized block: the framebuffer zeroed, then the refresh sequence. -/
theorem clear_request {s : State} (h : s.engine = .idle) (hi : s.ctrl.init = true) :
    ∃ z u, z = stepOp (accept .clear s) (.fbFill 0x00) ∧ Refreshed z u ∧ u = runOps (refreshOps s.cfg) z ∧
      execClear s = .next (complete 0x00 false u) := by
  refine ⟨stepOp (accept .clear s) (.fbFill 0x00), _, rfl, refresh_does _, ?_, ?_⟩
  · rw [stepOp_cfg]; rfl
  · have : needsInit s = none := by simp [needsInit, hi]
    rw [execClear, this, carryOut_idle _ _ h, clearProgram, List.cons_append, runOps_cons, runOps_complete, stepOp_cfg]
    rfl

end Sys2Proof.Machine
end

