-- ==== Sys2Proof/Laws/Step.lean ====
section
/-! SUPPORT. Everything a step, an engine step and a meaning can answer: the case lemmas that statements over all states and instructions go through. -/

namespace Sys2Proof.Machine

/-! ### Decoded words -/

/-- A word that decodes is some row's word, and decodes to that row's instruction. -/
theorem decodeRequest_some {w : Word} {i : Instr} (h : decodeRequest w = some i) :
    ∃ r ∈ requestRows, r.holds w = true ∧ i = r.instr (addrField w) (dataField w) := by
  unfold decodeRequest at h
  rw [Option.map_eq_some_iff] at h
  obtain ⟨r, hr, rfl⟩ := h
  exact ⟨r, List.mem_of_find?_eq_some hr, by simpa using List.find?_some hr, rfl⟩

/-- A request word decodes to a request. -/
theorem decodeRequest_isRequest {w : Word} {i : Instr} (h : decodeRequest w = some i) : i.isRequest = true := by
  obtain ⟨r, hr, _, rfl⟩ := decodeRequest_some h
  simp only [requestRows, List.mem_cons, List.not_mem_nil, or_false] at hr
  rcases hr with rfl | rfl | rfl | rfl | rfl | rfl | rfl | rfl | rfl | rfl | rfl | rfl | rfl <;> rfl

/-! ### Checks -/

theorem inFb_none {a : BitVec 12} : inFb a = none ↔ a.toNat < 1536 := by
  unfold inFb
  split
  · rename_i h; simp only [fbBytes] at h; simpa using h
  · rename_i h; simp only [fbBytes] at h; simpa using h

theorem inFb_some {a : BitVec 12} (h : 1536 ≤ a.toNat) : inFb a = some .fbRange := by
  unfold inFb; exact if_pos h

theorem needsInit_eq (s : State) : needsInit s = if s.ctrl.init then none else some .notInitialized := rfl
theorem needsUninit_eq (s : State) : needsUninit s = if s.ctrl.init then some .alreadyInitialized else none := rfl

/-- The check looks at CTRL.INIT alone. -/
theorem check_congr (i : Instr) {s t : State} (h : s.ctrl.init = t.ctrl.init) : check i s = check i t := by
  cases i <;> simp [check, needsInit, needsUninit, h]

/-- A request whose check passes has its address inside the framebuffer. -/
theorem check_addressGood {i : Instr} {s : State} (h : check i s = none) : addressGood i := by
  cases i <;> try trivial
  all_goals exact inFb_none.mp h

/-! ### Meanings -/

/-- A meaning is a request carried out, or a panel command on the chips reached. -/
theorem exec_cases (i : Instr) (s : State) :
    (i.isRequest = true ∧ exec i s = carryOut i (check i s) (program s.cfg i) s) ∨
    (i.isRequest = false ∧ ∃ f : Chip → Chip, exec i s = .next (onSelected f s) ∧ ∀ c, (f c).cells = c.cells) := by
  cases i
  case displayOn => exact .inr ⟨rfl, _, rfl, fun _ => rfl⟩
  case setColumn => exact .inr ⟨rfl, _, rfl, fun _ => rfl⟩
  case setPage => exact .inr ⟨rfl, _, rfl, fun _ => rfl⟩
  case startLine => exact .inr ⟨rfl, _, rfl, fun _ => rfl⟩
  all_goals exact .inl ⟨rfl, rfl⟩

/-- Every next state a meaning gives: a rejection, a request's pseudocode run whole, or a panel command. -/
theorem exec_next {i : Instr} {s t : State} (h : exec i s = .next t) :
    (i.isRequest = true ∧ s.engine = .idle ∧ ∃ e, check i s = some e ∧ t = raiseError e (accept i s)) ∨
    (i.isRequest = true ∧ s.engine = .idle ∧ check i s = none ∧ t = runOps (program s.cfg i) (accept i s)) ∨
    (i.isRequest = false ∧ ∃ f : Chip → Chip, t = onSelected f s ∧ ∀ c, (f c).cells = c.cells) := by
  rcases exec_cases i s with ⟨hr, e⟩ | ⟨hr, f, e, hf⟩
  · rw [e] at h
    rcases carryOut_cases i (check i s) (program s.cfg i) s with ⟨p, _, h'⟩ | ⟨hi, c, hc, h'⟩ | ⟨hi, hc, h'⟩
    · rw [h'] at h; simp at h
    · rw [h'] at h; injection h with h
      exact .inl ⟨hr, hi, c, hc, h.symm⟩
    · rw [h'] at h; injection h with h
      exact .inr (.inl ⟨hr, hi, hc, h.symm⟩)
  · rw [e] at h; injection h with h
    exact .inr (.inr ⟨hr, f, h.symm, hf⟩)

theorem program_pos (c : Config) {i : Instr} (h : i.isRequest = true) : 0 < (program c i).length := by
  obtain ⟨b, a, hp, _⟩ := program_shape c i h
  rw [hp]; simp

/-! ### Engine steps -/

/-- Every next state an engine step gives. -/
theorem tick_next {s t : State} (h : tick s = .next t) :
    (s.engine = .idle ∧ t = s) ∨
    ∃ p op, s.engine = .busy p ∧ (program s.cfg p.req)[p.pos]? = some op ∧
      ((∃ d, op = .wait d ∧ t = tickWait d s) ∨ ((∀ d, op ≠ .wait d) ∧ t = stepOp s op)) := by
  unfold tick at h
  split at h
  · injection h with h; exact .inl ⟨by assumption, h.symm⟩
  · right
    split at h
    · simp at h
    · injection h with h; exact ⟨_, _, by assumption, by assumption, .inl ⟨_, rfl, h.symm⟩⟩
    · injection h with h; exact ⟨_, _, by assumption, by assumption, .inr ⟨by assumption, h.symm⟩⟩

/-- One cycle of a wait changes the wait, the position and the count of waits drawn. -/
structure OnlyWaits (s t : State) : Prop where
  cfg            : t.cfg = s.cfg
  fb             : t.fb = s.fb
  ctrl           : t.ctrl = s.ctrl
  lines          : t.lines = s.lines
  seq            : t.seq = s.seq
  rsp            : t.rsp = s.rsp
  panel          : t.panel = s.panel
  traceRev       : t.traceRev = s.traceRev
  completionsRev : t.completionsRev = s.completionsRev
  script         : t.script = s.script

theorem tickWait_only (d : Delay) (s : State) : OnlyWaits s (tickWait d s) := by
  unfold tickWait
  split <;> constructor <;> simp

/-! ### Steps -/

/-- Every next state a step gives: a block reset; an engine step, after a pause or not; a word carried out whole; a word accepted. -/
theorem step_next {s t : State} (h : step s = .next t) :
    s.cfg.valid = true ∧
    ((∃ rest, s.script = .blockReset :: rest ∧ t = blockReset { s with script := rest }) ∨
     (∃ u, ((∃ rest, s.script = .pause :: rest ∧ u = { s with script := rest }) ∨
          ((∀ rest, s.script ≠ .blockReset :: rest) ∧ u = s)) ∧ tick u = .next t) ∨
     (∃ w rest, s.engine = .idle ∧ s.script = .request w :: rest ∧ runRequest w { s with script := rest } = .next t) ∨
     (∃ w rest, s.engine = .idle ∧ s.script = .requestStepwise w :: rest ∧ t = acceptWord w { s with script := rest })) := by
  unfold step at h
  split at h
  · rename_i hv
    refine ⟨hv, ?_⟩
    unfold stepValid at h
    split at h
    · injection h with h; exact .inl ⟨_, by assumption, h.symm⟩
    · exact .inr (.inl ⟨_, .inl ⟨_, by assumption, rfl⟩, h⟩)
    · exact .inr (.inr (.inl ⟨_, _, by assumption, by assumption, h⟩))
    · injection h with h; exact .inr (.inr (.inr ⟨_, _, by assumption, by assumption, h.symm⟩))
    · exact .inr (.inl ⟨_, .inr ⟨by assumption, rfl⟩, h⟩)
  · simp at h

/-- Every next state of a word carried out whole: a rejection, or its meaning. -/
theorem runRequest_next {w : Word} {s t : State} (h : runRequest w s = .next t) :
    (decodeRequest w = none ∧ t = raiseError .illegalRequest s) ∨ ∃ i, decodeRequest w = some i ∧ exec i s = .next t := by
  unfold runRequest at h
  split at h
  · exact .inr ⟨_, by assumption, h⟩
  · injection h with h; exact .inl ⟨by assumption, h.symm⟩

/-- What accepting a word gives: a rejection, of the word or of its request, or the request begun. -/
theorem acceptWord_cases (w : Word) (s : State) :
    (decodeRequest w = none ∧ acceptWord w s = raiseError .illegalRequest s) ∨
    (∃ i e, decodeRequest w = some i ∧ check i s = some e ∧ acceptWord w s = raiseError e (accept i s)) ∨
    (∃ i, decodeRequest w = some i ∧ check i s = none ∧ acceptWord w s = accept i s) := by
  unfold acceptWord
  split
  · exact .inl ⟨by assumption, rfl⟩
  · split
    · exact .inr (.inl ⟨_, _, by assumption, by assumption, rfl⟩)
    · exact .inr (.inr ⟨_, by assumption, by assumption, rfl⟩)

end Sys2Proof.Machine
end

