-- ==== Sys2Proof/Laws/Canonical.lean ====
section
/-! SUPPORT. Every operation on memory keeps the canonical form of the framebuffer and of the panel's cells; the kinds of step a refresh is made of. -/

namespace Sys2Proof.Machine

/-- The panel's part of the canonical form. -/
def panelWf (p : Panel) : Prop := p.chip1.cells.wf 512 = true ∧ p.chip2.cells.wf 512 = true ∧ p.chip3.cells.wf 512 = true

theorem memWf_iff (s : State) : s.memWf = true ↔ s.fb.wf 1536 = true ∧ panelWf s.panel := by
  simp [State.memWf, panelWf, fbBytes, and_assoc]

@[simp] theorem Chip.drawn_wf (k : Nat) : (Chip.drawn k).cells.wf 512 = true := rfl
theorem Chip.data_wf {c : Chip} (b : Byte) (h : c.cells.wf 512 = true) : (c.data b).cells.wf 512 = true :=
  Bank.wf_write h (cellAddr_lt _ _) b

theorem onReached_wf {p : Panel} (h : panelWf p) (n : NoneSelected) (cs : BitVec 3) (f : Nat → Chip → Chip)
    (hf : ∀ k c, c.cells.wf 512 = true → (f k c).cells.wf 512 = true) :
    panelWf (p.onReached n cs f) := by
  obtain ⟨h1, h2, h3⟩ := h
  refine ⟨?_, ?_, ?_⟩ <;> simp only [Panel.onReached] <;> split <;> first | assumption | (apply hf; assumption)

theorem panelLatch_wf {s : State} (h : panelWf s.panel) (b : Byte) : panelWf (panelLatch b s).panel := by
  have h1 : ∀ f : Chip → Chip, (∀ c, c.cells.wf 512 = true → (f c).cells.wf 512 = true) → panelWf (onSelected f s).panel :=
    fun f hf => onReached_wf h _ _ _ (fun _ => hf)
  have h2 : panelWf (scrambleSelected s).panel := onReached_wf h _ _ _ (fun k c _ => rfl)
  unfold panelLatch panelCommand
  split
  · split <;> first | exact h2 | exact h1 _ (fun c hc => hc)
  · exact h1 _ (fun c hc => Chip.data_wf b hc)
  · exact h
  · exact h2

theorem stepOp_panelWf {s : State} (h : panelWf s.panel) (op : MicroOp) : panelWf (stepOp s op).panel := by
  cases op
  case enFall =>
    simp only [stepOp, runOp, advance_panel, enFall_panel]
    exact panelLatch_wf h _
  case driveRst v =>
    simp only [stepOp, runOp, advance_panel, driveRst, onLines_panel]
    split
    · exact ⟨rfl, rfl, rfl⟩
    · exact h
  all_goals simpa [stepOp, runOp] using h

/-- A write of pseudocode stays inside the framebuffer. -/
def opInFb : MicroOp → Prop
  | .fbWrite a _ => a < 1536
  | _ => True

theorem stepOp_memWf {s : State} (h : s.memWf = true) {op : MicroOp} (hop : opInFb op) : (stepOp s op).memWf = true := by
  rw [memWf_iff] at h ⊢
  refine ⟨?_, stepOp_panelWf h.2 op⟩
  cases op
  case fbWrite a v => simpa [stepOp, runOp] using Bank.wf_write h.1 hop v
  case fbFill v => simpa [stepOp, runOp, fbBytes] using Bank.wf_fill 1536 v s.fb
  all_goals simpa [stepOp, runOp] using h.1

/-! ### The kinds of step in a refresh -/

/-- The steps a refresh sequence is made of: lines, waits, strobes, the sequencer. None writes the framebuffer or CTRL. -/
def refreshKind : MicroOp → Bool
  | .driveRs _ => true
  | .driveRw v => !v
  | .setDb _ => true
  | .setDbFromFb => true
  | .wait _ => true
  | .enRise => true
  | .enFall => true
  | .selectChip _ => true
  | .seqChip _ => true
  | .seqPage _ => true
  | .seqCol _ => true
  | .seqDone => true
  | _ => false

theorem pageOps_kind (c : Config) (p : Nat) : (pageOps c p).all refreshKind = true := by
  unfold pageOps
  simp only [List.all_append, List.all_flatMap]
  simp [busWriteOps, dataByteOps, strobeOps, refreshKind]

theorem chipOps_kind (c : Config) (k : Nat) : (chipOps c k).all refreshKind = true := by
  unfold chipOps
  simp only [List.all_append, List.all_flatMap, pageOps_kind]
  simp [busWriteOps, strobeOps, refreshKind]

theorem refreshOps_kind (c : Config) : (refreshOps c).all refreshKind = true := by
  unfold refreshOps
  simp only [List.all_append, List.all_flatMap, chipOps_kind]
  simp [busWriteOps, strobeOps, refreshKind]

theorem refreshOps_mem {c : Config} {op : MicroOp} (h : op ∈ refreshOps c) : refreshKind op = true :=
  List.all_eq_true.mp (refreshOps_kind c) op h

/-- A step of a refresh leaves the framebuffer and CTRL alone. -/
theorem refreshKind_frame {op : MicroOp} (h : refreshKind op = true) (s : State) :
    (stepOp s op).fb = s.fb ∧ (stepOp s op).ctrl = s.ctrl := by
  cases op <;> simp [refreshKind] at h <;> simp [stepOp, runOp]

/-- The writes of a request that passed its check stay inside the framebuffer. -/
theorem program_inFb (c : Config) {i : Instr} (h : addressGood i) : ∀ op ∈ program c i, opInFb op := by
  intro op ho
  have hk : ∀ op, refreshKind op = true → opInFb op := by
    intro op h; cases op <;> simp [refreshKind] at h <;> trivial
  have key : ∀ ops : List MicroOp, ops.all (fun op => match op with | .fbWrite _ _ => false | _ => true) = true →
      op ∈ ops → opInFb op := by
    intro ops hops ho
    have := List.all_eq_true.mp hops op ho
    cases op <;> trivial
  cases i
  case refresh =>
    simp only [program, refreshProgram, List.mem_append, List.mem_singleton] at ho
    rcases ho with ho | rfl
    · exact hk _ (refreshOps_mem ho)
    · trivial
  case clear =>
    simp only [program, clearProgram, List.cons_append, List.mem_cons, List.mem_append, List.not_mem_nil, or_false] at ho
    rcases ho with rfl | ho | rfl
    · trivial
    · exact hk _ (refreshOps_mem ho)
    · trivial
  case fbwr a v =>
    simp only [program, fbwrProgram, List.mem_cons, List.not_mem_nil, or_false] at ho
    rcases ho with rfl | rfl
    · exact h
    · trivial
  all_goals exact key _ rfl ho

/-- A run of pseudocode whose writes stay inside the framebuffer keeps the canonical form. -/
theorem runOps_memWf {ops : List MicroOp} (hops : ∀ op ∈ ops, opInFb op) {s : State} (h : s.memWf = true) :
    (runOps ops s).memWf = true := by
  induction ops generalizing s with
  | nil => exact h
  | cons op ops ih =>
    rw [runOps_cons]
    exact ih (fun o ho => hops o (by simp [ho])) (stepOp_memWf h (hops op (by simp)))

theorem memWf_reset : State.reset.memWf = true := rfl

theorem blockReset_memWf {s : State} (h : s.memWf = true) : (blockReset s).memWf = true := by
  rw [memWf_iff] at h ⊢
  refine ⟨rfl, ?_⟩
  show panelWf (panelAfterReset s)
  unfold panelAfterReset
  split
  · split <;> exact ⟨rfl, rfl, rfl⟩
  · split
    · exact onReached_wf h.2 _ _ _ (fun _ _ _ => rfl)
    · exact h.2

end Sys2Proof.Machine
end

