-- ==== Sys2Proof/Laws/PanelView.lean ====
section
/-! SUPPORT. The display flags and start lines of the reference panel through a refresh: only the commands at its two ends touch them. -/

namespace Sys2Proof.Machine

/-- The display flags and start lines of the chips are as they were; the build and the host's side too. -/
structure SameView (s t : State) : Prop where
  cfg   : t.cfg = s.cfg
  on    : ∀ j, isChip j → (t.panel.chip j).on = (s.panel.chip j).on
  start : ∀ j, isChip j → (t.panel.chip j).start = (s.panel.chip j).start

theorem SameView.refl (s : State) : SameView s s := ⟨rfl, fun _ _ => rfl, fun _ _ => rfl⟩
theorem SameView.trans {s t u : State} (h : SameView s t) (k : SameView t u) : SameView s u :=
  ⟨k.cfg.trans h.cfg, fun j hj => (k.on j hj).trans (h.on j hj), fun j hj => (k.start j hj).trans (h.start j hj)⟩

theorem data_view {s : State} (hrs : s.lines.rs = true) (hrw : s.lines.rw = false) : SameView s (runOps dataByteOps s) := by
  refine ⟨runOps_cfg _ _, fun j hj => ?_, fun j hj => ?_⟩ <;> rw [data_panel hrs hrw hj] <;> split <;> rfl

theorem quietStep_view {s : State} {op : MicroOp} (h : (stepOp s op).panel = s.panel) : SameView s (stepOp s op) :=
  ⟨stepOp_cfg s op, fun _ _ => by rw [h], fun _ _ => by rw [h]⟩

theorem address_view {b : Byte} {i : Instr} {f : Chip → Chip} {s : State} (hd : decodePanel s.cfg.codes b = some i)
    (hf : (∃ c, i = .setColumn c ∧ f = Chip.setColumn c) ∨ (∃ p, i = .setPage p ∧ f = Chip.setPage p)) :
    SameView s (runOps (busWriteOps false b) s) := by
  have hf' := Or.inr (a := i = .displayOn ∧ f = Chip.displayOn) (hf.imp_right (Or.inl (b := ∃ l, i = .startLine l ∧ f = Chip.startLine l)))
  have hk : ∀ c, (f c).on = c.on ∧ (f c).start = c.start := by
    rcases hf with ⟨_, _, rfl⟩ | ⟨_, _, rfl⟩ <;> exact fun _ => ⟨rfl, rfl⟩
  refine ⟨runOps_cfg _ _, fun j hj => ?_, fun j hj => ?_⟩ <;> rw [command_panel hd hf' hj] <;> split
  · exact (hk _).1
  · rfl
  · exact (hk _).2
  · rfl

theorem page_view {s : State} (hcodes : s.cfg.codes = CmdCodes.default) (p : Nat) : SameView s (runOps (pageOps s.cfg p) s) := by
  obtain ⟨b, hb⟩ : ∃ b, b = commandByte s.cfg.codes.setPage (BitVec.ofNat 3 p) := ⟨_, rfl⟩
  have hb' : b = commandByte CmdCodes.default.setPage (BitVec.ofNat 3 p) := by rw [hb, hcodes]
  obtain ⟨s1, e1⟩ : ∃ u, u = stepOp s (.seqPage (BitVec.ofNat 3 p)) := ⟨_, rfl⟩
  obtain ⟨s2, e2⟩ : ∃ u, u = runOps (busWriteOps false b) s1 := ⟨_, rfl⟩
  obtain ⟨s3, e3⟩ : ∃ u, u = runOps [.driveRs true, .driveRw false] s2 := ⟨_, rfl⟩
  have e : runOps (pageOps s.cfg p) s = runOps (dataOps 64) s3 := by
    simp only [pageOps, cols, dataOps, List.cons_append, runOps_cons, runOps_append, e3, e2, e1, hb, runOps_nil]
  have v1 : SameView s s1 := e1 ▸ quietStep_view (by simp [stepOp, runOp])
  have v2 : SameView s1 s2 := e2 ▸ address_view (i := .setPage (BitVec.ofNat 3 p))
    (by rw [v1.cfg, hcodes, hb', decodePanel_setPage]) (.inr ⟨_, rfl, rfl⟩)
  have v3 : SameView s2 s3 := by
    rw [e3, runOps_cons, runOps_cons, runOps_nil]
    exact (quietStep_view (by simp [stepOp, runOp])).trans (quietStep_view (by simp [stepOp, runOp]))
  have l3 : s3.lines.rs = true ∧ s3.lines.rw = false := by simp [e3, stepOp, runOp]
  rw [e]
  refine ((v1.trans v2).trans v3).trans ?_
  refine (runOps_range (P := fun _ t => SameView s3 t ∧ t.lines.rs = true ∧ t.lines.rw = false) 64 _ s3
    ⟨SameView.refl _, l3⟩ ?_).1
  intro k _ t ⟨hv, hrs, hrw⟩
  rw [runOps_cons]
  obtain ⟨t1, et⟩ : ∃ u, u = stepOp t (.seqCol (BitVec.ofNat 6 k)) := ⟨_, rfl⟩
  have lt : t1.lines = t.lines := by rw [et, seqCol_lines]
  rw [← et]
  refine ⟨hv.trans ((et ▸ quietStep_view (by simp [stepOp, runOp])).trans (data_view (by rw [lt]; exact hrs) (by rw [lt]; exact hrw))), ?_, ?_⟩ <;>
    rw [dataByte_lines, lt]
  · exact hrs
  · exact hrw

theorem chip_view {s : State} (hcodes : s.cfg.codes = CmdCodes.default) (chip : Nat) :
    SameView s (runOps (chipOps s.cfg chip) s) := by
  obtain ⟨b, hb⟩ : ∃ b, b = commandByte s.cfg.codes.setColumn (0 : BitVec 6) := ⟨_, rfl⟩
  have hb' : b = commandByte CmdCodes.default.setColumn (0 : BitVec 6) := by rw [hb, hcodes]
  obtain ⟨s1, e1⟩ : ∃ u, u = runOps [.seqChip (BitVec.ofNat 2 chip), .selectChip (BitVec.ofNat 8 chip)] s := ⟨_, rfl⟩
  obtain ⟨s2, e2⟩ : ∃ u, u = runOps (busWriteOps false b) s1 := ⟨_, rfl⟩
  have e : runOps (chipOps s.cfg chip) s = runOps ((List.range 8).flatMap (pageOps s.cfg)) s2 := by
    simp only [chipOps, pages, runOps_append, e2, e1, hb]
  have v1 : SameView s s1 := by
    rw [e1, runOps_cons, runOps_cons, runOps_nil]
    exact (quietStep_view (by simp [stepOp, runOp])).trans (quietStep_view (by simp [stepOp, runOp]))
  have v2 : SameView s1 s2 := e2 ▸ address_view (i := .setColumn 0)
    (by rw [v1.cfg, hcodes, hb', decodePanel_setColumn]) (.inl ⟨_, rfl, rfl⟩)
  rw [e]
  refine runOps_range (P := fun _ t => SameView s t) 8 _ s2 (v1.trans v2) ?_
  intro k _ t hv
  rw [← hv.cfg]
  exact hv.trans (page_view (by rw [hv.cfg]; exact hcodes) k)

/-- The display flags and start lines after a refresh (70_reset_and_hazards R155, R156). -/
theorem refresh_view (s : State) (hcodes : s.cfg.codes = CmdCodes.default) {j : Nat} (hj : isChip j) :
    ((runOps (refreshOps s.cfg) s).panel.chip j).on = ((s.panel.chip j).on || j == 3) ∧
    ((runOps (refreshOps s.cfg) s).panel.chip j).start =
      if reaches s.cfg.noneSelected s.lines.cs j then 0 else (s.panel.chip j).start := by
  obtain ⟨b, hb⟩ : ∃ b, b = commandByte s.cfg.codes.startLine (0 : BitVec 6) := ⟨_, rfl⟩
  have hb' : b = commandByte CmdCodes.default.startLine (0 : BitVec 6) := by rw [hb, hcodes]
  obtain ⟨s1, e1⟩ : ∃ u, u = runOps (busWriteOps false b) s := ⟨_, rfl⟩
  obtain ⟨s2, e2⟩ : ∃ u, u = runOps (chipOps s.cfg 1) s1 := ⟨_, rfl⟩
  obtain ⟨s3, e3⟩ : ∃ u, u = runOps (chipOps s.cfg 2) s2 := ⟨_, rfl⟩
  obtain ⟨s4, e4⟩ : ∃ u, u = runOps (chipOps s.cfg 3) s3 := ⟨_, rfl⟩
  obtain ⟨s5, e5⟩ : ∃ u, u = runOps (busWriteOps false s.cfg.codes.displayOn) s4 := ⟨_, rfl⟩
  have e : runOps (refreshOps s.cfg) s = stepOp s5 .seqDone := by
    rw [refreshOps_eq, runOps_append, runOps_append, runOps_append, runOps_append, runOps_append, ← hb, ← e1, ← e2, ← e3,
      ← e4, ← e5, runOps_cons, runOps_nil]
  have c1 : s1.cfg = s.cfg := by rw [e1, runOps_cfg]
  have v2 : SameView s1 s2 := by rw [e2, ← c1]; exact chip_view (by rw [c1]; exact hcodes) 1
  have c2 : s2.cfg = s.cfg := v2.cfg.trans c1
  have v3 : SameView s2 s3 := by rw [e3, ← c2]; exact chip_view (by rw [c2]; exact hcodes) 2
  have c3 : s3.cfg = s.cfg := v3.cfg.trans c2
  have v4 : SameView s3 s4 := by rw [e4, ← c3]; exact chip_view (by rw [c3]; exact hcodes) 3
  have c4 : s4.cfg = s.cfg := v4.cfg.trans c3
  have hv := (v2.trans v3).trans v4
  have hcs : s4.lines.cs = csOf 3 := by
    have := (chip_sent (chip := 3) (by simp) (s := s3)).sel
    rw [c3, ← e4] at this
    simp [Lines.cs, this, csOf]
  have p1 := command_panel (b := b) (i := .startLine 0) (f := Chip.startLine 0) (s := s)
    (by rw [hcodes, hb', decodePanel_startLine]) (by simp) hj
  have p5 := command_panel (b := s.cfg.codes.displayOn) (i := .displayOn) (f := Chip.displayOn) (s := s4)
    (by rw [c4, hcodes, decodePanel_displayOn]) (by simp) hj
  rw [← e1] at p1
  rw [← e5, hcs, reaches_csOf _ (by simp [isChip]) hj] at p5
  have p6 : (stepOp s5 .seqDone).panel = s5.panel := by simp [stepOp, runOp]
  rw [e, p6, p5]
  constructor
  · have : (s4.panel.chip j).on = (s.panel.chip j).on := by
      rw [hv.on j hj, p1]; split <;> rfl
    by_cases h3 : j = 3
    · subst h3; simp [Chip.displayOn]
    · have : (j == 3) = false := by simpa using h3
      simp_all
  · have : (s4.panel.chip j).start = if reaches s.cfg.noneSelected s.lines.cs j then 0 else (s.panel.chip j).start := by
      rw [hv.start j hj, p1]; split <;> rfl
    split
    · exact this
    · exact this

end Sys2Proof.Machine
end

