-- ==== Sys2Proof/Laws/PerInstr.lean ====
section
/-! SUPPORT. Per instruction: which of the two formats of the opcode table its encoding has, and that a request word keeps to its format (30_encoding R65, R69, R75). -/

namespace Sys2Proof.Laws

/-- A request encodes to a word with RSV = 0 and an OP that is not reserved; a panel command encodes to a byte. -/
def Format.Statement (i : Instr) : Prop :=
  ∀ c : CmdCodes,
    (i.isRequest = true ∧ ∃ w, encode c i = .request w ∧ rsvField w = 0 ∧
      opField w ≠ 0x0 ∧ opField w ≠ 0xE ∧ opField w ≠ 0xF) ∨
    (i.isRequest = false ∧ ∃ b, encode c i = .panel b)

/-- A word made by `requestWord` from an OP that is not reserved. -/
theorem requestWord_format (op : BitVec 4) (a : BitVec 12) (d : Byte) (h : op ≠ 0x0 ∧ op ≠ 0xE ∧ op ≠ 0xF) :
    rsvField (requestWord op a d) = 0 ∧ opField (requestWord op a d) ≠ 0x0 ∧ opField (requestWord op a d) ≠ 0xE ∧
    opField (requestWord op a d) ≠ 0xF := by
  rw [requestWord_eq, rsvField_fieldsWord, opField_fieldsWord]
  exact ⟨rfl, h⟩

theorem Format.wrcmd (b : Byte) : Format.Statement (.wrcmd b) := fun _ => .inl ⟨rfl, _, rfl, requestWord_format _ _ _ (by decide)⟩
theorem Format.wrdata (b : Byte) : Format.Statement (.wrdata b) := fun _ => .inl ⟨rfl, _, rfl, requestWord_format _ _ _ (by decide)⟩
theorem Format.rdstat : Format.Statement (.rdstat) := fun _ => .inl ⟨rfl, _, rfl, requestWord_format _ _ _ (by decide)⟩
theorem Format.selchip (c : Byte) : Format.Statement (.selchip c) := fun _ => .inl ⟨rfl, _, rfl, requestWord_format _ _ _ (by decide)⟩
theorem Format.preset : Format.Statement (.preset) := fun _ => .inl ⟨rfl, _, rfl, requestWord_format _ _ _ (by decide)⟩
theorem Format.init : Format.Statement (.init) := fun _ => .inl ⟨rfl, _, rfl, requestWord_format _ _ _ (by decide)⟩
theorem Format.clear : Format.Statement (.clear) := fun _ => .inl ⟨rfl, _, rfl, requestWord_format _ _ _ (by decide)⟩
theorem Format.setorient (r : Bool) : Format.Statement (.setorient r) := fun _ => .inl ⟨rfl, _, rfl, requestWord_format _ _ _ (by decide)⟩
theorem Format.refresh : Format.Statement (.refresh) := fun _ => .inl ⟨rfl, _, rfl, requestWord_format _ _ _ (by decide)⟩
theorem Format.fbwr (a : BitVec 12) (v : Byte) : Format.Statement (.fbwr a v) := fun _ => .inl ⟨rfl, _, rfl, requestWord_format _ _ _ (by decide)⟩
theorem Format.fbrd (a : BitVec 12) : Format.Statement (.fbrd a) := fun _ => .inl ⟨rfl, _, rfl, requestWord_format _ _ _ (by decide)⟩
theorem Format.fbfill (v : Byte) : Format.Statement (.fbfill v) := fun _ => .inl ⟨rfl, _, rfl, requestWord_format _ _ _ (by decide)⟩
theorem Format.rdctrl : Format.Statement (.rdctrl) := fun _ => .inl ⟨rfl, _, rfl, requestWord_format _ _ _ (by decide)⟩
theorem Format.displayOn : Format.Statement (.displayOn) := fun _ => .inr ⟨rfl, _, rfl⟩
theorem Format.setColumn (c : BitVec 6) : Format.Statement (.setColumn c) := fun _ => .inr ⟨rfl, _, rfl⟩
theorem Format.setPage (p : BitVec 3) : Format.Statement (.setPage p) := fun _ => .inr ⟨rfl, _, rfl⟩
theorem Format.startLine (l : BitVec 6) : Format.Statement (.startLine l) := fun _ => .inr ⟨rfl, _, rfl⟩

end Sys2Proof.Laws
end

