-- ==== Sys2Proof/Tests/Slice0.lean ====
section
/-! SUPPORT. The model's own tests, each with its source in the spec, and a witness for the hypotheses of every statement that has any. -/

open Sys2Proof Sys2Proof.Machine

namespace Sys2Proof.Tests

/-! ## Well-formedness: ill-formed terms that the checks refuse -/

/-- 10_state R30: two lines on one pin. -/
theorem test_wf_duplicate_pin : PinMap.valid ((.rs, 1) :: (.rw, 1) :: Config.plainPinMap.drop 2) = false := by decide
/-- 10_state R30: a line left unbound. -/
theorem test_wf_unbound_line : PinMap.valid (Config.plainPinMap.drop 1) = false := by decide
/-- 10_state R29: a line bound twice. -/
theorem test_wf_line_bound_twice : PinMap.valid ((.rs, 99) :: Config.plainPinMap) = false := by decide
theorem test_wf_plain_pin_map : PinMap.valid Config.plainPinMap = true := by decide
/-- 30_encoding R73: operands outside the ranges. -/
theorem test_wf_pseudo_ranges : Pseudo.inRange (.setstart 64) = false ∧ Pseudo.inRange (.setpage 8) = false ∧
    Pseudo.inRange (.setcol 64) = false ∧ Pseudo.inRange (.setcol 63) = true := by decide
/-- 30_encoding R75: a panel command byte is no host request. -/
theorem test_wf_panel_command_is_no_request : Instr.isRequest (.setColumn 0) = false ∧ Instr.isRequest .refresh = true := by decide

/-! ## Decoding: words written out bit by bit from 30_encoding R65, R66 and R75 -/

theorem test_decode_wrcmd : decodeRequest 0b0001_000000000000_00000000_10111000 = some (.wrcmd 0xB8) := by decide
theorem test_decode_wrdata : decodeRequest 0b0010_000000000000_00000000_01000111 = some (.wrdata 0x47) := by decide
theorem test_decode_rdstat : decodeRequest 0b0011_000000000000_00000000_00000000 = some .rdstat := by decide
theorem test_decode_selchip : decodeRequest 0b0100_000000000000_00000000_00000111 = some (.selchip 7) := by decide
theorem test_decode_preset : decodeRequest 0b0101_000000000000_00000000_00000000 = some .preset := by decide
theorem test_decode_init : decodeRequest 0b0110_000000000000_00000000_00000000 = some .init := by decide
theorem test_decode_clear : decodeRequest 0b0111_000000000000_00000000_00000000 = some .clear := by decide
theorem test_decode_setorient : decodeRequest 0b1000_000000000000_00000000_00000001 = some (.setorient true) ∧
    decodeRequest 0b1000_000000000000_00000000_00000000 = some (.setorient false) := by decide
theorem test_decode_refresh : decodeRequest 0b1001_000000000000_00000000_00000000 = some .refresh := by decide
theorem test_decode_fbwr : decodeRequest 0b1010_000000000101_00000000_10101010 = some (.fbwr 5 0xAA) := by decide
theorem test_decode_fbrd : decodeRequest 0b1011_010111111111_00000000_00000000 = some (.fbrd 1535) := by decide
theorem test_decode_fbfill : decodeRequest 0b1100_000000000000_00000000_10110000 = some (.fbfill 0xB0) := by decide
theorem test_decode_rdctrl : decodeRequest 0b1101_000000000000_00000000_00000000 = some .rdctrl := by decide
theorem test_decode_panel : decodePanel CmdCodes.default 0b00111111 = some .displayOn ∧
    decodePanel CmdCodes.default 0b01001010 = some (.setColumn 10) ∧
    decodePanel CmdCodes.default 0b10111011 = some (.setPage 3) ∧
    decodePanel CmdCodes.default 0b11000101 = some (.startLine 5) := by decide
/-- The illegal words of 95_test_vectors section 2.6. -/
theorem test_decode_illegal : [0x1001003F, 0x10000100, 0x30000001, 0x800000FF, 0x90000001, 0x70000001, 0x00000000,
    0xE0000000, 0xF0000000, 0xB5FF0001, 0xC0010000, 0x80000002].all (fun w => decodeRequest w == none) = true := by decide
/-- The last word of 30_encoding R83 has ADDR = 0x006 by R65 (log 27); 95 section 2.6 gives the word with ADDR = 0x600. -/
theorem test_decode_r83_last_word : decodeRequest 0xA0060000 = some (.fbwr 6 0) ∧
    decodeRequest 0xA6000000 = some (.fbwr 1536 0) := by decide
theorem test_encode_words : encode CmdCodes.default (.fbwr 5 0xAA) = .request 0xA00500AA ∧
    encode CmdCodes.default (.setorient true) = .request 0x80000001 ∧
    encode CmdCodes.default (.setPage 7) = .panel 0xBF := by decide

/-! ## Assembler lines (30_encoding R72, R73) -/

theorem test_asm_fbwr : assembleLine CmdCodes.default
    ['F', 'B', 'W', 'R', ' ', '5', ',', ' ', '0', 'x', 'A', 'A', ' ', ';', ' ', 'x'] = .request (.fbwr 5 0xAA) := by decide
theorem test_asm_binary : assembleLine CmdCodes.default
    ['F', 'B', 'F', 'I', 'L', 'L', ' ', '0', 'b', '1', '0', '1', '1', '0', '0', '0', '0'] = .request (.fbfill 0xB0) := by decide
theorem test_asm_range : assembleLine CmdCodes.default ['S', 'E', 'T', 'P', 'A', 'G', 'E', ' ', '8'] = .error := by decide
theorem test_asm_comment : assembleLine CmdCodes.default [' ', ';', 'R', 'D', 'S', 'T', 'A', 'T'] = .blank := by decide

/-! ## Steps -/

/-- The state after block reset, on a build whose open parameters have values. -/
def demo (n : NoneSelected) : State := { State.reset with cfg := { Config.build with noneSelected := n, fClkHz := 0 } }
/-- The same, with the lifecycle flag set. -/
def ready (n : NoneSelected) : State := { demo n with ctrl := { Ctrl.reset with init := true } }
/-- The same, with chip `k` selected. -/
def selected (k : Nat) (s : State) : State := { s with lines := selectLines (BitVec.ofNat 8 k) s.lines }
/-- The next state, or the state itself where there is none. -/
def next (o : Host.Outcome State Fault Refusal) (s : State) : State :=
  match o with
  | .next t => t
  | _ => s
/-- The state after an instruction. -/
def after (i : Instr) (s : State) : State := next (exec i s) s
/-- The state after the machine's next step with the host presenting `w`. -/
def afterWord (w : Word) (s : State) : State := next (step { s with script := [.request w] }) s

/-- 95 section 2.8 T1. -/
theorem test_reset_T1 : ctrlReg State.reset = 0x00 ∧ busWord State.reset = 0x4700 := by decide
/-- 95 B1. -/
theorem test_wrcmd_B1 :
    (after (.wrcmd 0xB8) (selected 1 (demo .ignore))).trace = [⟨false, false, 0b110, 0xB8⟩] ∧
    ctrlReg (after (.wrcmd 0xB8) (selected 1 (demo .ignore))) = 0x40 ∧
    busWord (after (.wrcmd 0xB8) (selected 1 (demo .ignore))) = 0x46B8 := by decide
/-- 95 B2. -/
theorem test_wrdata_B2 :
    (after (.wrdata 0x47) (selected 3 (demo .ignore))).trace = [⟨true, false, 0b011, 0x47⟩] ∧
    busWord (after (.wrdata 0x47) (selected 3 (demo .ignore))) = 0x6347 := by decide
/-- 95 B4, B5: the lines after a status read, and after the write that follows. -/
theorem test_rdstat_B4 :
    busWord (after .rdstat (demo .ignore)) = 0x5700 ∧
    busWord (after (.wrcmd 0x3F) (after .rdstat (demo .ignore))) = 0x473F := by decide
/-- 95 B9, B10. -/
theorem test_selchip_B10 : (after (.selchip 255) (selected 1 (demo .ignore))).lines.cs = 0b111 ∧
    (after (.selchip 2) (demo .ignore)).lines.cs = 0b101 ∧
    (after (.selchip 4) (selected 1 (demo .ignore))).ctrl.err = false := by decide
/-- 95 B12. -/
theorem test_preset_B12 : busWord (after .preset (demo .ignore)) = 0x4700 ∧ (after .preset (demo .ignore)).trace = [] := by decide
/-- 95 B15. -/
theorem test_illegal_B15 : ctrlReg (afterWord 0x10010000 (demo .ignore)) = 0x0C ∧
    (afterWord 0x10010000 (demo .ignore)).rsp = ⟨0x00, true⟩ := by decide
/-- 95 D1. -/
theorem test_init_D1 : (after .init (demo .ignore)).trace = [⟨false, false, 0b111, 0xC0⟩, ⟨false, false, 0b111, 0x3F⟩] ∧
    ctrlReg (after .init (demo .ignore)) = 0x01 := by decide
/-- 95 D2. -/
theorem test_init_D2 : ctrlReg (after .init (ready .ignore)) = 0x25 ∧ (after .init (ready .ignore)).trace = [] := by decide
/-- 95 D4, D6, D7. -/
theorem test_setorient_D4 : ctrlReg (after (.setorient true) (ready .ignore)) = 0x03 ∧
    ctrlReg (after (.setorient false) (after (.setorient true) (ready .ignore))) = 0x01 ∧
    ctrlReg (after (.setorient true) (demo .ignore)) = 0x02 := by decide
/-- 95 D9, D10. -/
theorem test_refresh_D9 : ctrlReg (after .refresh (demo .ignore)) = 0x1C ∧ (after .refresh (demo .ignore)).trace = [] := by decide
theorem test_clear_D10 : ctrlReg (after .clear (demo .ignore)) = 0x1C ∧ (after .clear (demo .ignore)).fb = (demo .ignore).fb := by decide
/-- 95 H1, H2. -/
theorem test_fbwr_H1 : fbRead (after (.fbwr 5 0xAA) (demo .ignore)) 5 = 0xAA ∧ (after (.fbwr 5 0xAA) (demo .ignore)).trace = [] := by decide
theorem test_fbrd_H2 : (after (.fbrd 5) (after (.fbwr 5 0xAA) (demo .ignore))).rsp = ⟨0xAA, false⟩ := by decide
/-- 95 H4, H5. -/
theorem test_fbwr_H4 : ctrlReg (after (.fbwr 1536 0x00) (demo .ignore)) = 0x14 ∧ (after (.fbwr 1536 0x00) (demo .ignore)).fb.cells = [] := by decide
theorem test_fbrd_H5 : (after (.fbrd 4095) (demo .ignore)).rsp = ⟨0x00, true⟩ := by decide
/-- 95 H11. -/
theorem test_rdctrl_H11 : (after .rdctrl (selected 2 (ready .ignore))).rsp = ⟨0x81, false⟩ := by decide
/-- 95 E1, E2. -/
theorem test_error_E1 : ctrlReg (after .refresh (afterWord 0x00000000 (demo .ignore))) = 0x0C ∧
    ctrlReg (afterWord 0xE0000000 (after .refresh (demo .ignore))) = 0x1C := by decide
/-- 95 section 3, P-a. -/
theorem test_panel_Pa :
    let s := after (.wrdata 0xFF) (after (.setColumn 10) (after (.setPage 3) (selected 2 (demo .ignore))))
    s.panel.chip2.page = 3 ∧ s.panel.chip2.cell 3 10 = 0xFF ∧ s.panel.chip2.col = 11 := by decide
/-- 95 P-b: the column wraps. -/
theorem test_panel_Pb :
    let s := after (.wrdata 0x12) (after (.setColumn 63) (after (.setPage 0) (selected 1 (demo .ignore))))
    s.panel.chip1.cell 0 63 = 0x12 ∧ s.panel.chip1.col = 0 := by decide
/-- 95 P-c. -/
theorem test_panel_Pc : (after .displayOn (demo .ignore)).panel = (demo .ignore).panel ∧
    (after (.wrcmd 0x3F) (demo .broadcast)).panel.chip3.on = true := ⟨rfl, by decide⟩
/-- 95 P-d. -/
theorem test_panel_Pd : (after (.startLine 5) (selected 3 (demo .ignore))).panel.chip3.start = 5 ∧
    (after (.wrcmd 0xC5) (selected 3 (demo .ignore))).panel.chip3.start = 5 := by decide
/-- 95 section 2.3 and 2.4. -/
theorem test_offsets : offset 2 3 10 = 650 ∧ offset 3 7 63 = 1535 ∧ cellOf 885 = (2, 4, 53) := by decide
theorem test_rev8 : rev8 0x12 = 0x48 ∧ rev8 0xB0 = 0x0D ∧ rev8 0xFE = 0x7F := by decide
/-- 41 R104, 95 P2: the source byte under reversal. -/
theorem test_src_P2 : src (after (.setorient true) (after (.fbwr 0 0x01) (demo .ignore))) 3 7 63 = 0x80 := by decide
/-- A word placed for the next step runs: FBWR, and a panel command byte. -/
theorem test_place_word : fbRead (next (step ((demo .ignore).withFetchWord 32 0xA00500AA)) (demo .ignore)) 5 = 0xAA ∧
    (next (step ((selected 2 (demo .ignore)).withFetchWord 8 0xBB)) (demo .ignore)).panel.chip2.page = 3 := by decide
/-- 30_encoding R80: EN of a status read falls after its sample, and the transaction carries the sampled byte. -/
theorem test_cut_read_carries_the_sample :
    txByte { demo .ignore with engine := .busy { req := .rdstat, pos := 7, v := some 0x80 }
                               lines := { (demo .ignore).lines with rw := true, en := true, dbOe := false } } = 0x80 := by decide
/-- A bad pin map has no step. -/
theorem test_bad_pins : step { demo .ignore with cfg := { Config.build with pinMap := [] } } = .refused .badPinMap := rfl

/-! ## Witnesses: each statement's hypotheses hold together -/

/-- A state in the middle of `WRCMD b` on chip `k`, EN high, about to fall (position 6 of 40 R86). -/
def strobing (b : Byte) (k : Nat) (script : List HostEvent) : State :=
  { selected k (demo .ignore) with
    engine := .busy { req := .wrcmd b, pos := 6, v := none }
    lines := { (selected k (demo .ignore)).lines with en := true, dbOut := b }
    script := script }
/-- The first step of a refresh, and the step after CLEAR's zeroing. -/
def refreshing (i : Instr) (pos : Nat) : State := { ready .ignore with engine := .busy { req := i, pos := pos, v := none } }

theorem strobing_good : BlockGood (strobing 0x3F 3 []) :=
  ⟨by decide, by simp [strobing, selected, demo, State.reset, Ctrl.reset, Ctrl.good], by
    show (BitVec.ofNat 2 ((Config.seqChip 0).val + 1)) ≠ 0
    have h := (Config.seqChip 0).isLt
    intro e
    have := congrArg BitVec.toNat e
    simp at this
    omega, rfl, by decide, by decide, trivial⟩

theorem witness_IllegalWordsAreRejected : IllegalFields 0x90000001 ∧ IllegalFields 0x00000000 ∧ IllegalFields 0x80000002 ∧
    ¬ IllegalFields 0xB5FF0000 ∧ (demo .ignore).cfg.valid = true ∧ (demo .ignore).engine = .idle := by
  unfold IllegalFields
  exact ⟨by decide, by decide, by decide, by decide, by decide, rfl⟩
theorem witness_StepRunsDecodedRequest :
    let s := { demo .ignore with script := [.request 0x90000000] }
    s.cfg.valid = true ∧ s.engine = .idle ∧ s.script = .request 0x90000000 :: [] ∧ decodeRequest 0x90000000 = some .refresh := by decide
/-- With no event on the script, and with the pause that `withFetchWord` puts there. -/
theorem witness_StepRunsDecodedPanelCommand :
    let s := strobing 0x3F 3 []
    let r := strobing 0x3F 3 [.pause, .request 0x90000000]
    s.cfg.valid = true ∧ s.script = [] ∧ s.engine = .busy { req := .wrcmd 0x3F, pos := 6, v := none } ∧
    (program s.cfg (.wrcmd 0x3F))[6]? = some .enFall ∧ s.lines.rs = false ∧ s.lines.rw = false ∧
    decodePanel s.cfg.codes s.lines.dbOut = some .displayOn ∧
    r.script = .pause :: [.request 0x90000000] ∧ r.cfg.valid = true ∧ r.engine = s.engine ∧ r.lines = s.lines := by decide
/-- The request in progress goes on, and at its last step it completes. -/
theorem witness_BusyBlockHoldsTheHostsWord :
    let p := strobing 0x3F 3 [.request 0x90000000]
    let q := { ready .ignore with engine := .busy { req := .rdctrl, pos := 0, v := none }
                                  script := [.requestStepwise 0x90000000] }
    p.cfg.valid = true ∧ p.script = .request 0x90000000 :: [] ∧
    (next (step p) State.reset).engine = .busy { req := .wrcmd 0x3F, pos := 7, v := none } ∧
    q.cfg.valid = true ∧ q.script = .requestStepwise 0x90000000 :: [] ∧ (next (step q) State.reset).engine = .idle := by decide
/-- Block reset of a block in the middle of a strobe. -/
theorem witness_BlockResetFromEveryState :
    (strobing 0x3F 3 [.blockReset]).cfg.valid = true ∧ (strobing 0x3F 3 [.blockReset]).script = .blockReset :: [] := by decide
/-- A block in the middle of PRESET, RST low and about to rise (position 2 of 40 R95). -/
def pulsing (script : List HostEvent) : State :=
  { ready .ignore with
    engine := .busy { req := .preset, pos := 2, v := none }
    lines := { (ready .ignore).lines with rst := false }
    script := script }
theorem witness_BlockResetLeavesThePanel :
    (let s := { ready .ignore with script := [.blockReset] }
     s.cfg.valid = true ∧ s.script = .blockReset :: [] ∧ s.lines.en = false ∧ s.lines.rst = true) ∧
    (let s := pulsing [.blockReset]
     s.cfg.valid = true ∧ s.script = .blockReset :: [] ∧ s.engine = .busy { req := .preset, pos := 2, v := none } ∧
     s.lines.en = false ∧ s.lines.rst = false) := by decide
/-- 20_memory R63: a reset pulse of full length that block reset ends leaves the power-on state. -/
theorem test_block_reset_after_full_pulse :
    let t := next (step (pulsing [.blockReset])) State.reset
    t.lines.rst = true ∧ t.panel.chip1.on = false ∧ t.panel.chip2.start = 0 := by decide
theorem witness_BadPinMapHasNoRuns :
    (Line.rs ≠ Line.rw ∧ (Line.rs, 1) ∈ [(Line.rs, 1), (Line.rw, 1)] ∧ (Line.rw, 1) ∈ [(Line.rs, 1), (Line.rw, 1)]) ∧
    ∀ p, (Line.en, p) ∉ ([] : PinMap) := by simp
theorem witness_BuildNeverChanges : ∃ t, step State.reset = .next t := ⟨_, rfl⟩
/-- For WRCMD, WRDATA, RDSTAT, SELCHIP, PRESET, SETORIENT, FBFILL and RDCTRL. -/
theorem witness_idle : State.reset.engine = .idle := rfl
theorem witness_WrcmdSendsTheByte : decodePanel (demo .ignore).cfg.codes 0x3F = some .displayOn ∧
    (∃ u, exec .displayOn (demo .ignore) = .next u) ∧ reaches (demo .ignore).cfg.noneSelected (demo .ignore).lines.cs 1 = false :=
  ⟨by decide, ⟨_, rfl⟩, by decide⟩
theorem witness_WrdataSendsTheByte : reaches .ignore (selected 3 (demo .ignore)).lines.cs 3 = true ∧
    reaches .ignore (selected 3 (demo .ignore)).lines.cs 1 = false := by decide
/-- Each clause at its boundary: the codes 1, 2, 3, and 0, 4 and 255 beside them, fall under one clause each. -/
theorem witness_SelchipSelectsOneChipOrNone : (0 : Byte) ≠ 1 ∧ (0 : Byte) ≠ 2 ∧ (0 : Byte) ≠ 3 ∧ (4 : Byte) ≠ 3 ∧ (255 : Byte) ≠ 3 := by decide
theorem witness_WriteWithNoChipSelected : (demo .ignore).engine = .idle ∧ (demo .ignore).lines.cs = 0b111 ∧
    (demo .ignore).cfg.noneSelected = .ignore ∧ (demo .broadcast).cfg.noneSelected = .broadcast ∧
    (demo .broadcast).cfg.codes = CmdCodes.default ∧ (0xC5 : Byte) = commandByte 0xC0 (5 : BitVec 6) := by decide
/-- For INIT's statements. -/
theorem witness_uninitialized : (demo .broadcast).engine = .idle ∧ (demo .broadcast).ctrl.init = false ∧
    (demo .broadcast).cfg.codes = CmdCodes.default := by decide
/-- For REFRESH's and CLEAR's statements. -/
theorem witness_initialized : (ready .ignore).engine = .idle ∧ (ready .ignore).ctrl.init = true ∧
    (ready .ignore).cfg.codes = CmdCodes.default := by decide
/-- A panel with its displays on and its start lines 0: what INIT leaves under BROADCAST. -/
theorem witness_RefreshShowsTheImageOnTheGlass :
    let s := after .init (demo .broadcast)
    s.engine = .idle ∧ s.ctrl.init = true ∧ s.cfg.codes = CmdCodes.default ∧
    s.panel.chip1.on = true ∧ s.panel.chip1.start = 0 ∧ s.panel.chip2.on = true ∧ s.panel.chip2.start = 0 ∧
    s.panel.chip3.on = true ∧ s.panel.chip3.start = 0 := by decide
/-- A framebuffer that reads as 0 everywhere, for the state `z` of CLEAR's statement. -/
theorem witness_ClearZeroesAndRefreshes : ∀ a, a < 1536 →
    fbRead { ready .ignore with fb := (ready .ignore).fb.fill fbBytes 0x00 } a = 0x00 := by
  intro a ha
  have h : ∀ n b, b ≤ a → a < b + n → cellsFind (cellsFill b 0x00 n) a = some 0x00 := by
    intro n
    induction n with
    | zero => intro b h1 h2; omega
    | succ n ih =>
      intro b h1 h2
      simp only [cellsFill, cellsFind]
      by_cases h : a = b
      · simp [h]
      · rw [if_neg h]; exact ih (b + 1) (by omega) (by omega)
  simp only [fbRead, Bank.fill]
  rw [h fbBytes 0 (by omega) (by simp only [fbBytes]; omega)]
  rfl
theorem witness_address_clauses : (1535 : BitVec 12).toNat ≤ 1535 ∧ 1536 ≤ (1536 : BitVec 12).toNat ∧ 1536 ≤ (4095 : BitVec 12).toNat := by decide
/-- A byte that nothing has written, one that FBWR has, and instructions after it that write other bytes only. -/
theorem witness_FbrdReturnsTheLatestWrite :
    cellsFind (demo .ignore).fb.cells (5 : BitVec 12).toNat = none ∧ (5 : BitVec 12).toNat < 1536 ∧
    RunsWithoutWriting 5 [.fbwr 6 0x01, .clear, .rdctrl] (after (.fbwr 5 0xAA) (demo .ignore))
      (after .rdctrl (after .clear (after (.fbwr 6 0x01) (after (.fbwr 5 0xAA) (demo .ignore))))) := by
  refine ⟨by decide, by decide, ⟨?_, by simp, by simp, _, rfl, by simp, by simp, fun _ => rfl, _, rfl, by simp, by simp, by simp, _, rfl, rfl⟩⟩
  intro b v e
  injection e with e _
  subst e
  decide
/-- The ends of every range of the address mapping. -/
theorem witness_OffsetIsABijection : offset 1 0 0 = 0 ∧ offset 3 7 63 = 1535 ∧ offset 1 0 63 = 63 ∧ offset 2 0 0 = 64 ∧
    offset 3 0 63 = 191 ∧ offset 1 1 0 = 192 := by decide
theorem witness_RefreshRotatesTheImage : (191 : Nat) ≤ 191 ∧ (63 : Nat) ≤ 63 := by decide
theorem witness_StrobeReachesTheSelectedChip : reaches .ignore (csOf 3) 3 = true ∧ reaches .broadcast (csOf 0) 1 = true ∧
    reaches .ignore (csOf 0) 1 = false := by decide
theorem witness_RejectedRequestsHaveNoEffect : rejects .init (ready .ignore) .alreadyInitialized ∧
    rejects .refresh (demo .ignore) .notInitialized ∧ rejects .clear (demo .ignore) .notInitialized ∧
    rejects (.fbwr 1536 0) (demo .ignore) .fbRange ∧ rejects (.fbrd 4095) (demo .ignore) .fbRange := by
  refine ⟨.inl ⟨rfl, rfl, rfl⟩, .inr (.inl ⟨.inl rfl, rfl, rfl⟩), .inr (.inl ⟨.inr rfl, rfl, rfl⟩),
    .inr (.inr ⟨.inl ⟨_, _, rfl, by decide⟩, rfl⟩), .inr (.inr ⟨.inr ⟨_, rfl, by decide⟩, rfl⟩)⟩
/-- An error recorded, then a rejection of another code. -/
theorem witness_ErrorRecordIsSticky :
    let s := after .refresh (demo .ignore)
    s.ctrl.err = true ∧ (afterWord 0xE0000000 s).ctrl.errCode = 3 ∧ (afterWord 0xE0000000 s).rsp.err = true := by decide
theorem witness_EveryRequestCompletesOnce : Instr.isRequest .rdctrl = true ∧ (demo .ignore).engine = .idle ∧
    decodeRequest 0x00000000 = none ∧ (demo .ignore).cfg.valid = true := by decide
theorem witness_BusyBlockAcceptsNoRequest : Instr.isRequest .rdctrl = true ∧
    (strobing 0x3F 3 []).engine = .busy { req := .wrcmd 0x3F, pos := 6, v := none } := by decide
/-- INIT, SETORIENT, a rejection and SELCHIP each change their field of CTRL. -/
theorem witness_CtrlFieldsHaveTheirWriters :
    (after .init (demo .ignore)).ctrl.init ≠ (demo .ignore).ctrl.init ∧
    (after (.setorient true) (demo .ignore)).ctrl.orient ≠ (demo .ignore).ctrl.orient ∧
    (after .refresh (demo .ignore)).ctrl.err ≠ (demo .ignore).ctrl.err ∧
    (after .refresh (demo .ignore)).ctrl.errCode ≠ (demo .ignore).ctrl.errCode ∧
    (after (.selchip 2) (demo .ignore)).lines.cssel ≠ (demo .ignore).lines.cssel := by decide
theorem witness_OnlyThreeRequestsWriteTheFramebuffer : ∃ t, exec .rdctrl State.reset = .next t := ⟨_, rfl⟩
theorem witness_RequestsMakeOnlyThreeKindsOfTransaction : (∃ t, exec (.wrcmd 0) State.reset = .next t) ∧
    csLegal State.reset.lines.cs = true := ⟨⟨_, rfl⟩, by decide⟩
/-- A good state in the middle of a strobe, which steps: for the invariant and for R79's statement. -/
theorem witness_invariant : BlockGood (strobing 0x3F 3 []) ∧ (strobing 0x3F 3 []).memWf = true ∧
    (strobing 0x3F 3 []).cfg.valid = true ∧ (strobing 0x3F 3 []).lines.en = true ∧
    (next (step (strobing 0x3F 3 [])) State.reset).lines.en = false :=
  ⟨strobing_good, rfl, by decide, rfl, by decide⟩
theorem witness_StepwiseRunReachesTheSameState : (demo .ignore).cfg.valid = true ∧ (demo .ignore).engine = .idle ∧
    (demo .ignore).script = [] ∧ decodeRequest 0xD0000000 = some .rdctrl ∧ ∃ t, exec .rdctrl (demo .ignore) = .next t :=
  ⟨by decide, rfl, rfl, by decide, ⟨_, rfl⟩⟩
theorem witness_ImageHoldsStillDuringARefresh : (∃ t, step (refreshing .refresh 0) = .next t) ∧
    (∃ t, step (refreshing .clear 1) = .next t) ∧ (refreshing .clear 1).script = [] := ⟨⟨_, rfl⟩, ⟨_, rfl⟩, rfl⟩
theorem witness_LeastDurationsAsListed : Config.build.tAsNs = 0 := rfl
theorem witness_PseudoInstructionsExpand : (63 : Nat) ≤ 63 ∧ (63 : Nat) < 64 ∧ (7 : Nat) ≤ 7 ∧ (7 : Nat) < 8 := by decide
/-- A byte that decodes and a word that decodes. -/
theorem witness_EncodeDecodeRoundTrip : decode CmdCodes.default (.panel 0xBF) = some (.setPage 7) ∧
    decode CmdCodes.default (.request 0xBFFF0000) = some (.fbrd 4095) := by decide

end Sys2Proof.Tests
end

/-! PROOFS. The statements of 10_state: the state after reset, the pin map, the build, the writers of CTRL and the invariant of the block. -/

namespace Sys2Proof

/-! ### Good pin maps (10_state R29, R30) -/

theorem Line.mem_all (l : Line) : l ∈ Line.all := by
  cases l with
  | db i => revert i; decide
  | rs | rw | en | rst | cs1 | cs2 | cs3 => decide

/-- A good pin map binds every line. -/
theorem PinMap.exists_pin_of_valid {m : PinMap} (h : m.valid = true) (l : Line) : ∃ p, (l, p) ∈ m := by
  simp only [PinMap.valid, Bool.and_eq_true, List.all_eq_true, beq_iff_eq] at h
  obtain ⟨e, he⟩ := List.exists_mem_of_length_pos (l := m.filter (fun e => e.1 == l)) (by rw [h.1 l l.mem_all]; exact Nat.one_pos)
  obtain ⟨hm, hl⟩ := List.mem_filter.mp he
  rw [beq_iff_eq] at hl
  exact ⟨e.2, hl ▸ hm⟩

/-- A good pin map has at most one line on a pin. -/
theorem PinMap.line_unique_of_valid {m : PinMap} (h : m.valid = true) {l k : Line} {p : Nat} (hl : (l, p) ∈ m)
    (hk : (k, p) ∈ m) : l = k := by
  simp only [PinMap.valid, Bool.and_eq_true, decide_eq_true_eq] at h
  exact congrArg Prod.fst (List.inj_on_of_nodup_map h.2 hl hk rfl)

/-- The build at reset has a good pin map. -/
theorem Config.build_valid : Config.build.valid = true := by decide

end Sys2Proof

namespace Sys2Proof.Machine

/-! ### The invariant, by the engine's phase -/

theorem BlockGood.parts {s : State} (h : BlockGood s) : PartsGood s := ⟨h.cs, h.ctrl, h.seq⟩

theorem PartsGood.blockGood {s : State} (h : PartsGood s) (he : s.engineGood) : BlockGood s :=
  ⟨h.cs, h.ctrl, h.seq, he⟩

theorem State.engineGood_idle {s : State} (h : s.engine = .idle) :
    s.engineGood ↔ s.driven = Driven.rest ∧ s.waiting = none := by
  simp [State.engineGood, h]

theorem State.engineGood_busy {s : State} {p : InProgress} (h : s.engine = .busy p) :
    s.engineGood ↔ p.req.isRequest = true ∧ p.pos < (program s.cfg p.req).length ∧
      s.driven = drivenAfter (program s.cfg p.req) p.pos ∧ addressGood p.req := by
  simp [State.engineGood, h]

/-- The host's script is no part of the invariant. -/
theorem BlockGood.withScript {s : State} (h : BlockGood s) (rest : List HostEvent) :
    BlockGood { s with script := rest } :=
  ⟨h.cs, h.ctrl, h.seq, h.engine⟩

theorem BlockGood.driven_of_idle {s : State} (h : BlockGood s) (hi : s.engine = .idle) : s.driven = Driven.rest :=
  ((State.engineGood_idle hi).mp h.engine).1

/-! ### Reset -/

/-- The reset values of 10_state R32 are inside the invariant. -/
theorem blockGood_of_resetValues {s : State} (hl : s.lines = Lines.reset) (hc : s.ctrl = Ctrl.reset)
    (hq : s.seq.chip ≠ 0) (he : s.engine = .idle) (hw : s.waiting = none) : BlockGood s where
  cs := by rw [hl]; decide
  ctrl := by rw [hc]; exact ⟨by decide, by decide⟩
  seq := hq
  engine := (State.engineGood_idle he).mpr ⟨by rw [State.driven, hl]; rfl, hw⟩

theorem reset_blockGood : BlockGood State.reset :=
  blockGood_of_resetValues rfl rfl (seqDrawn_chip 0) rfl rfl

/-- Block reset meets the invariant from every state (70_reset_and_hazards R144). -/
theorem blockReset_blockGood (s : State) : BlockGood (blockReset s) :=
  blockGood_of_resetValues rfl rfl (seqDrawn_chip s.draws.seq) rfl rfl

/-! ### Completion, rejection, acceptance -/

theorem complete_blockGood (d : Byte) (e : Bool) {s : State} (h : PartsGood s) (hd : s.driven = Driven.rest) :
    BlockGood (complete d e s) :=
  ⟨h.cs, h.ctrl, h.seq, (State.engineGood_idle rfl).mpr ⟨hd, rfl⟩⟩

theorem raiseError_blockGood (e : ErrCode) {s : State} (h : PartsGood s) (hd : s.driven = Driven.rest) :
    BlockGood (raiseError e s) :=
  (raiseError_parts e h).blockGood ((State.engineGood_idle rfl).mpr ⟨hd, rfl⟩)

theorem accept_parts (i : Instr) {s : State} (h : PartsGood s) : PartsGood (accept i s) := ⟨h.cs, h.ctrl, h.seq⟩

/-- A request whose check passed stands at the first position of its pseudocode. -/
theorem accept_blockGood {i : Instr} {s : State} (h : PartsGood s) (hd : s.driven = Driven.rest)
    (hr : i.isRequest = true) (ha : addressGood i) : BlockGood (accept i s) :=
  (accept_parts i h).blockGood ((State.engineGood_busy (accept_engine i s)).mpr ⟨hr, program_pos _ hr, hd, ha⟩)

/-- A request's pseudocode run whole: its body is well timed, and its completion finds the levels at rest. -/
theorem runOps_program_blockGood {i : Instr} (hr : i.isRequest = true) (c : Config) {s : State} (h : PartsGood s)
    (hd : s.driven = Driven.rest) : BlockGood (runOps (program c i) s) := by
  obtain ⟨body, a, hp, hok⟩ := program_shape c i hr
  rw [← hd] at hok
  obtain ⟨hparts, hrest⟩ := okRun_runOps hok h
  rw [hp, runOps_complete]
  exact complete_blockGood _ _ hparts hrest

/-! ### The meaning of a request, and a word -/

theorem exec_blockGood {i : Instr} {s t : State} (h : BlockGood s) (he : exec i s = .next t) : BlockGood t := by
  rcases exec_next he with ⟨_, hi, e, _, rfl⟩ | ⟨hr, hi, _, rfl⟩ | ⟨_, f, rfl, _⟩
  · exact raiseError_blockGood e (accept_parts i h.parts) (h.driven_of_idle hi)
  · exact runOps_program_blockGood hr s.cfg (accept_parts i h.parts) (h.driven_of_idle hi)
  · exact ⟨h.cs, h.ctrl, h.seq, h.engine⟩

theorem runRequest_blockGood {w : Word} {s t : State} (h : BlockGood s) (hi : s.engine = .idle)
    (hw : runRequest w s = .next t) : BlockGood t := by
  rcases runRequest_next hw with ⟨_, rfl⟩ | ⟨i, _, he⟩
  · exact raiseError_blockGood _ h.parts (h.driven_of_idle hi)
  · exact exec_blockGood h he

theorem acceptWord_blockGood (w : Word) {s : State} (h : BlockGood s) (hi : s.engine = .idle) :
    BlockGood (acceptWord w s) := by
  have hd := h.driven_of_idle hi
  rcases acceptWord_cases w s with ⟨_, e⟩ | ⟨i, c, _, _, e⟩ | ⟨i, hdec, hc, e⟩ <;> rw [e]
  · exact raiseError_blockGood _ h.parts hd
  · exact raiseError_blockGood c (accept_parts i h.parts) hd
  · exact accept_blockGood h.parts hd (decodeRequest_isRequest hdec) (check_addressGood hc)

/-! ### One engine step -/

/-- The position steps on over a step of pseudocode that is not the last. -/
theorem blockGood_next_position {s t : State} {p : InProgress} {op : MicroOp} {v : Option Byte} (h : BlockGood s)
    (he : s.engine = .busy p) (hop : (program s.cfg p.req)[p.pos]? = some op)
    (hlen : p.pos + 1 < (program s.cfg p.req).length) (hp : PartsGood t) (hcfg : t.cfg = s.cfg)
    (hd : t.driven = s.driven.step op) (ht : t.engine = .busy { p with pos := p.pos + 1, v := v }) : BlockGood t := by
  obtain ⟨hr, _, hdriven, ha⟩ := (State.engineGood_busy he).mp h.engine
  refine hp.blockGood ((State.engineGood_busy ht).mpr ?_)
  rw [hcfg]
  refine ⟨hr, hlen, ?_, ha⟩
  rw [hd, hdriven, ← drivenAfter_succ hop]

/-- A step of pseudocode that is due: the completion, or a step in order. -/
theorem stepOp_blockGood {s : State} {p : InProgress} {op : MicroOp} (h : BlockGood s) (he : s.engine = .busy p)
    (hop : (program s.cfg p.req)[p.pos]? = some op) : BlockGood (stepOp s op) := by
  obtain ⟨hr, _, hdriven, _⟩ := (State.engineGood_busy he).mp h.engine
  rcases program_at hr hop with ⟨⟨a, rfl⟩, _, hrest⟩ | ⟨hok, hlen⟩
  · rw [stepOp_complete]
    exact complete_blockGood _ _ h.parts (hdriven.trans hrest)
  · simp only [opOk, Bool.and_eq_true, Bool.not_eq_true'] at hok
    obtain ⟨⟨hseq, hcomplete⟩, _⟩ := hok
    obtain ⟨v, hv⟩ := stepOp_busy he hcomplete
    exact blockGood_next_position h he hop hlen (stepOp_parts h.parts hseq) (stepOp_cfg s op) (stepOp_driven s op) hv

/-- A cycle of a wait stays where it is, or steps on like the step it is. -/
theorem tickWait_engine {s : State} {p : InProgress} (he : s.engine = .busy p) (d : Delay) :
    (tickWait d s).engine = s.engine ∨ (tickWait d s).engine = .busy { p with pos := p.pos + 1 } := by
  unfold tickWait
  split
  · exact .inl rfl
  · exact .inl rfl
  · exact .inr (onProgress_engine_busy _ _ p he)

theorem OnlyWaits.parts {s t : State} (ht : OnlyWaits s t) (h : PartsGood s) : PartsGood t :=
  ⟨ht.lines ▸ h.cs, ht.ctrl ▸ h.ctrl, ht.seq ▸ h.seq⟩

theorem OnlyWaits.driven {s t : State} (ht : OnlyWaits s t) : t.driven = s.driven := by
  rw [State.driven, ht.lines]; rfl

theorem tickWait_blockGood {s : State} {p : InProgress} {d : Delay} (h : BlockGood s) (he : s.engine = .busy p)
    (hop : (program s.cfg p.req)[p.pos]? = some (.wait d)) : BlockGood (tickWait d s) := by
  have hw := tickWait_only d s
  have hgood := (State.engineGood_busy he).mp h.engine
  rcases tickWait_engine he d with ht | ht
  · refine (hw.parts h.parts).blockGood ((State.engineGood_busy (ht.trans he)).mpr ?_)
    rwa [hw.cfg, hw.driven]
  · rcases program_at hgood.1 hop with ⟨⟨a, ha⟩, _, _⟩ | ⟨_, hlen⟩
    · exact absurd ha (by simp)
    · exact blockGood_next_position h he hop hlen (hw.parts h.parts) hw.cfg hw.driven ht

theorem tick_blockGood {s t : State} (h : BlockGood s) (ht : tick s = .next t) : BlockGood t := by
  rcases tick_next ht with ⟨_, rfl⟩ | ⟨p, op, he, hop, ⟨d, rfl, rfl⟩ | ⟨_, rfl⟩⟩
  · exact h
  · exact tickWait_blockGood h he hop
  · exact stepOp_blockGood h he hop

/-! ### No step changes the build -/

theorem exec_cfg {i : Instr} {s t : State} (h : exec i s = .next t) : t.cfg = s.cfg := by
  rcases exec_next h with ⟨_, _, e, _, rfl⟩ | ⟨_, _, _, rfl⟩ | ⟨_, f, rfl, _⟩
  · rfl
  · rw [runOps_cfg, accept_cfg]
  · rfl

theorem runRequest_cfg {w : Word} {s t : State} (h : runRequest w s = .next t) : t.cfg = s.cfg := by
  rcases runRequest_next h with ⟨_, rfl⟩ | ⟨i, _, he⟩
  · rfl
  · exact exec_cfg he

theorem acceptWord_cfg (w : Word) (s : State) : (acceptWord w s).cfg = s.cfg := by
  rcases acceptWord_cases w s with ⟨_, e⟩ | ⟨i, c, _, _, e⟩ | ⟨i, _, _, e⟩ <;> rw [e] <;> rfl

theorem tick_cfg {s t : State} (h : tick s = .next t) : t.cfg = s.cfg := by
  rcases tick_next h with ⟨_, rfl⟩ | ⟨p, op, _, _, ⟨d, _, rfl⟩ | ⟨_, rfl⟩⟩
  · rfl
  · exact (tickWait_only d s).cfg
  · exact stepOp_cfg s op

theorem step_cfg {s t : State} (h : step s = .next t) : t.cfg = s.cfg := by
  obtain ⟨_, hcases⟩ := step_next h
  rcases hcases with ⟨rest, _, rfl⟩ | ⟨u, hu, htick⟩ | ⟨w, rest, _, _, hrun⟩ | ⟨w, rest, _, _, rfl⟩
  · rfl
  · have hucfg : u.cfg = s.cfg := by rcases hu with ⟨_, _, rfl⟩ | ⟨_, rfl⟩ <;> rfl
    exact (tick_cfg htick).trans hucfg
  · exact runRequest_cfg (s := { s with script := rest }) hrun
  · exact acceptWord_cfg w { s with script := rest }

/-! ### A bad pin map -/

theorem step_refused {s : State} (h : s.cfg.valid = false) : step s = .refused .badPinMap := by
  simp [step, h]

/-! ### The steps of pseudocode that write CTRL -/

/-- What every step of a run keeps, the run keeps. -/
theorem runOps_keeps {α : Type} (f : State → α) {keeps : MicroOp → Bool}
    (hstep : ∀ op s, keeps op = true → f (stepOp s op) = f s) {ops : List MicroOp} (hops : ops.all keeps = true)
    (s : State) : f (runOps ops s) = f s := by
  induction ops generalizing s with
  | nil => rfl
  | cons op ops ih =>
    rw [List.all_cons, Bool.and_eq_true] at hops
    rw [runOps_cons, ih hops.2, hstep op s hops.1]

/-- The steps that leave CTRL.INIT alone: all but one. -/
def keepsInit : MicroOp → Bool
  | .setInit => false
  | _ => true

/-- The steps that leave CTRL.ORIENT alone: all but one. -/
def keepsOrient : MicroOp → Bool
  | .setOrient _ => false
  | _ => true

/-- The steps that leave the chip-select lines alone: all but one. -/
def keepsSelect : MicroOp → Bool
  | .selectChip _ => false
  | _ => true

theorem stepOp_ctrl_init (op : MicroOp) (s : State) (h : keepsInit op = true) :
    (stepOp s op).ctrl.init = s.ctrl.init := by
  cases op <;> simp [keepsInit] at h <;> simp [stepOp, runOp]

theorem stepOp_ctrl_orient (op : MicroOp) (s : State) (h : keepsOrient op = true) :
    (stepOp s op).ctrl.orient = s.ctrl.orient := by
  cases op <;> simp [keepsOrient] at h <;> simp [stepOp, runOp]

theorem stepOp_cs (op : MicroOp) (s : State) (h : keepsSelect op = true) : (stepOp s op).lines.cs = s.lines.cs := by
  cases op <;> simp [keepsSelect] at h <;> simp [stepOp, runOp, Lines.cs]

/-- No step of pseudocode records or clears an error: only a rejection does (60_exceptions R131). -/
theorem stepOp_ctrl_error (op : MicroOp) (s : State) :
    (stepOp s op).ctrl.err = s.ctrl.err ∧ (stepOp s op).ctrl.errCode = s.ctrl.errCode := by
  cases op <;> simp [stepOp, runOp]

theorem runOps_ctrl_error (ops : List MicroOp) (s : State) :
    (runOps ops s).ctrl.err = s.ctrl.err ∧ (runOps ops s).ctrl.errCode = s.ctrl.errCode := by
  have hall : ops.all (fun _ => true) = true := List.all_eq_true.mpr fun _ _ => rfl
  exact ⟨runOps_keeps (·.ctrl.err) (fun op u _ => (stepOp_ctrl_error op u).1) hall s,
    runOps_keeps (·.ctrl.errCode) (fun op u _ => (stepOp_ctrl_error op u).2) hall s⟩

theorem refreshKind_keeps {op : MicroOp} (h : refreshKind op = true) : keepsInit op = true ∧ keepsOrient op = true := by
  cases op <;> simp_all [refreshKind, keepsInit, keepsOrient]

/-- What every kind of refresh step satisfies, the refresh sequence does. -/
theorem refreshOps_all {k : MicroOp → Bool} (hk : ∀ op, refreshKind op = true → k op = true) (c : Config) :
    (refreshOps c).all k = true :=
  List.all_eq_true.mpr fun op h => hk op (refreshOps_mem h)

theorem program_keepsInit (c : Config) {i : Instr} (h : i ≠ .init) : (program c i).all keepsInit = true := by
  have hr : (refreshOps c).all keepsInit = true := refreshOps_all (fun _ ho => (refreshKind_keeps ho).1) c
  cases i
  case init => exact absurd rfl h
  case refresh => rw [program, refreshProgram, List.all_append, hr]; rfl
  case clear => rw [program, clearProgram, List.all_append, List.all_cons, hr]; rfl
  all_goals rfl

theorem program_keepsOrient (c : Config) {i : Instr} (h : ∀ r, i ≠ .setorient r) :
    (program c i).all keepsOrient = true := by
  have hr : (refreshOps c).all keepsOrient = true := refreshOps_all (fun _ ho => (refreshKind_keeps ho).2) c
  cases i
  case setorient r => exact absurd rfl (h r)
  case refresh => rw [program, refreshProgram, List.all_append, hr]; rfl
  case clear => rw [program, clearProgram, List.all_append, List.all_cons, hr]; rfl
  all_goals rfl

theorem program_keepsSelect (c : Config) {i : Instr} (hs : ∀ n, i ≠ .selchip n) (hi : i ≠ .init) (hr : i ≠ .refresh)
    (hc : i ≠ .clear) : (program c i).all keepsSelect = true := by
  cases i
  case selchip n => exact absurd rfl (hs n)
  case init => exact absurd rfl hi
  case refresh => exact absurd rfl hr
  case clear => exact absurd rfl hc
  all_goals rfl

/-! ### Rejections -/

theorem needsInit_eq_some {s : State} {e : ErrCode} (h : needsInit s = some e) :
    s.ctrl.init = false ∧ e = .notInitialized := by
  cases hi : s.ctrl.init <;> simp_all [needsInit_eq]

theorem needsUninit_eq_some {s : State} {e : ErrCode} (h : needsUninit s = some e) :
    s.ctrl.init = true ∧ e = .alreadyInitialized := by
  cases hi : s.ctrl.init <;> simp_all [needsUninit_eq]

theorem inFb_eq_some {a : BitVec 12} {e : ErrCode} (h : inFb a = some e) : 1536 ≤ a.toNat ∧ e = .fbRange := by
  have hge : 1536 ≤ a.toNat := by
    by_contra hlt
    rw [inFb_none.mpr (by omega)] at h
    exact absurd h (by simp)
  rw [inFb_some hge] at h
  exact ⟨hge, (Option.some.inj h).symm⟩

/-- A check that fails is one of the rejections of 60_exceptions R129. -/
theorem rejects_of_check {i : Instr} {s : State} {e : ErrCode} (h : check i s = some e) : rejects i s e := by
  cases i
  case init => exact .inl ⟨rfl, needsUninit_eq_some h⟩
  case refresh => exact .inr (.inl ⟨.inl rfl, needsInit_eq_some h⟩)
  case clear => exact .inr (.inl ⟨.inr rfl, needsInit_eq_some h⟩)
  case fbwr a v =>
    obtain ⟨ha, he⟩ := inFb_eq_some h
    exact .inr (.inr ⟨.inl ⟨a, v, rfl, ha⟩, he⟩)
  case fbrd a =>
    obtain ⟨ha, he⟩ := inFb_eq_some h
    exact .inr (.inr ⟨.inr ⟨a, rfl, ha⟩, he⟩)
  all_goals exact absurd h (by simp [check])

theorem Lines.cssel_congr {l m : Lines} (h : l.cs = m.cs) : l.cssel = m.cssel := by
  rw [Lines.cssel, Lines.cssel, h]

/-- A code is recorded over no error only (60_exceptions R131). -/
theorem recordError_errCode_of_ne {e : ErrCode} {c : Ctrl} (h : (recordError e c).errCode ≠ c.errCode) :
    (recordError e c).errCode = e.code ∧ c.err = false := by
  cases hc : c.err <;> simp_all [recordError]

/-! ### The writers of CTRL, field by field (10_state R24) -/

section Writers

variable {i : Instr} {s t : State} (h : exec i s = .next t)
include h

theorem exec_init_writers (hne : t.ctrl.init ≠ s.ctrl.init) : i = .init ∧ t.ctrl.init = true := by
  rcases exec_next h with ⟨_, _, e, _, rfl⟩ | ⟨_, _, hc, rfl⟩ | ⟨_, f, rfl, _⟩
  · exact absurd rfl hne
  · by_cases hi : i = .init
    · subst hi
      have hs : s.ctrl.init = false := by
        by_contra hs
        simp [check, needsUninit_eq, hs] at hc
      exact ⟨rfl, by simpa [hs] using hne⟩
    · exact absurd (runOps_keeps (·.ctrl.init) stepOp_ctrl_init (program_keepsInit s.cfg hi) _) hne
  · exact absurd rfl hne

theorem exec_orient_writers (hne : t.ctrl.orient ≠ s.ctrl.orient) : ∃ r, i = .setorient r ∧ t.ctrl.orient = r := by
  rcases exec_next h with ⟨_, _, e, _, rfl⟩ | ⟨_, _, _, rfl⟩ | ⟨_, f, rfl, _⟩
  · exact absurd rfl hne
  · by_cases hi : ∃ r, i = .setorient r
    · obtain ⟨r, rfl⟩ := hi
      exact ⟨r, rfl, by simp [program, setorientProgram, stepOp, runOp]⟩
    · have hk := program_keepsOrient s.cfg (i := i) fun r hr => hi ⟨r, hr⟩
      exact absurd (runOps_keeps (·.ctrl.orient) stepOp_ctrl_orient hk _) hne
  · exact absurd rfl hne

theorem exec_err_writers (hne : t.ctrl.err ≠ s.ctrl.err) : (∃ e, rejects i s e) ∧ t.ctrl.err = true := by
  rcases exec_next h with ⟨_, _, e, hc, rfl⟩ | ⟨_, _, _, rfl⟩ | ⟨_, f, rfl, _⟩
  · exact ⟨⟨e, rejects_of_check hc⟩, rfl⟩
  · exact absurd (runOps_ctrl_error _ _).1 hne
  · exact absurd rfl hne

theorem exec_errCode_writers (hne : t.ctrl.errCode ≠ s.ctrl.errCode) :
    (∃ e, rejects i s e ∧ t.ctrl.errCode = e.code) ∧ s.ctrl.err = false := by
  rcases exec_next h with ⟨_, _, e, hc, rfl⟩ | ⟨_, _, _, rfl⟩ | ⟨_, f, rfl, _⟩
  · obtain ⟨hcode, herr⟩ := recordError_errCode_of_ne hne
    exact ⟨⟨e, rejects_of_check hc, hcode⟩, herr⟩
  · exact absurd (runOps_ctrl_error _ _).2 hne
  · exact absurd rfl hne

theorem exec_cssel_writers (hne : t.lines.cssel ≠ s.lines.cssel) :
    (∃ c, i = .selchip c) ∨ i = .init ∨ i = .refresh ∨ i = .clear := by
  rcases exec_next h with ⟨_, _, e, _, rfl⟩ | ⟨_, _, _, rfl⟩ | ⟨_, f, rfl, _⟩
  · exact absurd rfl hne
  · by_contra hother
    simp only [not_or, not_exists] at hother
    obtain ⟨hsel, hinit, hrefresh, hclear⟩ := hother
    have hcs := runOps_keeps (·.lines.cs) stepOp_cs (program_keepsSelect s.cfg hsel hinit hrefresh hclear) (accept i s)
    exact hne (Lines.cssel_congr hcs)
  · exact absurd rfl hne

end Writers

end Sys2Proof.Machine

namespace Sys2Proof.Proofs

open Machine

/-- Settles O53: each of the four things a step can be (`step_next`) keeps the invariant. -/
theorem stepKeepsTheInvariant : Obligations.StepKeepsTheInvariant := by
  unfold Obligations.StepKeepsTheInvariant
  intro s t h hstep
  obtain ⟨_, hcases⟩ := step_next hstep
  rcases hcases with ⟨rest, _, rfl⟩ | ⟨u, hu, htick⟩ | ⟨w, rest, hi, _, hrun⟩ | ⟨w, rest, hi, _, rfl⟩
  · exact blockReset_blockGood _
  · rcases hu with ⟨rest, _, rfl⟩ | ⟨_, rfl⟩
    · exact tick_blockGood (h.withScript rest) htick
    · exact tick_blockGood h htick
  · exact runRequest_blockGood (h.withScript rest) hi hrun
  · exact acceptWord_blockGood w (h.withScript rest) hi

/-- Settles O12: a good pin map binds every line and gives each pin at most one. -/
theorem badPinMapHasNoRuns : Obligations.BadPinMapHasNoRuns := by
  unfold Obligations.BadPinMapHasNoRuns
  intro s hbad
  refine step_refused (Bool.eq_false_iff.mpr fun hvalid => ?_)
  rcases hbad with ⟨l, m, p, hne, hl, hm⟩ | ⟨l, hunbound⟩
  · exact hne (PinMap.line_unique_of_valid hvalid hl hm)
  · obtain ⟨p, hp⟩ := PinMap.exists_pin_of_valid hvalid l
    exact hunbound p hp

/-- Settles O13: each of the four things a step can be (`step_next`) keeps the build. -/
theorem buildNeverChanges : Obligations.BuildNeverChanges := by
  unfold Obligations.BuildNeverChanges
  exact fun _ _ hstep => step_cfg hstep

/-- Settles O49: a field changes by a rejection, or by a step of pseudocode that only its writers have. -/
theorem ctrlFieldsHaveTheirWriters : Obligations.CtrlFieldsHaveTheirWriters := by
  unfold Obligations.CtrlFieldsHaveTheirWriters
  exact fun _ _ _ h => ⟨exec_init_writers h, exec_orient_writers h, exec_err_writers h, exec_errCode_writers h,
    exec_cssel_writers h⟩

/-- Settles O11: every listed value is read off `State.reset`. -/
theorem resetStateIsAsListed : Obligations.ResetStateIsAsListed := by
  unfold Obligations.ResetStateIsAsListed
  exact ⟨rfl, rfl, rfl, rfl, rfl, rfl, rfl, rfl, rfl, fun _ => rfl⟩

/-- Settles O52: the reset values are inside the invariant, nothing is listed in a memory, and each line has its own pin. -/
theorem resetMeetsTheInvariant : Obligations.ResetMeetsTheInvariant := by
  unfold Obligations.ResetMeetsTheInvariant
  exact ⟨reset_blockGood, memWf_reset, Config.build_valid⟩

end Sys2Proof.Proofs

/-! PROOFS. The statements of 20_memory: the canonical form of the memories, the framebuffer requests and what they leave alone, the two ways a request is carried out, the cell mapping and the panel's command bytes. -/

namespace Sys2Proof.Machine

/-! ### Every step keeps the canonical form -/

theorem OnlyWaits.memWf {s t : State} (h : OnlyWaits s t) : t.memWf = s.memWf := by
  rw [State.memWf, State.memWf, h.fb, h.panel]

/-- A panel command, which touches no cell, keeps the canonical form (20_memory R61). -/
theorem onSelected_memWf {f : Chip → Chip} (hf : ∀ c, (f c).cells = c.cells) {s : State} (h : s.memWf = true) :
    (onSelected f s).memWf = true := by
  rw [memWf_iff] at h ⊢
  exact ⟨h.1, onReached_wf h.2 _ _ _ fun _ c hc => by rwa [hf c]⟩

theorem exec_memWf {i : Instr} {s t : State} (h : s.memWf = true) (he : exec i s = .next t) : t.memWf = true := by
  rcases exec_next he with ⟨_, _, e, _, rfl⟩ | ⟨_, _, hc, rfl⟩ | ⟨_, f, rfl, hf⟩
  · exact h
  · exact runOps_memWf (program_inFb s.cfg (check_addressGood hc)) (s := accept i s) h
  · exact onSelected_memWf hf h

theorem runRequest_memWf {w : Word} {s t : State} (h : s.memWf = true) (hw : runRequest w s = .next t) :
    t.memWf = true := by
  rcases runRequest_next hw with ⟨_, rfl⟩ | ⟨i, _, he⟩
  · exact h
  · exact exec_memWf h he

theorem acceptWord_memWf (w : Word) (s : State) : (acceptWord w s).memWf = s.memWf := by
  rcases acceptWord_cases w s with ⟨_, e⟩ | ⟨i, c, _, _, e⟩ | ⟨i, _, _, e⟩ <;> rw [e] <;> rfl

/-- A pending FBWR has passed its range check, so the step that is due writes inside the framebuffer (20_memory R48). -/
theorem BlockGood.opInFb {s : State} {p : InProgress} {op : MicroOp} (h : BlockGood s) (he : s.engine = .busy p)
    (hop : (program s.cfg p.req)[p.pos]? = some op) : opInFb op := by
  obtain ⟨_, _, _, ha⟩ := (State.engineGood_busy he).mp h.engine
  exact program_inFb s.cfg ha op (List.mem_of_getElem? hop)

theorem tick_memWf {s t : State} (hg : BlockGood s) (h : s.memWf = true) (ht : tick s = .next t) : t.memWf = true := by
  rcases tick_next ht with ⟨_, rfl⟩ | ⟨p, op, he, hop, ⟨d, _, rfl⟩ | ⟨_, rfl⟩⟩
  · exact h
  · rw [(tickWait_only d s).memWf, h]
  · exact stepOp_memWf h (hg.opInFb he hop)

/-! ### A request on an IDLE block -/

theorem exec_accepted {i : Instr} {s : State} (hr : i.isRequest = true) (hi : s.engine = .idle)
    (hc : check i s = none) : exec i s = .next (runOps (program s.cfg i) (accept i s)) := by
  rcases exec_cases i s with ⟨_, e⟩ | ⟨hp, _⟩
  · rw [e, hc, carryOut_idle i _ hi]
  · exact absurd hr (by simp [hp])

theorem exec_rejected {i : Instr} {s : State} {e : ErrCode} (hr : i.isRequest = true) (hi : s.engine = .idle)
    (hc : check i s = some e) : exec i s = .next (raiseError e (accept i s)) := by
  rcases exec_cases i s with ⟨_, he⟩ | ⟨hp, _⟩
  · rw [he, hc, carryOut_rejects i e _ hi]
  · exact absurd hr (by simp [hp])

/-- A request ends with the engine IDLE, and a panel command does not touch the engine (60_exceptions R128). -/
theorem exec_engine_idle {i : Instr} {s t : State} (hi : s.engine = .idle) (he : exec i s = .next t) :
    t.engine = .idle := by
  rcases exec_next he with ⟨_, _, e, _, rfl⟩ | ⟨hr, _, _, rfl⟩ | ⟨_, f, rfl, _⟩
  · rfl
  · obtain ⟨body, a, hp, _⟩ := program_shape s.cfg i hr
    rw [hp, runOps_complete, complete_engine]
  · exact hi

/-! ### The framebuffer requests (42_host_port R120 to R122) -/

section FramebufferRequests

variable {s : State} (hi : s.engine = .idle)
include hi

theorem exec_fbwr {a : BitVec 12} (ha : a.toNat < 1536) (v : Byte) :
    exec (.fbwr a v) s = .next (complete 0x00 false (stepOp (accept (.fbwr a v) s) (.fbWrite a.toNat v))) := by
  rw [exec_accepted (i := .fbwr a v) rfl hi (inFb_none.mpr ha), program, fbwrProgram, runOps_cons, runOps_cons, runOps_nil, stepOp_complete]
  rfl

theorem exec_fbrd {a : BitVec 12} (ha : a.toNat < 1536) :
    exec (.fbrd a) s = .next (complete (fbRead s a.toNat) false (accept (.fbrd a) s)) := by
  rw [exec_accepted (i := .fbrd a) rfl hi (inFb_none.mpr ha), program, fbrdProgram, runOps_cons, runOps_nil, stepOp_complete]
  rfl

theorem exec_fbfill (v : Byte) :
    exec (.fbfill v) s = .next (complete 0x00 false (stepOp (accept (.fbfill v) s) (.fbFill v))) := by
  rw [exec_accepted rfl hi rfl, program, fbfillProgram, runOps_cons, runOps_cons, runOps_nil, stepOp_complete]
  rfl

theorem exec_fbwr_outOfRange {a : BitVec 12} (ha : 1536 ≤ a.toNat) (v : Byte) :
    exec (.fbwr a v) s = .next (raiseError .fbRange (accept (.fbwr a v) s)) :=
  exec_rejected rfl hi (inFb_some ha)

theorem exec_fbrd_outOfRange {a : BitVec 12} (ha : 1536 ≤ a.toNat) :
    exec (.fbrd a) s = .next (raiseError .fbRange (accept (.fbrd a) s)) :=
  exec_rejected rfl hi (inFb_some ha)

end FramebufferRequests

/-- A framebuffer byte after the pseudocode step of FBWR. -/
theorem fbRead_stepOp_fbWrite (a b : Nat) (v : Byte) (s : State) :
    fbRead (stepOp s (.fbWrite a v)) b = if b = a then v else fbRead s b := by
  rw [← fbRead_fbWrite a b v s]
  exact fbRead_congr (advance_fb _) b

/-- A framebuffer byte after the pseudocode step of FBFILL and CLEAR. -/
theorem fbRead_stepOp_fbFill {b : Nat} (h : b < 1536) (v : Byte) (s : State) : fbRead (stepOp s (.fbFill v)) b = v :=
  (fbRead_congr (advance_fb _) b).trans (fbRead_fbFill b v s h)

/-! ### Who writes a framebuffer byte (20_memory R47) -/

/-- The steps that leave the framebuffer byte at offset `a` alone: all but a fill and the write there. -/
def keepsByte (a : Nat) : MicroOp → Bool
  | .fbWrite b _ => b != a
  | .fbFill _ => false
  | _ => true

theorem stepOp_fbRead (a : Nat) (op : MicroOp) (s : State) (h : keepsByte a op = true) :
    fbRead (stepOp s op) a = fbRead s a := by
  cases op
  case fbWrite b v =>
    have hne : a ≠ b := by rintro rfl; simp [keepsByte] at h
    rw [fbRead_stepOp_fbWrite, if_neg hne]
  case fbFill v => exact absurd h (by simp [keepsByte])
  all_goals exact fbRead_congr (by simp [stepOp, runOp]) a

theorem refreshKind_keepsByte (a : Nat) (op : MicroOp) (h : refreshKind op = true) : keepsByte a op = true := by
  cases op <;> simp_all [refreshKind, keepsByte]

theorem program_keepsByte (a : Nat) (c : Config) {i : Instr} (hw : ∀ b v, i = .fbwr b v → b.toNat ≠ a)
    (hf : ∀ v, i ≠ .fbfill v) (hc : i ≠ .clear) : (program c i).all (keepsByte a) = true := by
  cases i
  case fbwr b v => simpa [program, fbwrProgram, keepsByte] using hw b v rfl
  case fbfill v => exact absurd rfl (hf v)
  case clear => exact absurd rfl hc
  case refresh => rw [program, refreshProgram, List.all_append, refreshOps_all (refreshKind_keepsByte a) c]; rfl
  all_goals rfl

/-- Only an FBWR there, an FBFILL, or a CLEAR that is not rejected changes the framebuffer byte at offset `a`. -/
theorem exec_fbRead {a : Nat} {i : Instr} {s t : State} (h : exec i s = .next t)
    (hw : ∀ b v, i = .fbwr b v → b.toNat ≠ a) (hf : ∀ v, i ≠ .fbfill v) (hc : i = .clear → s.ctrl.init = false) :
    fbRead t a = fbRead s a := by
  rcases exec_next h with ⟨_, _, e, _, rfl⟩ | ⟨_, _, hcheck, rfl⟩ | ⟨_, f, rfl, _⟩
  · rfl
  · have hclear : i ≠ .clear := by
      rintro rfl
      simp [check, needsInit_eq, hc rfl] at hcheck
    exact runOps_keeps (fbRead · a) (stepOp_fbRead a) (program_keepsByte a s.cfg hw hf hclear) (accept i s)
  · rfl

theorem runsWithoutWriting_fbRead_and_idle {a : Nat} {is : List Instr} {s t : State}
    (h : RunsWithoutWriting a is s t) (hi : s.engine = .idle) : fbRead t a = fbRead s a ∧ t.engine = .idle := by
  induction is generalizing s with
  | nil =>
    obtain rfl : t = s := h
    exact ⟨rfl, hi⟩
  | cons i is ih =>
    obtain ⟨hw, hf, hc, u, he, hrest⟩ := h
    obtain ⟨hread, hidle⟩ := ih hrest (exec_engine_idle hi he)
    exact ⟨hread.trans (exec_fbRead he hw hf hc), hidle⟩

/-- What FBRD returns after instructions that do not write its byte. -/
theorem runsWithoutWriting_fbrd {a : BitVec 12} (ha : a.toNat < 1536) {s u : State} (hi : s.engine = .idle) {v : Byte}
    (hv : fbRead s a.toNat = v) {is : List Instr} (h : RunsWithoutWriting a.toNat is s u) :
    ∃ r, exec (.fbrd a) u = .next r ∧ r.rsp = { data := v, err := false } := by
  obtain ⟨hread, hidle⟩ := runsWithoutWriting_fbRead_and_idle h hi
  exact ⟨_, exec_fbrd hidle ha, by rw [complete_rsp, hread, hv]⟩

/-! ### The step while a request is in progress -/

theorem step_pause {s : State} {rest : List HostEvent} (hv : s.cfg.valid = true) (hs : s.script = .pause :: rest) :
    step s = tick { s with script := rest } := by
  simp [step, hv, stepValid, hs]

/-- A BUSY block takes its engine step and leaves the host's word where it is (60_exceptions R127). -/
theorem step_busy {s : State} {p : InProgress} (hv : s.cfg.valid = true) (he : s.engine = .busy p)
    (hs : ∀ r, s.script ≠ .blockReset :: r ∧ s.script ≠ .pause :: r) : step s = tick s := by
  rw [step, if_pos hv, stepValid]
  split
  · exact absurd ‹_› (hs _).1
  · exact absurd ‹_› (hs _).2
  · next hidle => exact absurd (hidle.symm.trans he) (by simp)
  · next hidle => exact absurd (hidle.symm.trans he) (by simp)
  · rfl

theorem step_requestStepwise {s : State} {w : Word} {rest : List HostEvent} (hv : s.cfg.valid = true)
    (hi : s.engine = .idle) (hs : s.script = .requestStepwise w :: rest) :
    step s = .next (acceptWord w { s with script := rest }) := by
  simp [step, hv, stepValid, hs, hi]

theorem acceptWord_accepted {w : Word} {i : Instr} {s : State} (hdec : decodeRequest w = some i)
    (hc : check i s = none) : acceptWord w s = accept i s := by
  simp only [acceptWord, hdec, hc]

theorem acceptWord_rejected {w : Word} {i : Instr} {s : State} {e : ErrCode} (hdec : decodeRequest w = some i)
    (hc : check i s = some e) : acceptWord w s = raiseError e (accept i s) := by
  simp only [acceptWord, hdec, hc]

/-! ### The panel's commands -/

/-- The panel reads a command byte as one of its own commands, never as a host request. -/
theorem decodePanel_isRequest {c : CmdCodes} {b : Byte} {i : Instr} (h : decodePanel c b = some i) :
    i.isRequest = false := by
  unfold decodePanel at h
  split_ifs at h <;> cases h <;> rfl

/-- A byte that the panel reads as a command has that command's meaning (20_memory R61). -/
theorem exec_of_decodePanel {s : State} {b : Byte} {i : Instr} (h : decodePanel s.cfg.codes b = some i) :
    exec i s = .next (panelCommand b s) := by
  have hcommand := decodePanel_isRequest h
  rw [panelCommand, h]
  cases i
  case displayOn | setColumn | setPage | startLine => rfl
  all_goals exact absurd hcommand (by simp [Instr.isRequest])

/-- EN falls on a command write: the panel's part, and around it the block's own (30_encoding R80). -/
theorem stepOp_enFall_command {s : State} {p : InProgress} (he : s.engine = .busy p) (hrs : s.lines.rs = false)
    (hrw : s.lines.rw = false) :
    stepOp s .enFall = { panelCommand s.lines.dbOut s with
      lines := { (panelCommand s.lines.dbOut s).lines with en := false }
      traceRev := commandTx s.lines.cs s.lines.dbOut :: (panelCommand s.lines.dbOut s).traceRev
      engine := .busy { p with pos := p.pos + 1 } } := by
  have hbyte : txByte s = s.lines.dbOut := txByte_write hrw rfl
  have hlatch : panelLatch s.lines.dbOut s = panelCommand s.lines.dbOut s := by rw [panelLatch, hrs, hrw]
  have htx : txNow s.lines.dbOut s = commandTx s.lines.cs s.lines.dbOut := by rw [txNow, hrs, hrw]; rfl
  rw [stepOp, advance, runOp, onProgress_busy _ _ p (by rw [enFall_engine, he]), enFall, hbyte, hlatch, htx]
  rfl

/-- The chips reached do `f`, the others nothing. -/
theorem onSelected_eq (f : Chip → Chip) (s : State) :
    onSelected f s = { s with panel :=
      { chip1 := if reaches s.cfg.noneSelected s.lines.cs 1 then f (s.panel.chip 1) else s.panel.chip 1
        chip2 := if reaches s.cfg.noneSelected s.lines.cs 2 then f (s.panel.chip 2) else s.panel.chip 2
        chip3 := if reaches s.cfg.noneSelected s.lines.cs 3 then f (s.panel.chip 3) else s.panel.chip 3 } } := rfl

end Sys2Proof.Machine

namespace Sys2Proof.Proofs

open Machine

/-- Settles O54: each of the four things a step can be (`step_next`) keeps the canonical form. -/
theorem stepKeepsMemoryCanonical : Obligations.StepKeepsMemoryCanonical := by
  unfold Obligations.StepKeepsMemoryCanonical
  intro s t hg h hstep
  obtain ⟨_, hcases⟩ := step_next hstep
  rcases hcases with ⟨rest, _, rfl⟩ | ⟨u, hu, htick⟩ | ⟨w, rest, _, _, hrun⟩ | ⟨w, rest, _, _, rfl⟩
  · exact blockReset_memWf (s := { s with script := rest }) h
  · rcases hu with ⟨rest, _, rfl⟩ | ⟨_, rfl⟩
    · exact tick_memWf (hg.withScript rest) h htick
    · exact tick_memWf hg h htick
  · exact runRequest_memWf (s := { s with script := rest }) h hrun
  · exact (acceptWord_memWf w { s with script := rest }).trans h

/-- Settles O39: the range check passes exactly the offsets below 1536. -/
theorem fbOffsetOutOfRangeIsRejected : Obligations.FbOffsetOutOfRangeIsRejected := by
  unfold Obligations.FbOffsetOutOfRangeIsRejected
  intro s a v hi
  refine ⟨fun ha => ?_, fun ha => ⟨⟨_, exec_fbwr_outOfRange hi ha v, rejected_accept _ _ s⟩,
    ⟨_, exec_fbrd_outOfRange hi ha, rejected_accept _ _ s⟩⟩⟩
  have hin : a.toNat < 1536 := by omega
  refine ⟨⟨_, exec_fbwr hi hin v, rfl, ?_⟩, ⟨_, exec_fbrd hi hin, rfl⟩⟩
  exact (fbRead_stepOp_fbWrite a.toNat a.toNat v _).trans (if_pos rfl)

/-- Settles O42: the byte written, or the reset draw, is what the run of instructions after it leaves for FBRD. -/
theorem fbrdReturnsTheLatestWrite : Obligations.FbrdReturnsTheLatestWrite := by
  unfold Obligations.FbrdReturnsTheLatestWrite
  intro s u a v is hi ha
  refine ⟨fun hnone => runsWithoutWriting_fbrd ha hi ?_, ⟨_, exec_fbwr hi ha v, runsWithoutWriting_fbrd ha rfl ?_⟩,
    ⟨_, exec_fbfill hi v, runsWithoutWriting_fbrd ha rfl ?_⟩, fun hinit => ?_⟩
  · rw [fbRead, hnone]; rfl
  · exact (fbRead_stepOp_fbWrite a.toNat a.toNat v _).trans (if_pos rfl)
  · exact fbRead_stepOp_fbFill ha v _
  · obtain ⟨z, t, rfl, hrefreshed, _, he⟩ := clear_request hi hinit
    refine ⟨_, he, runsWithoutWriting_fbrd ha rfl ?_⟩
    exact (fbRead_congr hrefreshed.fb a.toNat).trans (fbRead_stepOp_fbFill ha 0x00 _)

/-- Settles O50: none of the other instructions has a step of pseudocode that writes the framebuffer. -/
theorem onlyThreeRequestsWriteTheFramebuffer : Obligations.OnlyThreeRequestsWriteTheFramebuffer := by
  unfold Obligations.OnlyThreeRequestsWriteTheFramebuffer
  intro i s t h hw hf hc a
  exact exec_fbRead h (fun b v e => absurd e (hw b v)) hf (fun e => absurd e hc)

/-- Settles O57: the accepting step rejects the request as the whole does, or leaves the pseudocode that the whole runs. -/
theorem stepwiseRunReachesTheSameState : Obligations.StepwiseRunReachesTheSameState := by
  unfold Obligations.StepwiseRunReachesTheSameState
  intro s t w i hv hi hs hdec hexec
  have hr : i.isRequest = true := decodeRequest_isRequest hdec
  have haccept : step { s with script := [.requestStepwise w] } = .next (acceptWord w s) := by
    have hs' : { s with script := [] } = s := by rw [← hs]
    rw [step_requestStepwise (s := { s with script := [.requestStepwise w] }) hv hi rfl, hs']
  rcases exec_next hexec with ⟨_, _, e, hc, rfl⟩ | ⟨_, _, hc, rfl⟩ | ⟨hp, _⟩
  · exact ⟨0, by rw [runSteps_one haccept, acceptWord_rejected hdec hc]⟩
  · obtain ⟨k, hk⟩ := stepwise_rest hr (program s.cfg i) (accept_engine i s) (accept_waiting i s) rfl hv hs
    exact ⟨k, by rw [runSteps_succ haccept, acceptWord_accepted hdec hc, hk]⟩
  · exact absurd hr (by simp [hp])

/-- Settles O7: the step is the engine's, at the fall of EN, where the panel takes the byte it decodes. -/
theorem stepRunsDecodedPanelCommand : Obligations.StepRunsDecodedPanelCommand := by
  unfold Obligations.StepRunsDecodedPanelCommand
  intro s p i rest hv hscript he hop hrs hrw hdec
  have htick : step s = tick { s with script := rest } := by
    rcases hscript with hpause | ⟨rfl, hother⟩
    · exact step_pause hv hpause
    · exact step_busy hv he hother
  refine ⟨_, exec_of_decodePanel (s := { s with script := rest }) hdec, ?_⟩
  rw [htick, tick_op (s := { s with script := rest }) he hop (by simp), stepOp_enFall_command (s := { s with script := rest }) he hrs hrw]

/-- Settles O31: the digits of `a` in the mixed radix 8, 3, 64. -/
theorem offsetInverseFormula : Obligations.OffsetInverseFormula := by
  unfold Obligations.OffsetInverseFormula offset
  intro a ha
  dsimp only
  omega

/-- Settles O30: `offset` writes a triple in the mixed radix 8, 3, 64; its digits give every offset a triple. -/
theorem offsetIsABijection : Obligations.OffsetIsABijection := by
  unfold Obligations.OffsetIsABijection
  refine ⟨fun c p k _ _ _ _ => ?_, fun c p k c' p' k' _ _ _ _ _ _ _ _ => ?_, fun a ha => ?_⟩
  · unfold offset; omega
  · unfold offset; omega
  · exact ⟨_, _, _, offsetInverseFormula a ha⟩

/-- Settles O43: each meaning is its register's change on the chips reached. -/
theorem panelCommandsSetOneRegister : Obligations.PanelCommandsSetOneRegister := by
  unfold Obligations.PanelCommandsSetOneRegister
  intro s c p l
  exact ⟨congrArg Host.Outcome.next (onSelected_eq Chip.displayOn s), congrArg Host.Outcome.next (onSelected_eq (Chip.setColumn c) s),
    congrArg Host.Outcome.next (onSelected_eq (Chip.setPage p) s), congrArg Host.Outcome.next (onSelected_eq (Chip.startLine l) s)⟩

end Sys2Proof.Proofs

/-! PROOFS. The statements of 30_encoding: the two directions of the codes, the table of request words, the pseudo-instructions, the lines while EN is high, the completion of a request and the transactions it records. -/

namespace Sys2Proof

/-! ### The masks of a field -/

theorem and_opMask (x : BitVec 4) : x &&& 0xF#4 = x := by revert x; decide
theorem and_addrMask (x : BitVec 12) : x &&& 0xFFF#12 = x := BitVec.and_allOnes
theorem and_dataMask (x : Byte) : x &&& 0xFF#8 = x := BitVec.and_allOnes

/-- SETORIENT's mask of DATA leaves out bit 0. -/
theorem and_orientMask (x : Byte) : x &&& 0xFE#8 = 0#8 ↔ x.extractLsb' 1 7 = 0#7 := by revert x; decide

/-- Where the bits of SETORIENT's mask are 0, DATA is its bit 0. -/
theorem eq_bit0_of_and_orientMask {x : Byte} (h : x &&& 0xFE#8 = 0#8) : (if x[0] then 1#8 else 0#8) = x := by
  revert x; decide

/-! ### A row of the request table, field by field (30_encoding R65, R66) -/

/-- Every row tests the whole RSV field, and leaves 0 in every field it tests but OP. -/
theorem requestRows_fields : ∀ r ∈ requestRows,
    rsvField r.mask = 0xFF#8 ∧ addrField r.bits = 0 ∧ rsvField r.bits = 0 ∧ dataField r.bits = 0 := by
  simp [requestRows, addrField, rsvField, dataField]

/-- A row's words: its OP, RSV 0, and 0 in the bits of ADDR and DATA that the row does not use. -/
theorem RequestRow.holds_iff_unused {r : RequestRow} (hr : r ∈ requestRows) (w : Word) : r.holds w = true ↔
    opField w = opField r.bits ∧ addrField w &&& addrField r.mask = 0 ∧ rsvField w = 0 ∧
    dataField w &&& dataField r.mask = 0 := by
  obtain ⟨hrsv, ha, hb, hd⟩ := requestRows_fields r hr
  rw [r.holds_iff, requestRows_op r hr, hrsv, ha, hb, hd, and_opMask, and_dataMask]

/-- The rows have different OPs. -/
theorem requestRows_op_nodup : (requestRows.map fun r => opField r.bits).Nodup := by decide

/-- At most one row matches a word (30_encoding R70). -/
theorem RequestRow.eq_of_holds {r q : RequestRow} (hr : r ∈ requestRows) (hq : q ∈ requestRows) {w : Word}
    (hrw : r.holds w = true) (hqw : q.holds w = true) : r = q :=
  List.inj_on_of_nodup_map requestRows_op_nodup hr hq ((op_of_holds hr hrw).symm.trans (op_of_holds hq hqw))

theorem decodeRequest_eq_none_iff (w : Word) : decodeRequest w = none ↔ ¬ ∃ r ∈ requestRows, r.holds w = true := by
  rw [decodeRequest, Option.map_eq_none_iff, List.find?_eq_none]
  simp

/-- A row's word decodes to the row's instruction. -/
theorem decodeRequest_of_holds {r : RequestRow} (hr : r ∈ requestRows) {w : Word} (h : r.holds w = true) :
    decodeRequest w = some (r.instr (addrField w) (dataField w)) := by
  cases hdec : decodeRequest w with
  | none => exact absurd ⟨r, hr, h⟩ ((decodeRequest_eq_none_iff w).mp hdec)
  | some i =>
    obtain ⟨q, hq, hqw, rfl⟩ := Machine.decodeRequest_some hdec
    rw [RequestRow.eq_of_holds hq hr hqw h]

/-! ### The encoder, row by row -/

/-- Operands that keep to the fields a row uses encode to the word with the row's OP and those operands. -/
theorem encode_row (c : CmdCodes) {r : RequestRow} (hr : r ∈ requestRows) {a : BitVec 12} {d : Byte}
    (ha : a &&& addrField r.mask = 0) (hd : d &&& dataField r.mask = 0) :
    encode c (r.instr a d) = .request (requestWord (opField r.bits) a d) := by
  simp only [requestRows, List.mem_cons, List.not_mem_nil, or_false] at hr
  rcases hr with rfl | rfl | rfl | rfl | rfl | rfl | rfl | rfl | rfl | rfl | rfl | rfl | rfl <;>
    simp_all [encode, addrField, dataField, opField, and_addrMask, and_dataMask, eq_bit0_of_and_orientMask]

/-- Every request is a row's instruction, with operands that keep to the fields the row uses. -/
theorem exists_row_of_isRequest {i : Instr} (h : i.isRequest = true) :
    ∃ r ∈ requestRows, ∃ a d, i = r.instr a d ∧ a &&& addrField r.mask = 0 ∧ d &&& dataField r.mask = 0 := by
  cases i
  case wrcmd b => exact ⟨requestRows[0], List.getElem_mem _, 0, b, rfl, by simp [requestRows, addrField, dataField]⟩
  case wrdata b => exact ⟨requestRows[1], List.getElem_mem _, 0, b, rfl, by simp [requestRows, addrField, dataField]⟩
  case rdstat => exact ⟨requestRows[2], List.getElem_mem _, 0, 0, rfl, by simp [requestRows, addrField, dataField]⟩
  case selchip c => exact ⟨requestRows[3], List.getElem_mem _, 0, c, rfl, by simp [requestRows, addrField, dataField]⟩
  case preset => exact ⟨requestRows[4], List.getElem_mem _, 0, 0, rfl, by simp [requestRows, addrField, dataField]⟩
  case init => exact ⟨requestRows[5], List.getElem_mem _, 0, 0, rfl, by simp [requestRows, addrField, dataField]⟩
  case clear => exact ⟨requestRows[6], List.getElem_mem _, 0, 0, rfl, by simp [requestRows, addrField, dataField]⟩
  case setorient r =>
    cases r
    · exact ⟨requestRows[7], List.getElem_mem _, 0, 0, rfl, by simp [requestRows, addrField, dataField]⟩
    · exact ⟨requestRows[7], List.getElem_mem _, 0, 1, rfl, by simp [requestRows, addrField, dataField]⟩
  case refresh => exact ⟨requestRows[8], List.getElem_mem _, 0, 0, rfl, by simp [requestRows, addrField, dataField]⟩
  case fbwr a v => exact ⟨requestRows[9], List.getElem_mem _, a, v, rfl, by simp [requestRows, addrField, dataField]⟩
  case fbrd a => exact ⟨requestRows[10], List.getElem_mem _, a, 0, rfl, by simp [requestRows, addrField, dataField]⟩
  case fbfill v => exact ⟨requestRows[11], List.getElem_mem _, 0, v, rfl, by simp [requestRows, addrField, dataField]⟩
  case rdctrl => exact ⟨requestRows[12], List.getElem_mem _, 0, 0, rfl, by simp [requestRows, addrField, dataField]⟩
  all_goals exact absurd h (by simp [Instr.isRequest])

theorem decode_encode_request (c : CmdCodes) {i : Instr} (h : i.isRequest = true) : decode c (encode c i) = some i := by
  obtain ⟨r, hr, a, d, rfl, ha, hd⟩ := exists_row_of_isRequest h
  have hholds : r.holds (requestWord (opField r.bits) a d) = true := by
    rw [RequestRow.holds_iff_unused hr, requestWord_eq]
    simpa using ⟨ha, hd⟩
  rw [encode_row c hr ha hd, decode, decodeRequest_of_holds hr hholds, requestWord_eq, addrField_fieldsWord,
    dataField_fieldsWord]

theorem encode_decodeRequest (c : CmdCodes) {w : Word} {i : Instr} (h : decodeRequest w = some i) :
    encode c i = .request w := by
  obtain ⟨r, hr, hholds, rfl⟩ := Machine.decodeRequest_some h
  obtain ⟨hop, ha, hrsv, hd⟩ := (RequestRow.holds_iff_unused hr w).mp hholds
  rw [encode_row c hr ha hd, requestWord_eq, ← hop, ← hrsv, fieldsWord_fields]

/-! ### The panel's command bytes (30_encoding R75, R76) -/

/-- A byte is its high two bits and its low six. -/
theorem commandByte_high2_low6 (b : Byte) : commandByte (b &&& 0xC0) (b.extractLsb' 0 6) = b := by
  revert b; decide

/-- A byte is its high five bits and its low three. -/
theorem commandByte_high5_low3 (b : Byte) : commandByte (b &&& 0xF8) (b.extractLsb' 0 3) = b := by
  revert b; decide

theorem encode_decodePanel {c : CmdCodes} {b : Byte} {i : Instr} (h : decodePanel c b = some i) :
    encode c i = .panel b := by
  unfold decodePanel at h
  split_ifs at h with hon hcol hpage hline <;> cases h
  · rw [encode, ← hon]
  · rw [encode, ← hcol, commandByte_high2_low6]
  · rw [encode, ← hpage, commandByte_high5_low3]
  · rw [encode, ← hline, commandByte_high2_low6]

/-! ### The illegal words (30_encoding R68, R69) -/

theorem opField_cases (op : BitVec 4) :
    op = 0x0 ∨ op = 0x1 ∨ op = 0x2 ∨ op = 0x3 ∨ op = 0x4 ∨ op = 0x5 ∨ op = 0x6 ∨ op = 0x7 ∨
    op = 0x8 ∨ op = 0x9 ∨ op = 0xA ∨ op = 0xB ∨ op = 0xC ∨ op = 0xD ∨ op = 0xE ∨ op = 0xF := by
  revert op; decide

/-- A word is some row's exactly when none of its fields is illegal: RSV is every row's, and the rest goes by OP. -/
theorem exists_row_iff (w : Word) : (∃ r ∈ requestRows, r.holds w = true) ↔ ¬ IllegalFields w := by
  rw [exists_congr fun r => and_congr_right fun hr => RequestRow.holds_iff_unused hr w, IllegalFields]
  generalize opField w = op, addrField w = a, rsvField w = v, dataField w = d
  by_cases hv : v = 0#8
  · simp only [requestRows, List.mem_cons, List.not_mem_nil, or_false, exists_eq_or_imp, exists_eq_left, hv]
    rcases opField_cases op with
      rfl | rfl | rfl | rfl | rfl | rfl | rfl | rfl | rfl | rfl | rfl | rfl | rfl | rfl | rfl | rfl <;>
      simp [opField, addrField, dataField, and_addrMask, and_dataMask, and_orientMask]
  · simp [hv]

/-! ### The pseudo-instructions (30_encoding R73) -/

/-- An operand that fits its field is the same byte at the byte's own width. -/
theorem commandByte_ofNat {n k : Nat} (hk : k < 2 ^ n) (base : Byte) :
    commandByte base (BitVec.ofNat n k) = base ||| BitVec.ofNat 8 k := by
  have hz : (BitVec.ofNat n k).zeroExtend 8 = BitVec.ofNat 8 k :=
    BitVec.eq_of_toNat_eq (by simp [Nat.mod_eq_of_lt hk])
  rw [commandByte, hz]

end Sys2Proof

namespace Sys2Proof.Machine

theorem expandPseudo_eq_none {p : Pseudo} (h : p.inRange = false) (c : CmdCodes) : expandPseudo c p = none := by
  simp [expandPseudo, h]

theorem expandPseudo_setstart (c : CmdCodes) {l : Nat} (h : l ≤ 63) :
    expandPseudo c (.setstart l) = some (.wrcmd (c.startLine ||| BitVec.ofNat 8 l)) := by
  simp [expandPseudo, Pseudo.inRange, h, commandByte_ofNat (n := 6) (Nat.lt_succ_of_le h)]

theorem expandPseudo_setpage (c : CmdCodes) {p : Nat} (h : p ≤ 7) :
    expandPseudo c (.setpage p) = some (.wrcmd (c.setPage ||| BitVec.ofNat 8 p)) := by
  simp [expandPseudo, Pseudo.inRange, h, commandByte_ofNat (n := 3) (Nat.lt_succ_of_le h)]

theorem expandPseudo_setcol (c : CmdCodes) {k : Nat} (h : k ≤ 63) :
    expandPseudo c (.setcol k) = some (.wrcmd (c.setColumn ||| BitVec.ofNat 8 k)) := by
  simp [expandPseudo, Pseudo.inRange, h, commandByte_ofNat (n := 6) (Nat.lt_succ_of_le h)]

/-! ### A step that presents a word -/

/-- An idle block takes the word at the head of the host's script and carries it out whole. -/
theorem step_request {s : State} {w : Word} {rest : List HostEvent} (hv : s.cfg.valid = true)
    (hi : s.engine = .idle) (hs : s.script = .request w :: rest) : step s = runRequest w { s with script := rest } := by
  simp [step, hv, stepValid, hs, hi]

theorem runRequest_illegal {w : Word} (h : decodeRequest w = none) (s : State) :
    runRequest w s = .next (raiseError .illegalRequest s) := by
  simp [runRequest, h]

/-- An illegal word presented to an idle block is rejected (30_encoding R69). -/
theorem step_illegal {s : State} {w : Word} {rest : List HostEvent} (hv : s.cfg.valid = true)
    (hi : s.engine = .idle) (hs : s.script = .request w :: rest) (hw : decodeRequest w = none) :
    ∃ t, step s = .next t ∧ Rejected { s with script := rest } t .illegalRequest :=
  ⟨_, (step_request hv hi hs).trans (runRequest_illegal hw _), rejected_illegal _⟩

/-! ### The lines around a pulse of EN (30_encoding R79) -/

/-- No line but EN differs. -/
def OnlyEn (s t : State) : Prop := t.lines = { s.lines with en := t.lines.en }

theorem onlyEn_of_lines_eq {s t : State} (h : t.lines = s.lines) : OnlyEn s t := by
  rw [OnlyEn, h]

/-- While EN is high, pseudocode that is in order waits, samples or drops EN. -/
theorem stepOp_onlyEn_of_high {s : State} {op : MicroOp} (hok : opOk s.driven op = true) (hen : s.lines.en = true) :
    OnlyEn s (stepOp s op) := by
  cases op
  case wait d => exact onlyEn_of_lines_eq (by simp [stepOp, runOp])
  case sampleDb => exact onlyEn_of_lines_eq (by simp [stepOp, runOp])
  case enFall => simp [OnlyEn, stepOp, runOp]
  all_goals exact absurd hok (by simp [opOk, State.driven, hen])

/-- A step of pseudocode that ends with EN high, begun with EN low, is the rise of EN. -/
theorem stepOp_onlyEn_of_rise {s : State} {op : MicroOp} (hlow : s.lines.en = false)
    (hen : (stepOp s op).lines.en = true) : OnlyEn s (stepOp s op) := by
  cases op
  case enRise => simp [OnlyEn, stepOp, runOp]
  all_goals exact absurd hen (by simp [stepOp, runOp, hlow])

/-- Of a request in a good state, a step of pseudocode with EN high at its begin or its end. -/
theorem stepOp_onlyEn {s : State} {p : InProgress} {op : MicroOp} (h : BlockGood s) (he : s.engine = .busy p)
    (hop : (program s.cfg p.req)[p.pos]? = some op) (hen : s.lines.en = true ∨ (stepOp s op).lines.en = true) :
    OnlyEn s (stepOp s op) := by
  obtain ⟨hr, _, hdriven, _⟩ := (State.engineGood_busy he).mp h.engine
  rcases program_at hr hop with ⟨⟨a, rfl⟩, _, _⟩ | ⟨hok, _⟩
  · exact onlyEn_of_lines_eq (by rw [stepOp_complete, complete_lines])
  · cases hlow : s.lines.en
    · exact stepOp_onlyEn_of_rise hlow (hen.resolve_left (by simp [hlow]))
    · exact stepOp_onlyEn_of_high (hdriven ▸ hok) hlow

theorem tick_onlyEn {s t : State} (h : BlockGood s) (ht : tick s = .next t)
    (hen : s.lines.en = true ∨ t.lines.en = true) : OnlyEn s t := by
  rcases tick_next ht with ⟨_, rfl⟩ | ⟨p, op, he, hop, ⟨d, _, rfl⟩ | ⟨_, rfl⟩⟩
  · rfl
  · exact onlyEn_of_lines_eq (tickWait_only d s).lines
  · exact stepOp_onlyEn h he hop hen

/-! ### The completion of a request (30_encoding R74) -/

theorem check_of_rejects {i : Instr} {s : State} {e : ErrCode} (h : rejects i s e) : check i s = some e := by
  rcases h with ⟨rfl, hi, rfl⟩ | ⟨rfl | rfl, hi, rfl⟩ | ⟨⟨a, v, rfl, ha⟩ | ⟨a, rfl, ha⟩, rfl⟩
  · simp [check, needsUninit_eq, hi]
  · simp [check, needsInit_eq, hi]
  · simp [check, needsInit_eq, hi]
  · exact inFb_some ha
  · exact inFb_some ha

/-- What the completion of a request that is not rejected returns. -/
def answerOf : Instr → Answer
  | .rdstat => .sampled
  | .fbrd a => .fbByte a.toNat
  | .rdctrl => .ctrl
  | _ => .zero

theorem program_getLast? (c : Config) {i : Instr} (h : i.isRequest = true) :
    (program c i).getLast? = some (.complete (answerOf i)) := by
  cases i
  case refresh => exact List.getLast?_concat
  case clear => exact List.getLast?_concat
  case displayOn | setColumn | setPage | startLine => exact absurd h (by simp [Instr.isRequest])
  all_goals rfl

/-- A request's pseudocode is a well-timed body and then the completion with the request's own answer. -/
theorem program_body (c : Config) {i : Instr} (h : i.isRequest = true) :
    ∃ body, program c i = body ++ [.complete (answerOf i)] ∧ okRun Driven.rest body = true := by
  obtain ⟨body, a, hp, hok⟩ := program_shape c i h
  have hlast := program_getLast? c h
  rw [hp, List.getLast?_concat] at hlast
  injection hlast with hlast
  exact ⟨body, hlast ▸ hp, hok⟩

theorem stepOp_completionsRev {op : MicroOp} (h : isComplete op = false) (s : State) :
    (stepOp s op).completionsRev = s.completionsRev := by
  cases op
  case complete a => exact absurd h (by simp [isComplete])
  all_goals simp [stepOp, runOp]

/-- A well-timed run completes nothing. -/
theorem okRun_completionsRev {d : Driven} {ops : List MicroOp} (h : okRun d ops = true) (s : State) :
    (runOps ops s).completionsRev = s.completionsRev := by
  induction ops generalizing d s with
  | nil => rfl
  | cons op ops ih =>
    simp only [okRun, opOk, Bool.and_eq_true, Bool.not_eq_true'] at h
    obtain ⟨⟨⟨_, hcomplete⟩, _⟩, hrest⟩ := h
    rw [runOps_cons, ih hrest, stepOp_completionsRev hcomplete]

/-- The byte a request that is not rejected responds with (30_encoding R74). -/
def responseByte (i : Instr) (s : State) : Byte :=
  match i with
  | .rdstat => Config.statusValue s.draws.status
  | .fbrd a => fbRead s a.toNat
  | .rdctrl => ctrlReg s
  | _ => 0x00

theorem responseByte_eq_zero {i : Instr} {s : State} (hstat : i ≠ .rdstat) (hfb : ∀ a, i ≠ .fbrd a)
    (hctrl : i ≠ .rdctrl) : responseByte i s = 0x00 := by
  cases i
  case rdstat => exact absurd rfl hstat
  case fbrd a => exact absurd rfl (hfb a)
  case rdctrl => exact absurd rfl hctrl
  all_goals rfl

/-- The sample of a status read is the level of the released lines, a free value (40_bus_interface R89, R90). -/
theorem busRead_localV (i : Instr) (s : State) :
    localV (runOps busReadOps (accept i s)) = Config.statusValue s.draws.status := by
  simp [busReadOps, stepOp, runOp, advance, onProgress, sampleDb, drawStatus, localV, dbLevels, accept, onLines, drawWait, enFall]

/-- The answer of a request's completion, once its body has run. -/
theorem answerByte_body {i : Instr} {s : State} {body : List MicroOp}
    (hp : program s.cfg i = body ++ [.complete (answerOf i)]) :
    answerByte (answerOf i) (runOps body (accept i s)) = responseByte i s := by
  cases i
  case rdstat =>
    obtain rfl : busReadOps = body := List.append_cancel_right hp
    exact busRead_localV .rdstat s
  case fbrd a =>
    obtain rfl : [] = body := List.append_cancel_right hp
    rfl
  case rdctrl =>
    obtain rfl : [] = body := List.append_cancel_right hp
    rfl
  all_goals rfl

/-- A request whose check passes completes once, with its response. -/
theorem runOps_program_completed {i : Instr} (hr : i.isRequest = true) (s : State) :
    Completed s (runOps (program s.cfg i) (accept i s)) { data := responseByte i s, err := false } := by
  obtain ⟨body, hp, hok⟩ := program_body s.cfg hr
  rw [hp, runOps_complete, answerByte_body hp]
  exact completed_of (runOps_cfg body _) (runOps_script body _) (okRun_completionsRev hok _)

/-! ### The chips a strobe reaches (30_encoding R81) -/

/-- With no chip selected, a strobe reaches every chip or none (20_memory R60). -/
theorem reaches_none (n : NoneSelected) {j : Nat} (hj : isChip j) : reaches n (csOf 0) j = (n == .broadcast) := by
  rcases hj with rfl | rfl | rfl <;> cases n <;> rfl

/-! ### The transactions of a request (30_encoding R81, R82) -/

/-- A transaction that a request may record: its kind is one of the request's, and its chip selects are legal. -/
def allowedTx (i : Instr) (x : Tx) : Prop :=
  csLegal x.cs = true ∧
  ((x.rs = false ∧ x.rw = false ∧ ((∃ b, i = .wrcmd b) ∨ i = .init ∨ i = .refresh ∨ i = .clear)) ∨
   (x.rs = true ∧ x.rw = false ∧ ((∃ b, i = .wrdata b) ∨ i = .refresh ∨ i = .clear)) ∨
   (x.rs = false ∧ x.rw = true ∧ i = .rdstat))

/-- The trace of `t` is that of `s` and transactions that the request `i` may record. -/
def RecordsAllowed (i : Instr) (s t : State) : Prop := ∃ txs, t.trace = s.trace ++ txs ∧ ∀ x ∈ txs, allowedTx i x

theorem recordsAllowed_of_trace_eq (i : Instr) {s t : State} (h : t.trace = s.trace) : RecordsAllowed i s t :=
  ⟨[], by rw [h, List.append_nil], by simp⟩

theorem RecordsAllowed.trans {i : Instr} {s t u : State} (h : RecordsAllowed i s t) (k : RecordsAllowed i t u) :
    RecordsAllowed i s u := by
  obtain ⟨xs, hx, hxs⟩ := h
  obtain ⟨ys, hy, hys⟩ := k
  exact ⟨xs ++ ys, by rw [hy, hx, List.append_assoc], fun x hm => (List.mem_append.mp hm).elim (hxs x) (hys x)⟩

theorem RecordsAllowed.complete {i : Instr} {s t : State} (h : RecordsAllowed i s t) (d : Byte) (e : Bool) :
    RecordsAllowed i s (complete d e t) := h

/-- The steps that record no transaction: all but the fall of EN. -/
def keepsTrace : MicroOp → Bool
  | .enFall => false
  | _ => true

theorem stepOp_trace (op : MicroOp) (s : State) (h : keepsTrace op = true) : (stepOp s op).trace = s.trace := by
  cases op
  case enFall => exact absurd h (by simp [keepsTrace])
  all_goals simp [State.trace, stepOp, runOp]

/-- Every step leaves the chip selects legal. -/
theorem stepOp_csLegal {s : State} (op : MicroOp) (h : csLegal s.lines.cs = true) :
    csLegal (stepOp s op).lines.cs = true := by
  cases op
  case selectChip c => simpa [stepOp, runOp] using selectLines_legal c s.lines
  all_goals rwa [stepOp_cs _ s rfl]

theorem runOps_csLegal {ops : List MicroOp} {s : State} (h : csLegal s.lines.cs = true) :
    csLegal (runOps ops s).lines.cs = true := by
  induction ops generalizing s with
  | nil => exact h
  | cons op ops ih => exact ih (stepOp_csLegal op h)

theorem csOf_legal (k : Nat) : csLegal (csOf k) = true := by
  unfold csOf; split_ifs <;> rfl

/-- Every transaction of a refresh is a command or a data write with legal chip selects. -/
theorem refreshTrace_kinds {s : State} (h : csLegal s.lines.cs = true) {x : Tx} (hx : x ∈ refreshTrace s) :
    csLegal x.cs = true ∧ x.rw = false := by
  simp only [refreshTrace, chipTrace, pageTrace, List.mem_append, List.mem_cons, List.mem_flatMap, List.mem_map,
    List.not_mem_nil, or_false] at hx
  rcases hx with (rfl | ⟨k, _, rfl | ⟨p, _, rfl | ⟨c, _, rfl⟩⟩⟩) | rfl
  · exact ⟨h, rfl⟩
  · exact ⟨csOf_legal k, rfl⟩
  · exact ⟨csOf_legal k, rfl⟩
  · exact ⟨csOf_legal k, rfl⟩
  · exact ⟨csOf_legal 3, rfl⟩

theorem refreshed_recordsAllowed {i : Instr} (hi : i = .refresh ∨ i = .clear) {s t : State} (h : Refreshed s t)
    (hcs : csLegal s.lines.cs = true) : RecordsAllowed i s t := by
  refine ⟨_, h.trace, fun x hx => ?_⟩
  obtain ⟨hlegal, hrw⟩ := refreshTrace_kinds hcs hx
  refine ⟨hlegal, ?_⟩
  cases hrs : x.rs
  · exact .inl ⟨rfl, hrw, .inr (.inr hi)⟩
  · exact .inr (.inl ⟨rfl, hrw, .inr hi⟩)

/-- A bus write records the one transaction it is. -/
theorem busWrite_recordsAllowed {i : Instr} {rs : Bool} {b : Byte} {s : State}
    (h : allowedTx i ⟨rs, false, s.lines.cs, b⟩) : RecordsAllowed i s (runOps (busWriteOps rs b) s) :=
  ⟨_, (busWrite_sent rs b s).trace, by simpa using h⟩

/-- The status read records one transaction, a status read. -/
theorem busRead_trace (s : State) : ∃ v, (runOps busReadOps s).trace = s.trace ++ [⟨false, true, s.lines.cs, v⟩] :=
  ⟨_, by simp [busReadOps, stepOp, runOp, State.trace, txNow, Lines.cs]; rfl⟩

/-- INIT records its two commands (41_refresh_driver R99). -/
theorem init_recordsAllowed (c : Config) {s : State} (h : csLegal s.lines.cs = true) :
    RecordsAllowed .init s (runOps (initProgram c) s) := by
  have hcommand : ∀ (b : Byte) {u : State}, csLegal u.lines.cs = true →
      RecordsAllowed .init u (runOps (busWriteOps false b) u) :=
    fun b u hu => busWrite_recordsAllowed ⟨hu, .inl ⟨rfl, rfl, .inr (.inl rfl)⟩⟩
  have hlegal : csLegal (runOps (panelResetOps ++ [.selectChip 0]) s).lines.cs = true := runOps_csLegal h
  have hreset := runOps_keeps State.trace stepOp_trace (ops := panelResetOps ++ [.selectChip 0]) rfl s
  have hend : ∀ u, (runOps [.setInit, .complete .zero] u).trace = u.trace := runOps_keeps State.trace stepOp_trace rfl
  rw [initProgram, runOps_append, runOps_append, runOps_append]
  exact (((recordsAllowed_of_trace_eq .init hreset).trans (hcommand _ hlegal)).trans
    (hcommand _ (runOps_csLegal hlegal))).trans (recordsAllowed_of_trace_eq .init (hend _))

/-- A request's pseudocode records no transaction but the request's own. -/
theorem program_recordsAllowed {i : Instr} {s : State} (h : csLegal s.lines.cs = true) :
    RecordsAllowed i s (runOps (program s.cfg i) s) := by
  cases i
  case wrcmd b =>
    rw [program, wrcmdProgram, runOps_complete]
    exact (busWrite_recordsAllowed ⟨h, .inl ⟨rfl, rfl, .inl ⟨b, rfl⟩⟩⟩).complete _ _
  case wrdata b =>
    rw [program, wrdataProgram, runOps_complete]
    exact (busWrite_recordsAllowed ⟨h, .inr (.inl ⟨rfl, rfl, .inl ⟨b, rfl⟩⟩)⟩).complete _ _
  case rdstat =>
    obtain ⟨v, hv⟩ := busRead_trace s
    rw [program, rdstatProgram, runOps_complete]
    exact RecordsAllowed.complete ⟨_, hv, by simpa [allowedTx] using h⟩ _ _
  case init => exact init_recordsAllowed s.cfg h
  case refresh =>
    rw [program, refreshProgram, runOps_complete]
    exact (refreshed_recordsAllowed (.inl rfl) (refresh_does s) h).complete _ _
  case clear =>
    have hfill : (stepOp s (.fbFill 0x00)).trace = s.trace := stepOp_trace _ s rfl
    have hr := refreshed_recordsAllowed (i := .clear) (.inr rfl) (refresh_does (stepOp s (.fbFill 0x00)))
      (stepOp_csLegal _ h)
    rw [stepOp_cfg] at hr
    rw [program, clearProgram, List.cons_append, runOps_cons, runOps_complete]
    exact ((recordsAllowed_of_trace_eq .clear hfill).trans hr).complete _ _
  all_goals exact recordsAllowed_of_trace_eq _ (runOps_keeps State.trace stepOp_trace rfl s)

end Sys2Proof.Machine

namespace Sys2Proof.Proofs

open Machine

/-- Settles O2: a request's encoding is a word of its own row of the table, and the panel reads a command's byte as that command. -/
theorem decodeEncodeRoundTrip : Obligations.DecodeEncodeRoundTrip := by
  unfold Obligations.DecodeEncodeRoundTrip
  intro i
  cases i
  case displayOn => exact decodePanel_displayOn
  case setColumn c => exact decodePanel_setColumn c
  case setPage p => exact decodePanel_setPage p
  case startLine l => exact decodePanel_startLine l
  all_goals exact decode_encode_request _ rfl

/-- Settles O56: with EN high a request in progress waits, samples or drops EN, and the step that raises EN moves no other line. -/
theorem linesHoldWhileEnIsHigh : Obligations.LinesHoldWhileEnIsHigh := by
  unfold Obligations.LinesHoldWhileEnIsHigh
  intro s t p h he hscript hstep hen
  obtain ⟨_, hcases⟩ := step_next hstep
  rcases hcases with ⟨rest, hs, _⟩ | ⟨u, hu, htick⟩ | ⟨_, _, hi, _⟩ | ⟨_, _, hi, _⟩
  · exact absurd hs (hscript rest)
  · rcases hu with ⟨rest, _, rfl⟩ | ⟨_, rfl⟩
    · exact tick_onlyEn (s := { s with script := rest }) (h.withScript rest) htick hen
    · exact tick_onlyEn h htick hen
  · exact absurd (he.symm.trans hi) (by simp)
  · exact absurd (he.symm.trans hi) (by simp)

/-- Settles O3: the row a word belongs to, or the panel's case a byte falls under, gives back all its bits. -/
theorem encodeDecodeRoundTrip : Obligations.EncodeDecodeRoundTrip := by
  unfold Obligations.EncodeDecodeRoundTrip
  intro e i h
  cases e with
  | request w => exact encode_decodeRequest _ h
  | panel b => exact encode_decodePanel h

/-- Settles O4: the rows have different OPs, and each tests all of OP. -/
theorem requestRowsNeverOverlap : Obligations.RequestRowsNeverOverlap := by
  unfold Obligations.RequestRowsNeverOverlap
  refine (List.pairwise_map.mp requestRows_op_nodup).imp_of_mem fun hr hq hne w hboth => hne ?_
  exact (RequestRow.op_of_holds hr hboth.1).symm.trans (RequestRow.op_of_holds hq hboth.2)

/-- Settles O5: no row has a word with an illegal field, each other word has a row, and a word with no row is rejected. -/
theorem illegalWordsAreRejected : Obligations.IllegalWordsAreRejected := by
  unfold Obligations.IllegalWordsAreRejected
  intro w
  have hnone : decodeRequest w = none ↔ IllegalFields w := by
    rw [decodeRequest_eq_none_iff, exists_row_iff, not_not]
  exact ⟨hnone, exists_row_iff w, fun hw s rest hv hi hs => step_illegal hv hi hs (hnone.mpr hw)⟩

/-- Settles O47: a rejection completes with rsp_err = 1, and a request that is not rejected with its own response. -/
theorem everyRequestCompletesOnce : Obligations.EveryRequestCompletesOnce := by
  unfold Obligations.EveryRequestCompletesOnce
  refine ⟨fun s w rest hv hi hs hw => ?_, fun i s hr hi => ?_⟩
  · obtain ⟨t, ht, hrejected⟩ := step_illegal hv hi hs hw
    exact ⟨t, ht, hrejected.completed⟩
  · cases hc : check i s with
    | some e =>
      exact ⟨_, _, exec_rejected hr hi hc, (rejected_accept i e s).completed, ⟨fun _ => ⟨e, rejects_of_check hc⟩, fun _ => rfl⟩,
        fun _ => rfl, fun h => absurd h (by simp)⟩
    | none =>
      refine ⟨_, _, exec_accepted hr hi hc, runOps_program_completed hr s, ⟨fun h => absurd h (by simp), ?_⟩,
        fun h => absurd h (by simp), fun _ => ⟨?_, ?_, ?_, ?_⟩⟩
      · rintro ⟨e, he⟩
        exact absurd ((check_of_rejects he).symm.trans hc) (by simp)
      · rintro rfl; rfl
      · rintro a rfl; rfl
      · rintro rfl; rfl
      · exact responseByte_eq_zero

/-- Settles O51: a rejection and a panel command record nothing, and a request's pseudocode only the request's own transactions. -/
theorem requestsMakeOnlyThreeKindsOfTransaction : Obligations.RequestsMakeOnlyThreeKindsOfTransaction := by
  unfold Obligations.RequestsMakeOnlyThreeKindsOfTransaction
  intro i s t he hcs
  rcases exec_next he with ⟨_, _, e, _, rfl⟩ | ⟨_, _, _, rfl⟩ | ⟨_, f, rfl, _⟩
  · exact ⟨hcs, recordsAllowed_of_trace_eq i rfl⟩
  · exact ⟨runOps_csLegal (s := accept i s) hcs, program_recordsAllowed (s := accept i s) hcs⟩
  · exact ⟨hcs, recordsAllowed_of_trace_eq i rfl⟩

/-- Settles O1: each word and byte is decoded. -/
theorem specWordsDecodeAsListed : Obligations.SpecWordsDecodeAsListed := by
  unfold Obligations.SpecWordsDecodeAsListed
  decide

/-- Settles O44: with one chip selected its own line alone is low; with none, no line is, and PANEL_NONE_SELECTED is left. -/
theorem strobeReachesTheSelectedChip : Obligations.StrobeReachesTheSelectedChip := by
  unfold Obligations.StrobeReachesTheSelectedChip
  intro n k j hk hj1 hj3
  have hj : isChip j := by unfold isChip; omega
  rcases Nat.eq_zero_or_pos k with rfl | hpos
  · rw [reaches_none n hj]
    have hne : j ≠ 0 := by omega
    simp [hne]
  · have hchip : isChip k := by unfold isChip; omega
    have hne : k ≠ 0 := by omega
    rw [reaches_csOf n hchip hj]
    simp [hne]

/-- Settles O60: an operand in its range is the low bits of the command byte, and one out of range is refused. -/
theorem pseudoInstructionsExpand : Obligations.PseudoInstructionsExpand := by
  unfold Obligations.PseudoInstructionsExpand
  refine ⟨rfl, rfl, rfl, rfl, fun l h => ?_, fun p h => ?_, fun k h => ?_, fun l h => ?_, fun p h => ?_, fun k h => ?_⟩
  · exact expandPseudo_setstart _ h
  · exact expandPseudo_setpage _ h
  · exact expandPseudo_setcol _ h
  · exact expandPseudo_eq_none (p := .setstart l) (decide_eq_false (Nat.not_le_of_lt h)) _
  · exact expandPseudo_eq_none (p := .setpage p) (decide_eq_false (Nat.not_le_of_lt h)) _
  · exact expandPseudo_eq_none (p := .setcol k) (decide_eq_false (Nat.not_le_of_lt h)) _

end Sys2Proof.Proofs

/-! PROOFS. The statements of 40_bus_interface: the two bus writes and the chips they reach, the status read, the chip select, the panel reset. -/

namespace Sys2Proof.Machine

/-! ### The panel's part of a bus write (20_memory R60 to R62) -/

/-- A command write's latch is the panel's command: the lines that `BusWrite` drives are no part of it. -/
theorem panelLatch_writing_command (b : Byte) (s : State) :
    (panelLatch b (onLines (Lines.writing false b) s)).panel = (panelCommand b s).panel := by
  change (panelCommand b (onLines (Lines.writing false b) s)).panel = _
  unfold panelCommand
  rw [onLines_cfg]
  split <;> rfl

theorem scrambleSelected_panel (s : State) : (scrambleSelected s).panel =
    s.panel.onReached s.cfg.noneSelected s.lines.cs (fun k _ => Chip.drawn (s.draws.panel + (k - 1))) := rfl

/-- A command byte, known or not, acts on the chips reached only. -/
theorem panelCommand_onReached (b : Byte) (s : State) :
    ∃ f, (panelCommand b s).panel = s.panel.onReached s.cfg.noneSelected s.lines.cs f := by
  unfold panelCommand
  split
  · exact ⟨_, onSelected_panel Chip.displayOn s⟩
  · exact ⟨_, onSelected_panel (Chip.setColumn _) s⟩
  · exact ⟨_, onSelected_panel (Chip.setPage _) s⟩
  · exact ⟨_, onSelected_panel (Chip.startLine _) s⟩
  · exact ⟨_, scrambleSelected_panel s⟩
  · exact ⟨_, scrambleSelected_panel s⟩

theorem panelCommand_chip_of_not_reached (b : Byte) {s : State} {k : Nat} (hk : isChip k)
    (hr : reaches s.cfg.noneSelected s.lines.cs k = false) : (panelCommand b s).panel.chip k = s.panel.chip k := by
  obtain ⟨f, hf⟩ := panelCommand_onReached b s
  rw [hf, onReached_chip _ _ _ _ hk, hr]
  rfl

/-- A data write's latch: each chip reached takes the byte. -/
theorem panelLatch_writing_data (b : Byte) (s : State) {k : Nat} (hk : isChip k) :
    (panelLatch b (onLines (Lines.writing true b) s)).panel.chip k =
      if reaches s.cfg.noneSelected s.lines.cs k then (s.panel.chip k).data b else s.panel.chip k :=
  onSelected_chip (Chip.data b) (onLines (Lines.writing true b) s) hk

/-- The column after a data byte, from 63 to 0 (20_memory R62). -/
theorem Chip.data_col_toNat (b : Byte) (c : Chip) : (c.data b).col.toNat = (c.col.toNat + 1) % 64 :=
  BitVec.toNat_add c.col 1

/-! ### The status read (40_bus_interface R89, R90) -/

/-- The transaction of a status read carries the sampled byte. -/
theorem busRead_transaction (i : Instr) (s : State) : (runOps busReadOps (accept i s)).trace =
    s.trace ++ [⟨false, true, s.lines.cs, Config.statusValue s.draws.status⟩] := by
  simp [busReadOps, stepOp, runOp, State.trace, txNow, txByte, Lines.cs, localV, sampleDb, advance, onProgress, accept,
    onLines, drawWait, drawStatus, dbLevels]

theorem busRead_ctrl (s : State) : (runOps busReadOps s).ctrl = s.ctrl := by simp [busReadOps, stepOp, runOp]
theorem busRead_seq (s : State) : (runOps busReadOps s).seq = s.seq := by simp [busReadOps, stepOp, runOp]

/-- The panel ignores a status read (20_memory R63). -/
theorem busRead_panel (s : State) : (runOps busReadOps s).panel = s.panel := by
  simp [busReadOps, stepOp, runOp, panelLatch]

/-! ### The panel reset (40_bus_interface R95) -/

theorem panelReset_ctrl (s : State) : (runOps panelResetOps s).ctrl = s.ctrl := by simp [panelResetOps, stepOp, runOp]
theorem panelReset_seq (s : State) : (runOps panelResetOps s).seq = s.seq := by simp [panelResetOps, stepOp, runOp]

/-- The rise of RST from low leaves the power-on state (20_memory R63). -/
theorem driveRst_rise_panel {s : State} (h : s.lines.rst = false) : (driveRst true s).panel = (panelPowerOn s).panel := by
  simp [driveRst, h]

theorem panelPowerOn_chip (s : State) {k : Nat} (hk : isChip k) :
    ((panelPowerOn s).panel.chip k).on = false ∧ ((panelPowerOn s).panel.chip k).start = 0 := by
  rcases hk with rfl | rfl | rfl <;> exact ⟨rfl, rfl⟩

/-- The reset pulse begins with RST driven low, whatever it was, so its end is a rise. -/
theorem panelReset_chip (s : State) {k : Nat} (hk : isChip k) :
    ((runOps panelResetOps s).panel.chip k).on = false ∧ ((runOps panelResetOps s).panel.chip k).start = 0 := by
  obtain ⟨u, hu⟩ : ∃ u, u = stepOp (stepOp s (.driveRst false)) (.wait .tRst) := ⟨_, rfl⟩
  have hlow : u.lines.rst = false := by simp [hu, stepOp, runOp]
  have hpanel : (runOps panelResetOps s).panel = (panelPowerOn u).panel := by
    rw [panelResetOps, runOps_cons, runOps_cons, runOps_cons, runOps_nil, ← hu, ← driveRst_rise_panel hlow]
    exact advance_panel _
  rw [hpanel]
  exact panelPowerOn_chip u hk

/-! ### The chip select (40_bus_interface R92) -/

/-- What CS1, CS2 and CS3 at the levels `a`, `b` and `c` make of `{CS3, CS2, CS1}` and CSSEL (10_state R27). -/
theorem Lines.selects_of_levels {l m : Lines} {a b c : Bool} {cs : BitVec 3} {k : BitVec 2}
    (h : m = { l with cs1 := a, cs2 := b, cs3 := c }) (hcs : BitVec.ofBool c ++ BitVec.ofBool b ++ BitVec.ofBool a = cs)
    (hk : (if cs = 0b110 then 1 else if cs = 0b101 then 2 else if cs = 0b011 then 3 else 0 : BitVec 2) = k) :
    m.cs = cs ∧ m.cssel = k := by
  have hm : m.cs = cs := by rw [h, ← hcs, Lines.cs]
  exact ⟨hm, by rw [Lines.cssel, hm, hk]⟩

theorem selectLines_other {c : Byte} (h1 : c ≠ 1) (h2 : c ≠ 2) (h3 : c ≠ 3) (l : Lines) :
    selectLines c l = { l with cs1 := true, cs2 := true, cs3 := true } := by
  rw [selectLines, if_neg h1, if_neg h2, if_neg h3]

/-! ### A request that is not rejected -/

/-- On an IDLE block a request whose check passes is its body, then its completion. -/
theorem exec_completed {i : Instr} {s : State} (hr : i.isRequest = true) (hi : s.engine = .idle) (hc : check i s = none)
    {body : List MicroOp} (hp : program s.cfg i = body ++ [.complete (answerOf i)]) :
    exec i s = .next (complete (responseByte i s) false (runOps body (accept i s))) ∧
      Completed s (complete (responseByte i s) false (runOps body (accept i s))) { data := responseByte i s, err := false } := by
  have hrun : runOps (program s.cfg i) (accept i s) = complete (responseByte i s) false (runOps body (accept i s)) := by
    rw [hp, runOps_complete, answerByte_body hp]
  exact ⟨hrun ▸ exec_accepted hr hi hc, hrun ▸ runOps_program_completed hr s⟩

end Sys2Proof.Machine

namespace Sys2Proof.Proofs

open Machine

/-- Settles O14: a bus write with RS low, and the panel's command on the chips reached. -/
theorem wrcmdSendsTheByte : Obligations.WrcmdSendsTheByte := by
  unfold Obligations.WrcmdSendsTheByte
  intro s b hi
  obtain ⟨t, he, hcompleted, hlines, htrace, hctrl, hseq, hfb, hpanel⟩ := busWrite_request false b (.wrcmd b) hi
  rw [panelLatch_writing_command] at hpanel
  refine ⟨t, he, hcompleted, hlines, htrace, hctrl, hseq, hfb, fun i u hdec hu => ?_, fun k hk hr => ?_⟩
  · obtain rfl : panelCommand b s = u := Host.Outcome.next.inj ((exec_of_decodePanel hdec).symm.trans hu)
    exact hpanel
  · rw [hpanel, panelCommand_chip_of_not_reached b hk hr]

/-- Settles O15: a bus write with RS high, and the data byte on the chips reached. -/
theorem wrdataSendsTheByte : Obligations.WrdataSendsTheByte := by
  unfold Obligations.WrdataSendsTheByte
  intro s b hi
  obtain ⟨t, he, hcompleted, hlines, htrace, hctrl, hseq, hfb, hpanel⟩ := busWrite_request true b (.wrdata b) hi
  refine ⟨t, he, hcompleted, hlines, htrace, hctrl, hseq, hfb, fun k hk => ?_⟩
  have hchip := panelLatch_writing_data b s hk
  rw [← hpanel] at hchip
  refine ⟨fun hr => ?_, fun hr => ?_⟩ <;> rw [hr] at hchip
  · exact hchip
  · have hdata : t.panel.chip k = (s.panel.chip k).data b := hchip
    dsimp only
    rw [hdata]
    refine ⟨rfl, rfl, rfl, Chip.data_col_toNat b _, ?_, fun q j hne => ?_⟩
    · rw [Chip.cell_data, if_pos ⟨rfl, rfl⟩]
    · rw [Chip.cell_data, if_neg fun ⟨hq, hj⟩ => hne (by rw [hq, hj])]

/-- Settles O16: the sample is taken while the lines are released, and both the transaction and the response carry it. -/
theorem rdstatReturnsTheSampledByte : Obligations.RdstatReturnsTheSampledByte := by
  unfold Obligations.RdstatReturnsTheSampledByte
  intro s hi
  obtain ⟨he, hcompleted⟩ := exec_completed (i := .rdstat) (body := busReadOps) rfl hi rfl rfl
  have hfb := onlyThreeRequestsWriteTheFramebuffer _ _ _ he (by simp) (by simp) (by simp)
  exact ⟨_, he, hcompleted, busRead_lines (accept .rdstat s), busRead_transaction .rdstat s, busRead_ctrl (accept .rdstat s),
    busRead_seq (accept .rdstat s), hfb, busRead_panel (accept .rdstat s)⟩

/-- Settles O17: `selectLines` at each code; it is the only step before the completion. -/
theorem selchipSelectsOneChipOrNone : Obligations.SelchipSelectsOneChipOrNone := by
  unfold Obligations.SelchipSelectsOneChipOrNone
  intro s c hi
  obtain ⟨he, hcompleted⟩ := exec_completed (i := .selchip c) (body := [.selectChip c]) rfl hi rfl rfl
  have hfb := onlyThreeRequestsWriteTheFramebuffer _ _ _ he (by simp) (by simp) (by simp)
  refine ⟨_, he, hcompleted, ?_, ?_, ?_, ?_, rfl, rfl, rfl, rfl, hfb⟩
  · rintro rfl
    exact ⟨rfl, Lines.selects_of_levels rfl (by decide) (by decide)⟩
  · rintro rfl
    exact ⟨rfl, Lines.selects_of_levels rfl (by decide) (by decide)⟩
  · rintro rfl
    exact ⟨rfl, Lines.selects_of_levels rfl (by decide) (by decide)⟩
  · intro h1 h2 h3
    have hlines := selectLines_other h1 h2 h3 s.lines
    exact ⟨hlines, Lines.selects_of_levels hlines (by decide) (by decide)⟩

/-- Settles O18: the reset pulse is the whole request, and none of its steps records a transaction. -/
theorem presetResetsThePanelOnly : Obligations.PresetResetsThePanelOnly := by
  unfold Obligations.PresetResetsThePanelOnly
  intro s hi
  obtain ⟨he, hcompleted⟩ := exec_completed (i := .preset) (body := panelResetOps) rfl hi rfl rfl
  have hfb := onlyThreeRequestsWriteTheFramebuffer _ _ _ he (by simp) (by simp) (by simp)
  have htrace := runOps_keeps State.trace stepOp_trace (ops := panelResetOps) rfl (accept .preset s)
  exact ⟨_, he, hcompleted, panelReset_lines (accept .preset s), htrace, panelReset_ctrl (accept .preset s),
    panelReset_seq (accept .preset s), hfb, fun k hk => panelReset_chip (accept .preset s) hk⟩

end Sys2Proof.Proofs

/-! PROOFS. The statements of 41_refresh_driver: INIT, the orientation flag, the transactions of a refresh by index and by kind, CLEAR's zeros, the turned image, and the image that holds still. -/

namespace Sys2Proof.Machine

/-! ### Bit reversal (41_refresh_driver R101) -/

theorem rev8_getLsbD (x : Byte) {i : Nat} (h : i ≤ 7) : (rev8 x).getLsbD i = x.getLsbD (7 - i) := by
  rw [rev8]
  simp only [BitVec.getLsbD_append, BitVec.getLsbD_ofBool]
  interval_cases i <;> simp

theorem rev8_rev8 (x : Byte) : rev8 (rev8 x) = x := by
  refine BitVec.eq_of_getLsbD_eq fun i hi => ?_
  have hi7 : i ≤ 7 := by omega
  rw [rev8_getLsbD _ hi7, rev8_getLsbD _ (by omega), Nat.sub_sub_self hi7]

/-- Counting the set bits from the other end counts the same bits. -/
theorem rev8_popcount (x : Byte) :
    (List.range 8).countP (fun i => (rev8 x).getLsbD i) = (List.range 8).countP (fun i => x.getLsbD i) := by
  have hreverse : (List.range 8).reverse = (List.range 8).map (7 - ·) := by decide
  rw [← List.countP_reverse (p := fun i => x.getLsbD i), hreverse, List.countP_map]
  refine List.countP_congr fun i hi => ?_
  rw [rev8_getLsbD x (Nat.le_of_lt_succ (List.mem_range.mp hi))]
  rfl

theorem rev8_zero : rev8 0x00 = 0x00 := by decide

/-! ### The source byte (41_refresh_driver R104) -/

/-- The cells of the panel: a chip, one of its pages and one of its columns. -/
def isCell (k p c : Nat) : Prop := isChip k ∧ p < 8 ∧ c < 64

theorem offset_lt {k p c : Nat} (h : isCell k p c) : offset k p c < 1536 := by
  obtain ⟨hk, hp, hc⟩ := h
  unfold isChip at hk
  unfold offset
  omega

/-- A framebuffer of zeros sends zeros in either orientation: the reversed zero byte is zero. -/
theorem src_zero {s : State} (h : ∀ a, a < 1536 → fbRead s a = 0x00) {k p c : Nat} (hcell : isCell k p c) :
    src s k p c = 0x00 := by
  have hlt := offset_lt hcell
  unfold src
  split
  · rw [h _ (by omega), rev8_zero]
  · exact h _ hlt

/-- The glass pixel (x, y) is bit `y mod 8` of the source byte of its cell, read in the flag's orientation (20_memory R41, R46). -/
theorem src_pixel (s : State) {x y : Nat} (hx : x ≤ 191) (hy : y ≤ 63) :
    (src s (x / 64 + 1) (y / 8) (x % 64)).getLsbD (y % 8) =
      if s.ctrl.orient then fbPixel s (191 - x) (63 - y) else fbPixel s x y := by
  have hoffset : offset (x / 64 + 1) (y / 8) (x % 64) = x + y / 8 * 192 := by unfold offset; omega
  have hturned : 1535 - (x + y / 8 * 192) = 191 - x + (63 - y) / 8 * 192 := by omega
  have hbit : 7 - y % 8 = (63 - y) % 8 := by omega
  rw [src, hoffset, hturned]
  split
  · rw [rev8_getLsbD _ (by omega), hbit, fbPixel]
  · rfl

/-! ### The transactions of a refresh, by index (41_refresh_driver R108) -/

/-- The length of a list made of pieces of one length. -/
theorem length_flatMap_const {α β : Type} {l : List α} {f : α → List β} {n : Nat} (h : ∀ a ∈ l, (f a).length = n) :
    (l.flatMap f).length = l.length * n := by
  rw [List.length_flatMap, List.map_congr_left h, List.map_const', List.sum_const_nat]

/-- In a list made of pieces of length `n`, place `j` of piece `i`. -/
theorem getElem?_flatMap_const {α β : Type} {l : List α} {f : α → List β} {n i j : Nat} (h : ∀ a ∈ l, (f a).length = n)
    (hj : j < n) {a : α} (ha : l[i]? = some a) : (l.flatMap f)[i * n + j]? = (f a)[j]? := by
  induction l generalizing i with
  | nil => simp at ha
  | cons b l ih =>
    have hb : (f b).length = n := h b (by simp)
    rw [List.flatMap_cons]
    cases i with
    | zero =>
      obtain rfl : b = a := by simpa using ha
      rw [Nat.zero_mul, Nat.zero_add, List.getElem?_append_left (by omega)]
    | succ i =>
      have hplace : (i + 1) * n + j - (f b).length = i * n + j := by rw [hb, Nat.succ_mul]; omega
      rw [List.getElem?_append_right (by rw [hb, Nat.succ_mul]; omega), hplace]
      exact ih (fun c hc => h c (by simp [hc])) (by simpa using ha)

theorem pageTrace_length (s : State) (k p : Nat) : (pageTrace s k p).length = 65 := by
  simp [pageTrace, cols]

theorem chipTrace_length (s : State) (k : Nat) : (chipTrace s k).length = 521 := by
  rw [chipTrace, List.length_cons, length_flatMap_const fun p _ => pageTrace_length s k p, List.length_range]
  rfl

theorem refreshTrace_length (s : State) : (refreshTrace s).length = 1565 := by
  rw [refreshTrace, List.length_append, List.length_cons, length_flatMap_const fun k _ => chipTrace_length s k]
  rfl

theorem pageTrace_data (s : State) (k p : Nat) {c : Nat} (hc : c < 64) :
    (pageTrace s k p)[c + 1]? = some (dataTx (csOf k) (src s k p c)) := by
  rw [pageTrace, cols, List.getElem?_cons_succ, List.getElem?_map, List.getElem?_range hc]
  rfl

/-- Place `j` of page `p` in its chip's transactions, behind the column command. -/
theorem chipTrace_page (s : State) (k : Nat) {p j : Nat} (hp : p < 8) (hj : j < 65) :
    (chipTrace s k)[p * 65 + j + 1]? = (pageTrace s k p)[j]? := by
  rw [chipTrace, List.getElem?_cons_succ]
  exact getElem?_flatMap_const (fun q _ => pageTrace_length s k q) hj (List.getElem?_range hp)

/-- Place `j` of chip `k` in a refresh, behind the start line command. -/
theorem refreshTrace_chip (s : State) {k j : Nat} (hk : isChip k) (hj : j < 521) :
    (refreshTrace s)[(k - 1) * 521 + j + 1]? = (chipTrace s k)[j]? := by
  have hlen := length_flatMap_const (l := [1, 2, 3]) fun k _ => chipTrace_length s k
  have hchip : [1, 2, 3][k - 1]? = some k := by rcases hk with rfl | rfl | rfl <;> rfl
  have hlt : (k - 1) * 521 + j < ([1, 2, 3].flatMap (chipTrace s)).length := by
    rw [hlen, List.length_cons, List.length_cons, List.length_singleton]
    unfold isChip at hk
    omega
  rw [refreshTrace, List.cons_append, List.getElem?_cons_succ, List.getElem?_append_left hlt]
  exact getElem?_flatMap_const (fun k _ => chipTrace_length s k) hj hchip

theorem refreshTrace_last (s : State) : (refreshTrace s)[1564]? = some (commandTx (csOf 3) s.cfg.codes.displayOn) := by
  rw [← List.getLast?_concat (l := commandTx s.lines.cs _ :: [1, 2, 3].flatMap (chipTrace s)), ← refreshTrace,
    List.getLast?_eq_getElem?, refreshTrace_length]

/-! ### The transactions of a refresh, by kind -/

theorem pageTrace_data_length (s : State) (k p : Nat) : ((pageTrace s k p).filter (fun x => x.rs)).length = 64 := by
  simp [pageTrace, commandTx, dataTx, List.filter_map, Function.comp_def, cols]

theorem chipTrace_data_length (s : State) (k : Nat) : ((chipTrace s k).filter (fun x => x.rs)).length = 512 := by
  rw [chipTrace, List.filter_cons_of_neg (by simp [commandTx]), List.filter_flatMap,
    length_flatMap_const fun p _ => pageTrace_data_length s k p, List.length_range]
  rfl

theorem refreshTrace_data_length (s : State) : ((refreshTrace s).filter (fun x => x.rs)).length = 1536 := by
  rw [refreshTrace, List.cons_append, List.filter_cons_of_neg (by simp [commandTx]), List.filter_append, List.filter_flatMap,
    List.length_append, length_flatMap_const fun k _ => chipTrace_data_length s k]
  rfl

theorem refreshTrace_command_length (s : State) : ((refreshTrace s).filter (fun x => !x.rs)).length = 29 := by
  have hsum := List.length_eq_length_filter_add (l := refreshTrace s) (fun x => x.rs)
  rw [refreshTrace_length, refreshTrace_data_length] at hsum
  omega

/-- Every data write of a refresh carries the source byte of a cell. -/
theorem refreshTrace_data {s : State} {x : Tx} (hx : x ∈ refreshTrace s) (hrs : x.rs = true) :
    ∃ k p c, isCell k p c ∧ x = dataTx (csOf k) (src s k p c) := by
  simp only [refreshTrace, chipTrace, pageTrace, List.mem_append, List.mem_cons, List.mem_flatMap, List.mem_map,
    List.mem_range, List.not_mem_nil, or_false] at hx
  rcases hx with (rfl | ⟨k, hk, rfl | ⟨p, hp, rfl | ⟨c, hc, rfl⟩⟩⟩) | rfl
  case inl.inr.inr.inr => exact ⟨k, p, c, ⟨hk, hp, hc⟩, rfl⟩
  all_goals exact absurd hrs (by simp [commandTx])

/-- The trace of a refresh goes by the build, the chip selects and the source bytes. -/
theorem refreshTrace_congr {s t : State} (hcfg : t.cfg = s.cfg) (hcs : t.lines.cs = s.lines.cs)
    (hsrc : ∀ k p c, isCell k p c → src t k p c = src s k p c) : refreshTrace t = refreshTrace s := by
  have hpage : ∀ k, isChip k → ∀ p ∈ List.range pages, pageTrace t k p = pageTrace s k p := by
    intro k hk p hp
    have hdata : ∀ c ∈ List.range cols, dataTx (csOf k) (src t k p c) = dataTx (csOf k) (src s k p c) :=
      fun c hc => by rw [hsrc k p c ⟨hk, List.mem_range.mp hp, List.mem_range.mp hc⟩]
    rw [pageTrace, pageTrace, hcfg, List.map_congr_left hdata]
  have hchip : ∀ k ∈ [1, 2, 3], chipTrace t k = chipTrace s k := by
    intro k hk
    rw [chipTrace, chipTrace, hcfg, List.flatMap_congr (hpage k (by simpa [isChip] using hk))]
  rw [refreshTrace, refreshTrace, hcfg, hcs, List.flatMap_congr hchip]

/-! ### INIT (41_refresh_driver R99) -/

/-- INIT's pseudocode up to its completion. -/
def initBody (c : Config) : List MicroOp :=
  (panelResetOps ++ [.selectChip 0]) ++ (busWriteOps false (commandByte c.codes.startLine (0 : BitVec 6)) ++
    (busWriteOps false c.codes.displayOn ++ [.setInit]))

theorem program_init (c : Config) : program c .init = initBody c ++ [.complete .zero] := rfl

/-- What INIT's pseudocode leaves. -/
structure BroughtUp (s t : State) : Prop where
  ctrl  : t.ctrl = { s.ctrl with init := true }
  lines : t.lines = { s.lines with rs := false, rw := false, en := false, rst := true, cs1 := true, cs2 := true, cs3 := true,
                                   dbOut := s.cfg.codes.displayOn }
  trace : t.trace = s.trace ++ [commandTx 0b111 (commandByte s.cfg.codes.startLine (0 : BitVec 6)),
                                commandTx 0b111 s.cfg.codes.displayOn]
  seq   : t.seq = s.seq

/-- The reset pulse and the deselection that INIT begins with. -/
theorem resetDeselect_lines (s : State) : (runOps (panelResetOps ++ [.selectChip 0]) s).lines =
    { s.lines with rst := true, cs1 := true, cs2 := true, cs3 := true } := by
  rw [runOps_append, runOps_cons, runOps_nil, stepOp, advance_lines, runOp, onLines_lines, panelReset_lines]
  exact selectLines_other (by decide) (by decide) (by decide) _

theorem initBody_does (s : State) : BroughtUp s (runOps (initBody s.cfg) s) := by
  obtain ⟨s1, e1⟩ : ∃ u, u = runOps (panelResetOps ++ [.selectChip 0]) s := ⟨_, rfl⟩
  obtain ⟨s2, e2⟩ : ∃ u, u = runOps (busWriteOps false (commandByte s.cfg.codes.startLine (0 : BitVec 6))) s1 := ⟨_, rfl⟩
  obtain ⟨s3, e3⟩ : ∃ u, u = runOps (busWriteOps false s.cfg.codes.displayOn) s2 := ⟨_, rfl⟩
  have e : runOps (initBody s.cfg) s = stepOp s3 .setInit := by
    rw [initBody, runOps_append, runOps_append, runOps_append, ← e1, ← e2, ← e3, runOps_cons, runOps_nil]
  have l1 : s1.lines = { s.lines with rst := true, cs1 := true, cs2 := true, cs3 := true } := e1 ▸ resetDeselect_lines s
  have l2 := e2 ▸ busWrite_lines false _ s1
  have l3 := e3 ▸ busWrite_lines false _ s2
  have h2 := e2 ▸ busWrite_sent false _ s1
  have h3 := e3 ▸ busWrite_sent false _ s2
  have cs1 : s1.lines.cs = 0b111 := by simp [Lines.cs, l1]
  have cs2 : s2.lines.cs = 0b111 := by rw [l2, ← cs1]; rfl
  rw [cs1] at h2
  rw [cs2] at h3
  have t1 : s1.trace = s.trace := e1 ▸ runOps_keeps State.trace stepOp_trace rfl s
  have c1 : s1.ctrl = s.ctrl := by simp [e1, runOps_append, stepOp, runOp, panelReset_ctrl]
  have q1 : s1.seq = s.seq := by simp [e1, runOps_append, stepOp, runOp, panelReset_seq]
  rw [e]
  refine ⟨?_, ?_, ?_, ?_⟩
  · simp [stepOp, runOp, h3.ctrl, h2.ctrl, c1]
  · simp [stepOp, runOp, l3, l2, l1, Lines.writing]
  · rw [stepOp_trace _ _ rfl, h3.trace, h2.trace, t1, List.append_assoc]; rfl
  · simp [stepOp, runOp, e3, e2, busWrite_seq, q1]

/-! ### The image during a refresh (41_refresh_driver R115) -/

/-- The framebuffer and CTRL are as before. -/
def SameImage (s t : State) : Prop := t.fb = s.fb ∧ t.ctrl = s.ctrl

/-- REFRESH, and CLEAR past its zeroing, are at a step of the refresh sequence or at their completion. -/
theorem program_refreshing {c : Config} {i : Instr} {n : Nat} {op : MicroOp} (h : i = .refresh ∨ (i = .clear ∧ 1 ≤ n))
    (hop : (program c i)[n]? = some op) : refreshKind op = true ∨ op = .complete .zero := by
  have hmem : op ∈ refreshOps c ++ [.complete .zero] := by
    rcases h with rfl | ⟨rfl, hn⟩
    · exact List.mem_of_getElem? hop
    · obtain ⟨m, rfl⟩ := Nat.exists_eq_add_of_le' hn
      rw [program, clearProgram, List.cons_append, List.getElem?_cons_succ] at hop
      exact List.mem_of_getElem? hop
  rw [List.mem_append, List.mem_singleton] at hmem
  exact hmem.imp_left refreshOps_mem

theorem tick_sameImage {s t : State} {p : InProgress} (he : s.engine = .busy p)
    (hp : p.req = .refresh ∨ (p.req = .clear ∧ 1 ≤ p.pos)) (ht : tick s = .next t) : SameImage s t := by
  rcases tick_next ht with ⟨_, rfl⟩ | ⟨q, op, hq, hop, ⟨d, _, rfl⟩ | ⟨_, rfl⟩⟩
  · exact ⟨rfl, rfl⟩
  · exact ⟨(tickWait_only d s).fb, (tickWait_only d s).ctrl⟩
  · obtain rfl : p = q := Engine.busy.inj (he.symm.trans hq)
    rcases program_refreshing hp hop with hkind | rfl
    · exact refreshKind_frame hkind s
    · rw [stepOp_complete]
      exact ⟨rfl, rfl⟩

/-! ### INIT and CLEAR carried out (41_refresh_driver R99, R112) -/

/-- An INIT carried out from an IDLE, Uninitialized block. -/
theorem init_request {s : State} (hi : s.engine = .idle) (hinit : s.ctrl.init = false) :
    ∃ u, exec .init s = .next (complete 0x00 false u) ∧ Completed s (complete 0x00 false u) { data := 0x00, err := false } ∧
      BroughtUp (accept .init s) u := by
  have hcheck : check .init s = none := by simp [check, needsUninit_eq, hinit]
  obtain ⟨he, hcompleted⟩ := exec_completed (i := .init) (body := initBody s.cfg) rfl hi hcheck (program_init s.cfg)
  exact ⟨_, he, hcompleted, initBody_does (accept .init s)⟩

/-- CLEAR past its zeroing: every byte of the framebuffer is 0, and what the refresh sequence and the completion go by is as before. -/
structure Zeroed (s z : State) : Prop where
  cfg            : z.cfg = s.cfg
  lines          : z.lines = s.lines
  ctrl           : z.ctrl = s.ctrl
  script         : z.script = s.script
  completionsRev : z.completionsRev = s.completionsRev
  trace          : z.trace = s.trace
  fb             : ∀ a, a < 1536 → fbRead z a = 0x00

theorem stepOp_fbFill_zeroed (i : Instr) (s : State) : Zeroed s (stepOp (accept i s) (.fbFill 0x00)) where
  cfg := by simp [stepOp, runOp]
  lines := by simp [stepOp, runOp]
  ctrl := by simp [stepOp, runOp]
  script := by simp [stepOp, runOp]
  completionsRev := by simp [stepOp, runOp]
  trace := stepOp_trace _ _ rfl
  fb _ ha := fbRead_stepOp_fbFill ha 0x00 _

/-- A CLEAR carried out: the refresh sequence from a framebuffer of zeros. -/
theorem clear_zeroed_request {s : State} (hi : s.engine = .idle) (hinit : s.ctrl.init = true) :
    ∃ z u, exec .clear s = .next (complete 0x00 false u) ∧ Zeroed s z ∧ Refreshed z u ∧ u = runOps (refreshOps z.cfg) z := by
  obtain ⟨z, u, hz, hrefreshed, hu, he⟩ := clear_request hi hinit
  have hzeroed : Zeroed s z := hz ▸ stepOp_fbFill_zeroed .clear s
  exact ⟨z, u, he, hzeroed, hrefreshed, by rw [hzeroed.cfg, hu]⟩

end Sys2Proof.Machine

namespace Sys2Proof.Proofs

open Machine

/-- Settles O58: at those positions each step of pseudocode is one of the refresh sequence, or the completion. -/
theorem imageHoldsStillDuringARefresh : Obligations.ImageHoldsStillDuringARefresh := by
  unfold Obligations.ImageHoldsStillDuringARefresh
  intro s t p he hp hscript hstep
  obtain ⟨hfb, hctrl⟩ : SameImage s t := by
    obtain ⟨_, hcases⟩ := step_next hstep
    rcases hcases with ⟨rest, hs, _⟩ | ⟨u, hu, htick⟩ | ⟨_, _, hidle, _⟩ | ⟨_, _, hidle, _⟩
    · exact absurd hs (hscript rest)
    · rcases hu with ⟨rest, _, rfl⟩ | ⟨_, rfl⟩
      · exact tick_sameImage (s := { s with script := rest }) he hp htick
      · exact tick_sameImage he hp htick
    · exact absurd (he.symm.trans hidle) (by simp)
    · exact absurd (he.symm.trans hidle) (by simp)
  exact ⟨hfb, by rw [hctrl]⟩

/-- Settles O20: the reset pulse, the deselection and the two command writes leave all but INIT of CTRL alone. -/
theorem initBringsTheBlockUp : Obligations.InitBringsTheBlockUp := by
  unfold Obligations.InitBringsTheBlockUp
  intro s hi hinit
  obtain ⟨u, he, hcompleted, hctrl, hlines, htrace, hseq⟩ := init_request hi hinit
  have hfb := onlyThreeRequestsWriteTheFramebuffer _ _ _ he (by simp) (by simp) (by simp)
  exact ⟨_, he, hcompleted, hctrl, by simp [Lines.cssel, Lines.cs, hlines], hlines, htrace, hseq, hfb⟩

/-- Settles O22: the flag's step is the only one before the completion. -/
theorem setorientSetsTheFlag : Obligations.SetorientSetsTheFlag := by
  unfold Obligations.SetorientSetsTheFlag
  intro s r hi
  obtain ⟨he, hcompleted⟩ := exec_completed (i := .setorient r) (body := [.setOrient r]) rfl hi rfl rfl
  exact ⟨_, he, hcompleted, rfl, ⟨rfl, rfl, rfl⟩, rfl, fun _ => rfl⟩

/-- Settles O24: `refresh_does`, whose last chip is chip 3. -/
theorem refreshLeavesChipThreeSelected : Obligations.RefreshLeavesChipThreeSelected := by
  unfold Obligations.RefreshLeavesChipThreeSelected
  intro s hi hinit
  obtain ⟨u, h, _, he⟩ := refresh_request hi hinit
  refine ⟨_, he, completed_of h.cfg h.script h.completionsRev, ?_, h.lines,
    by simp [Lines.cssel, Lines.cs, h.lines], fun hcodes => ?_, h.ctrl, fbRead_congr h.fb⟩
  · have htrace : refreshTrace (accept .refresh s) = refreshTrace s := refreshTrace_congr rfl rfl fun _ _ _ _ => rfl
    rw [← htrace]
    exact h.trace
  · exact (congrArg Lines.dbOut h.lines).trans (congrArg CmdCodes.displayOn hcodes)

/-- Settles O23: the places of a page in its chip's transactions, and of a chip in the refresh's. -/
theorem refreshSendsTheListedTransactions : Obligations.RefreshSendsTheListedTransactions := by
  unfold Obligations.RefreshSendsTheListedTransactions
  intro s hi hinit hcodes
  obtain ⟨t, he, _, htrace, _⟩ := refreshLeavesChipThreeSelected s hi hinit
  refine ⟨t, refreshTrace s, he, htrace, ⟨refreshTrace_length s, ?_, ?_, fun chip h1 h3 => ?_⟩,
    refreshTrace_data_length s, refreshTrace_command_length s⟩
  · rw [refreshTrace, hcodes]; rfl
  · rw [refreshTrace_last, hcodes]; rfl
  · have hk : isChip chip := by unfold isChip; omega
    refine ⟨?_, fun page hp => ⟨?_, fun column hc => ?_⟩⟩
    · rw [Nat.add_comm, refreshTrace_chip s hk (j := 0) (by omega), chipTrace, hcodes]
      rfl
    · have hplace : 2 + (chip - 1) * 521 + page * 65 = (chip - 1) * 521 + (page * 65 + 0 + 1) + 1 := by omega
      rw [hplace, refreshTrace_chip s hk (by omega), chipTrace_page s chip (p := page) (j := 0) (by omega) (by omega), pageTrace, hcodes,
        commandByte_ofNat (n := 3) (by omega)]
      rfl
    · have hplace : 3 + (chip - 1) * 521 + page * 65 + column = (chip - 1) * 521 + (page * 65 + (column + 1) + 1) + 1 := by omega
      rw [hplace, refreshTrace_chip s hk (by omega), chipTrace_page s chip (by omega) (by omega),
        pageTrace_data s chip page (by omega)]

/-- Settles O25: CLEAR zeroes the framebuffer before the refresh, whose source bytes are then all zero. -/
theorem clearZeroesAndRefreshes : Obligations.ClearZeroesAndRefreshes := by
  unfold Obligations.ClearZeroesAndRefreshes
  intro s hi hinit
  obtain ⟨z, u, he, hz, h, _⟩ := clear_zeroed_request hi hinit
  have hlines := h.lines
  rw [hz.lines, hz.cfg] at hlines
  refine ⟨_, refreshTrace z, he, completed_of (h.cfg.trans hz.cfg) (h.script.trans hz.script)
    (h.completionsRev.trans hz.completionsRev), fun a ha => (fbRead_congr h.fb a).trans (hz.fb a ha), ?_,
    refreshTrace_data_length z, fun x hx hrs => ?_, fun y hcfg hylines hzero => ?_, hlines,
    by simp [Lines.cssel, Lines.cs, hlines], h.ctrl.trans hz.ctrl⟩
  · rw [← hz.trace]
    exact h.trace
  · obtain ⟨k, p, c, hcell, rfl⟩ := refreshTrace_data hx hrs
    exact ⟨src_zero hz.fb hcell, rfl⟩
  · refine refreshTrace_congr (hz.cfg.trans hcfg.symm) (by rw [hz.lines, hylines]) fun k p c hcell => ?_
    rw [src_zero hz.fb hcell, src_zero hzero hcell]

/-- Settles O26: each cell holds its source byte, and CLEAR has made every source byte zero. -/
theorem clearZeroesEveryPanelCell : Obligations.ClearZeroesEveryPanelCell := by
  unfold Obligations.ClearZeroesEveryPanelCell
  intro s hi hinit hcodes
  obtain ⟨z, u, he, hz, _, hu⟩ := clear_zeroed_request hi hinit
  refine ⟨_, he, fun k page column hk => ?_⟩
  rw [complete_panel, hu, refresh_cells z (by rw [hz.cfg, hcodes]) hk]
  exact src_zero hz.fb ⟨hk, page.isLt, column.isLt⟩

/-- Settles O27: SETORIENT leaves CLEAR's framebuffer of zeros, and a zero byte is zero in either orientation. -/
theorem refreshAfterClearSendsZeros : Obligations.RefreshAfterClearSendsZeros := by
  unfold Obligations.RefreshAfterClearSendsZeros
  intro s r hi hinit
  obtain ⟨t, _, het, htcompleted, htzero, _, _, _, _, _, _, htctrl⟩ := clearZeroesAndRefreshes s hi hinit
  obtain ⟨u, heu, hucompleted, huctrl, _, _, hufb⟩ := setorientSetsTheFlag t r htcompleted.engine
  obtain ⟨v, hev, _, hvtrace, _⟩ := refreshLeavesChipThreeSelected u hucompleted.engine (by rw [huctrl, htctrl]; exact hinit)
  refine ⟨t, u, v, refreshTrace u, het, heu, hev, hvtrace, refreshTrace_data_length u, fun x hx hrs => ?_⟩
  obtain ⟨k, p, c, hcell, rfl⟩ := refreshTrace_data hx hrs
  exact src_zero (fun a ha => (hufb a).trans (htzero a ha)) hcell

/-- Settles O33: each cell holds its source byte, whose bits are the pixels of the image as the flag turns it. -/
theorem refreshRotatesTheImage : Obligations.RefreshRotatesTheImage := by
  unfold Obligations.RefreshRotatesTheImage
  intro s hi hinit hcodes
  obtain ⟨u, _, hu, he⟩ := refresh_request hi hinit
  refine ⟨_, he, fun x y hx hy => ?_⟩
  have hk : isChip (x / 64 + 1) := by unfold isChip; omega
  have hpage : (BitVec.ofNat 3 (y / 8)).toNat = y / 8 := Nat.mod_eq_of_lt (by omega)
  have hcolumn : (BitVec.ofNat 6 (x % 64)).toNat = x % 64 := Nat.mod_eq_of_lt (by omega)
  rw [complete_panel, hu, ← accept_cfg .refresh s, refresh_cells (accept .refresh s) hcodes hk, hpage, hcolumn]
  exact src_pixel (accept .refresh s) hx hy

/-- Settles O21: INIT at the reset build's default codes (log 5); the second finds INIT set and is rejected. -/
theorem initFromResetThenAgain : Obligations.InitFromResetThenAgain := by
  unfold Obligations.InitFromResetThenAgain
  obtain ⟨t, he, hcompleted, hctrl, hcssel, _, htrace, _⟩ := initBringsTheBlockUp State.reset rfl rfl
  have hcheck : check .init t = some .alreadyInitialized := by simp [check, needsUninit_eq, hctrl]
  refine ⟨t, _, he, htrace, ?_, exec_rejected rfl hcompleted.engine hcheck, rejected_accept _ _ t, ?_⟩
  · rw [ctrlReg, hcssel, hctrl]; rfl
  · rw [ctrlReg, raiseError_lines, accept_lines, hcssel, raiseError_ctrl, accept_ctrl, hctrl]; rfl

/-- Settles O28: bit `7 - i` of the reversed byte, read from the other end. -/
theorem revEightReversesTheBits : Obligations.RevEightReversesTheBits := by
  unfold Obligations.RevEightReversesTheBits
  refine ⟨fun x i hi => ?_, by decide⟩
  rw [rev8_getLsbD x (Nat.sub_le 7 i), Nat.sub_sub_self hi]

/-- Settles O29: reversing twice reads each bit where it was, and reversing once permutes the bits that are counted. -/
theorem revEightIsAnInvolution : Obligations.RevEightIsAnInvolution := by
  unfold Obligations.RevEightIsAnInvolution
  refine ⟨rev8_rev8, fun b => ?_, rev8_zero, by decide, by decide, by decide⟩
  rw [← List.countP_eq_length_filter, ← List.countP_eq_length_filter, rev8_popcount]

end Sys2Proof.Proofs

/-! PROOFS. The statements of 42_host_port: the framebuffer requests inside the framebuffer, the fill, and the CTRL register field by field. -/

namespace Sys2Proof.Machine

/-! ### What the steps of FBWR and FBFILL leave alone (42_host_port R120, R122) -/

/-- The steps of pseudocode that write the framebuffer. -/
def writesFb : MicroOp → Bool
  | .fbWrite _ _ => true
  | .fbFill _ => true
  | _ => false

/-- A request whose one step before its completion writes the framebuffer leaves the bus, CTRL and the sequencer alone. -/
theorem writesFb_request_frame {op : MicroOp} (h : writesFb op = true) (i : Instr) (s : State) (d : Byte) (e : Bool) :
    NoBus s (complete d e (runOps [op] (accept i s))) ∧ (complete d e (runOps [op] (accept i s))).ctrl = s.ctrl ∧
      (complete d e (runOps [op] (accept i s))).seq = s.seq := by
  cases op
  case fbWrite | fbFill => refine ⟨⟨?_, ?_, ?_⟩, ?_, ?_⟩ <;> simp [stepOp, runOp, State.trace]
  all_goals exact absurd h (by simp [writesFb])

/-! ### The CTRL register, field by field (42_host_port R123, 10_state R23) -/

/-- The bits of CTRL from the lowest up: INIT, ORIENT, ERR, the three of ERRCODE, the two of CSSEL. -/
theorem ctrlReg_getLsbD (s : State) (i : Nat) : (ctrlReg s).getLsbD i =
    if i = 0 then s.ctrl.init else if i = 1 then s.ctrl.orient else if i = 2 then s.ctrl.err
    else if i < 6 then s.ctrl.errCode.getLsbD (i - 3) else s.lines.cssel.getLsbD (i - 6) := by
  simp only [ctrlReg, BitVec.getLsbD_append, BitVec.getLsbD_ofBool]
  grind

theorem ctrlReg_errCode (s : State) : (ctrlReg s).extractLsb' 3 3 = s.ctrl.errCode := by
  refine BitVec.eq_of_getLsbD_eq fun i hi => ?_
  rw [BitVec.getLsbD_extractLsb', ctrlReg_getLsbD, if_neg (by omega), if_neg (by omega), if_neg (by omega), if_pos (by omega)]
  simp [hi]

theorem ctrlReg_cssel (s : State) : (ctrlReg s).extractLsb' 6 2 = s.lines.cssel := by
  refine BitVec.eq_of_getLsbD_eq fun i hi => ?_
  rw [BitVec.getLsbD_extractLsb', ctrlReg_getLsbD, if_neg (by omega), if_neg (by omega), if_neg (by omega), if_neg (by omega)]
  simp [hi]

end Sys2Proof.Machine

namespace Sys2Proof.Proofs

open Machine

/-- Settles O37: the write is the only step before the completion. -/
theorem fbwrStoresOneByte : Obligations.FbwrStoresOneByte := by
  unfold Obligations.FbwrStoresOneByte
  intro s a v hi ha
  obtain ⟨he, hcompleted⟩ := exec_completed (i := .fbwr a v) (body := [.fbWrite a.toNat v]) rfl hi (inFb_none.mpr ha) rfl
  have hread := fun b => fbRead_stepOp_fbWrite a.toNat b v (accept (.fbwr a v) s)
  exact ⟨_, he, hcompleted, (hread a.toNat).trans (if_pos rfl), fun b hb => (hread b).trans (if_neg hb),
    writesFb_request_frame rfl (.fbwr a v) s _ _⟩

/-- Settles O38: the completion, which reads the byte, is the only step. -/
theorem fbrdReturnsTheByte : Obligations.FbrdReturnsTheByte := by
  unfold Obligations.FbrdReturnsTheByte
  intro s a hi ha
  obtain ⟨he, hcompleted⟩ := exec_completed (i := .fbrd a) (body := []) rfl hi (inFb_none.mpr ha) rfl
  exact ⟨_, he, hcompleted, ⟨rfl, rfl, rfl⟩, rfl, rfl, fun _ => rfl⟩

/-- Settles O40: FBFILL has no check, and the fill is the only step before the completion. -/
theorem fbfillFillsTheFramebuffer : Obligations.FbfillFillsTheFramebuffer := by
  unfold Obligations.FbfillFillsTheFramebuffer
  intro s v hi
  obtain ⟨he, hcompleted⟩ := exec_completed (i := .fbfill v) (body := [.fbFill v]) rfl hi rfl rfl
  exact ⟨_, he, hcompleted, fun a ha => fbRead_stepOp_fbFill ha v (accept (.fbfill v) s),
    writesFb_request_frame rfl (.fbfill v) s _ _⟩

/-- Settles O41: the completion, which reads the register, is the only step; each field is its bits of the register. -/
theorem rdctrlReturnsCtrl : Obligations.RdctrlReturnsCtrl := by
  unfold Obligations.RdctrlReturnsCtrl
  intro s hi
  obtain ⟨he, hcompleted⟩ := exec_completed (i := .rdctrl) (body := []) rfl hi rfl rfl
  exact ⟨_, he, hcompleted, ctrlReg_getLsbD s 0, ctrlReg_getLsbD s 1, ctrlReg_getLsbD s 2, ctrlReg_errCode s, ctrlReg_cssel s,
    ⟨rfl, rfl, rfl⟩, rfl, rfl, fun _ => rfl⟩

end Sys2Proof.Proofs

/-! PROOFS. The statements of 60_exceptions: the step on an idle block and on a busy one, what a rejection leaves, and the sticky error record. -/

namespace Sys2Proof.Machine

/-! ### Which block accepts a word (60_exceptions R127) -/

theorem runRequest_decoded {w : Word} {i : Instr} (h : decodeRequest w = some i) (s : State) : runRequest w s = exec i s := by
  simp [runRequest, h]

theorem carryOut_busy (i : Instr) (c : Option ErrCode) (ops : List MicroOp) {s : State} {p : InProgress}
    (h : s.engine = .busy p) : carryOut i c ops s = .fault .engineBusy := by
  unfold carryOut; rw [h]

/-! ### The request in progress goes on or completes -/

/-- The request of `p` is still in progress, and nothing was completed. -/
def GoesOn (p : InProgress) (s t : State) : Prop :=
  ∃ q, t.engine = .busy q ∧ q.req = p.req ∧ t.completions = s.completions

/-- The engine is IDLE, with one completion more: the response that stands. -/
def Completes (s t : State) : Prop := t.engine = .idle ∧ t.completions = s.completions ++ [t.rsp]

theorem complete_completes (d : Byte) (e : Bool) (s : State) : Completes s (complete d e s) :=
  ⟨rfl, by simp [State.completions]⟩

/-- A step of pseudocode that is no completion leaves the request in progress; the completion ends it. -/
theorem stepOp_goesOn_or_completes {s : State} {p : InProgress} (he : s.engine = .busy p) (op : MicroOp) :
    GoesOn p s (stepOp s op) ∨ Completes s (stepOp s op) := by
  cases hop : isComplete op
  · obtain ⟨v, hv⟩ := stepOp_busy he hop
    exact .inl ⟨_, hv, rfl, by rw [State.completions, stepOp_completionsRev hop]; rfl⟩
  · cases op
    case complete a => exact .inr (stepOp_complete a s ▸ complete_completes _ _ s)
    all_goals exact absurd hop (by simp [isComplete])

/-- No cycle of a wait ends the request. -/
theorem tickWait_goesOn {s : State} {p : InProgress} (he : s.engine = .busy p) (d : Delay) : GoesOn p s (tickWait d s) := by
  have hcompletions : (tickWait d s).completions = s.completions := by
    rw [State.completions, (tickWait_only d s).completionsRev]; rfl
  rcases tickWait_engine he d with ht | ht
  · exact ⟨p, ht.trans he, rfl, hcompletions⟩
  · exact ⟨_, ht, rfl, hcompletions⟩

theorem tick_script {s t : State} (h : tick s = .next t) : t.script = s.script := by
  rcases tick_next h with ⟨_, rfl⟩ | ⟨p, op, _, _, ⟨d, _, rfl⟩ | ⟨_, rfl⟩⟩
  · rfl
  · exact (tickWait_only d s).script
  · exact stepOp_script s op

theorem tick_goesOn_or_completes {s t : State} {p : InProgress} (he : s.engine = .busy p) (h : tick s = .next t) :
    GoesOn p s t ∨ Completes s t := by
  rcases tick_next h with ⟨hi, _⟩ | ⟨q, op, _, _, ⟨d, _, rfl⟩ | ⟨_, rfl⟩⟩
  · exact absurd (he.symm.trans hi) (by simp)
  · exact .inl (tickWait_goesOn he d)
  · exact stepOp_goesOn_or_completes he op

/-! ### Rejections (60_exceptions R129, R130) -/

theorem rejects_isRequest {i : Instr} {s : State} {e : ErrCode} (h : rejects i s e) : i.isRequest = true := by
  rcases h with ⟨rfl, _⟩ | ⟨rfl | rfl, _⟩ | ⟨⟨a, v, rfl, _⟩ | ⟨a, rfl, _⟩, _⟩ <;> rfl

theorem exec_of_rejects {i : Instr} {s : State} {e : ErrCode} (hi : s.engine = .idle) (h : rejects i s e) :
    exec i s = .next (raiseError e (accept i s)) :=
  exec_rejected (rejects_isRequest h) hi (check_of_rejects h)

/-! ### The error record is sticky (60_exceptions R131) -/

/-- An error recorded in `c` stands in `d`, with its code. -/
def KeepsError (c d : Ctrl) : Prop := c.err = true → d.err = true ∧ d.errCode = c.errCode

theorem keepsError_of_eq {c d : Ctrl} (herr : d.err = c.err) (hcode : d.errCode = c.errCode) : KeepsError c d :=
  fun h => ⟨herr.trans h, hcode⟩

theorem recordError_errCode_first {c : Ctrl} (h : c.err = false) (e : ErrCode) : (recordError e c).errCode = e.code := by
  simp [recordError, h]

theorem recordError_keepsError (e : ErrCode) (c : Ctrl) : KeepsError c (recordError e c) :=
  fun h => ⟨rfl, by simp [recordError, h]⟩

theorem exec_keepsError {i : Instr} {s t : State} (h : exec i s = .next t) : KeepsError s.ctrl t.ctrl := by
  rcases exec_next h with ⟨_, _, e, _, rfl⟩ | ⟨_, _, _, rfl⟩ | ⟨_, f, rfl, _⟩
  · exact recordError_keepsError e s.ctrl
  · obtain ⟨herr, hcode⟩ := runOps_ctrl_error (program s.cfg i) (accept i s)
    exact keepsError_of_eq herr hcode
  · exact keepsError_of_eq rfl rfl

theorem runRequest_keepsError {w : Word} {s t : State} (h : runRequest w s = .next t) : KeepsError s.ctrl t.ctrl := by
  rcases runRequest_next h with ⟨_, rfl⟩ | ⟨i, _, he⟩
  · exact recordError_keepsError _ s.ctrl
  · exact exec_keepsError he

theorem acceptWord_keepsError (w : Word) (s : State) : KeepsError s.ctrl (acceptWord w s).ctrl := by
  rcases acceptWord_cases w s with ⟨_, e⟩ | ⟨i, c, _, _, e⟩ | ⟨i, _, _, e⟩ <;> rw [e]
  · exact recordError_keepsError _ s.ctrl
  · exact recordError_keepsError c s.ctrl
  · exact keepsError_of_eq rfl rfl

theorem tick_keepsError {s t : State} (h : tick s = .next t) : KeepsError s.ctrl t.ctrl := by
  rcases tick_next h with ⟨_, rfl⟩ | ⟨p, op, _, _, ⟨d, _, rfl⟩ | ⟨_, rfl⟩⟩
  · exact keepsError_of_eq rfl rfl
  · rw [(tickWait_only d s).ctrl]
    exact keepsError_of_eq rfl rfl
  · obtain ⟨herr, hcode⟩ := stepOp_ctrl_error op s
    exact keepsError_of_eq herr hcode

/-- Every step but block reset keeps a recorded error. -/
theorem step_keepsError {s t : State} (hs : ∀ rest, s.script ≠ .blockReset :: rest) (h : step s = .next t) :
    KeepsError s.ctrl t.ctrl := by
  obtain ⟨_, hcases⟩ := step_next h
  rcases hcases with ⟨rest, hreset, _⟩ | ⟨u, ⟨rest, _, rfl⟩ | ⟨_, rfl⟩, htick⟩ | ⟨w, rest, _, _, hrun⟩ | ⟨w, rest, _, _, rfl⟩
  · exact absurd hreset (hs rest)
  · exact tick_keepsError (s := { s with script := rest }) htick
  · exact tick_keepsError htick
  · exact runRequest_keepsError (s := { s with script := rest }) hrun
  · exact acceptWord_keepsError w { s with script := rest }

end Sys2Proof.Machine

namespace Sys2Proof.Proofs

open Machine

/-- Settles O8: with a word at the head of the script the step is the engine's, which ends the request by its completion alone. -/
theorem busyBlockHoldsTheHostsWord : Obligations.BusyBlockHoldsTheHostsWord := by
  unfold Obligations.BusyBlockHoldsTheHostsWord
  intro s p w rest hv he hs
  have hword : ∀ r, s.script ≠ .blockReset :: r ∧ s.script ≠ .pause :: r := by
    rcases hs with h | h <;> simp [h]
  have hstep : step s = tick s := step_busy hv he hword
  refine ⟨hstep, fun t ht => ?_⟩
  rw [hstep] at ht
  exact ⟨tick_script ht, tick_goesOn_or_completes he ht⟩

/-- Settles O45: the check that fails comes before any effect, so the step is the shared rejection. -/
theorem rejectedRequestsHaveNoEffect : Obligations.RejectedRequestsHaveNoEffect := by
  unfold Obligations.RejectedRequestsHaveNoEffect
  intro i s e hi h
  exact ⟨_, exec_of_rejects hi h, rejected_accept i e s, rfl, fun hfirst => recordError_errCode_first hfirst e,
    fun hlater => (recordError_keepsError e s.ctrl hlater).2⟩

/-- Settles O46: only a rejection writes the record, and it keeps a code that stands. -/
theorem errorRecordIsSticky : Obligations.ErrorRecordIsSticky := by
  unfold Obligations.ErrorRecordIsSticky
  refine ⟨fun s t hs hstep => step_keepsError hs hstep, fun s i e hi h => ?_, fun s w rest hv hi hs hw => ?_⟩
  · exact ⟨_, exec_of_rejects hi h, rfl, rfl, fun hfirst => recordError_errCode_first hfirst e⟩
  · exact ⟨_, (step_request hv hi hs).trans (runRequest_illegal hw _), rfl, rfl,
      fun hfirst => recordError_errCode_first hfirst .illegalRequest⟩

/-- Settles O6: an idle block carries out whole what the word decodes to. -/
theorem stepRunsDecodedRequest : Obligations.StepRunsDecodedRequest := by
  unfold Obligations.StepRunsDecodedRequest
  exact fun s w rest i hv hi hs hw => (step_request hv hi hs).trans (runRequest_decoded hw { s with script := rest })

/-- Settles O48: every request is carried out by `carryOut`, which looks at the engine first. -/
theorem busyBlockAcceptsNoRequest : Obligations.BusyBlockAcceptsNoRequest := by
  unfold Obligations.BusyBlockAcceptsNoRequest
  intro i s p hr he
  rcases exec_cases i s with ⟨_, hexec⟩ | ⟨hp, _⟩
  · rw [hexec, carryOut_busy i _ _ he]
  · exact absurd hr (by simp [hp])

end Sys2Proof.Proofs

/-! PROOFS. The statements of 70_reset_and_hazards: block reset at any time, writes with no chip selected, what INIT and REFRESH leave on the panel, that a good state always steps, and the least durations. -/

namespace Sys2Proof.Machine

/-! ### Block reset (70_reset_and_hazards R144, R145) -/

/-- Block reset comes before everything else a step could do. -/
theorem step_blockReset {s : State} {rest : List HostEvent} (hv : s.cfg.valid = true)
    (hs : s.script = .blockReset :: rest) : step s = .next (blockReset { s with script := rest }) := by
  simp [step, hv, stepValid, hs]

/-- CTRL reads 0: its stored fields are reset, and no chip is selected. -/
theorem ctrlReg_blockReset (s : State) : ctrlReg (blockReset s) = 0x00 := by
  change ctrlReg State.reset = 0x00
  decide

/-- What was recorded stands; a pulse that is cut short may be added to it (log 14). -/
theorem trace_prefix_blockReset (s : State) : s.trace <+: (blockReset s).trace := by
  rw [State.trace, State.trace, List.reverse_prefix]
  change s.traceRev <:+ traceAfterReset s
  unfold traceAfterReset
  split
  · exact List.suffix_cons _ _
  · exact List.suffix_refl _

/-- With EN low there is no pulse to cut short. -/
theorem trace_blockReset {s : State} (he : s.lines.en = false) : (blockReset s).trace = s.trace := by
  have htrace : traceAfterReset s = s.traceRev := by simp [traceAfterReset, he]
  exact congrArg List.reverse htrace

/-! ### Writes with no chip selected (70_reset_and_hazards R153) -/

/-- A strobe that reaches no chip leaves the panel alone. -/
theorem onReached_of_none_reached {n : NoneSelected} {cs : BitVec 3} (h : ∀ k, isChip k → reaches n cs k = false)
    (f : Nat → Chip → Chip) (p : Panel) : p.onReached n cs f = p := by
  simp [Panel.onReached, h 1 (.inl rfl), h 2 (.inr (.inl rfl)), h 3 (.inr (.inr rfl))]

/-- A data byte acts on the chips reached only. -/
theorem panelLatch_writing_data_onReached (b : Byte) (s : State) :
    (panelLatch b (onLines (Lines.writing true b) s)).panel =
      s.panel.onReached s.cfg.noneSelected s.lines.cs (fun _ => Chip.data b) :=
  onSelected_panel (Chip.data b) (onLines (Lines.writing true b) s)

/-- A START_LINE byte at the default codes sets the start line of each chip reached (20_memory R61). -/
theorem panelCommand_startLine {s : State} (hcodes : s.cfg.codes = CmdCodes.default) (l : BitVec 6) :
    panelCommand (commandByte CmdCodes.default.startLine l) s = startLineEffect l s := by
  have hdec : decodePanel s.cfg.codes (commandByte CmdCodes.default.startLine l) = some (.startLine l) := by
    rw [hcodes, decodePanel_startLine]
  exact (Host.Outcome.next.inj (exec_of_decodePanel hdec)).symm

/-! ### What INIT and REFRESH leave on the panel (70_reset_and_hazards R154 to R156, R160) -/

/-- INIT's two commands go out with no chip selected, to a panel that the reset pulse has just turned off. -/
theorem initBody_chip {s : State} (hcodes : s.cfg.codes = CmdCodes.default) {k : Nat} (hk : isChip k) :
    ((runOps (initBody s.cfg) s).panel.chip k).start = 0 ∧
      ((runOps (initBody s.cfg) s).panel.chip k).on = (s.cfg.noneSelected == .broadcast) := by
  obtain ⟨s1, e1⟩ : ∃ u, u = runOps (panelResetOps ++ [.selectChip 0]) s := ⟨_, rfl⟩
  obtain ⟨s2, e2⟩ : ∃ u, u = runOps (busWriteOps false (commandByte s.cfg.codes.startLine (0 : BitVec 6))) s1 := ⟨_, rfl⟩
  obtain ⟨s3, e3⟩ : ∃ u, u = runOps (busWriteOps false s.cfg.codes.displayOn) s2 := ⟨_, rfl⟩
  have e : (runOps (initBody s.cfg) s).panel = s3.panel := by
    rw [initBody, runOps_append, runOps_append, runOps_append, ← e1, ← e2, ← e3, runOps_cons, runOps_nil]
    exact advance_panel _
  have c1 : s1.cfg = s.cfg := e1 ▸ runOps_cfg _ s
  have c2 : s2.cfg = s.cfg := (e2 ▸ runOps_cfg _ s1).trans c1
  have l1 := resetDeselect_lines s
  rw [← e1] at l1
  have cs1 : s1.lines.cs = csOf 0 := by simp [Lines.cs, l1, csOf]
  have cs2 : s2.lines.cs = csOf 0 := by rw [e2, busWrite_lines, ← cs1]; rfl
  obtain ⟨hoff, hzero⟩ : (s1.panel.chip k).on = false ∧ (s1.panel.chip k).start = 0 := by
    rw [e1, runOps_append, runOps_cons, runOps_nil, stepOp, advance_panel]
    exact panelReset_chip s hk
  have p2 := command_panel (s := s1) (i := .startLine 0) (f := Chip.startLine 0)
    (by rw [c1, hcodes, decodePanel_startLine]) (by simp) hk
  have p3 := command_panel (s := s2) (i := .displayOn) (f := Chip.displayOn)
    (by rw [c2, hcodes, decodePanel_displayOn]) (by simp) hk
  rw [← hcodes, ← e2, cs1, c1, reaches_none _ hk] at p2
  rw [← hcodes, ← e3, cs2, c2, reaches_none _ hk] at p3
  rw [e, p3, p2]
  cases s.cfg.noneSelected
  case ignore => exact ⟨hzero, hoff⟩
  case broadcast => exact ⟨rfl, rfl⟩

/-- A REFRESH carried out, chip by chip: the display flag and the start line as its two ends leave them, and the source byte in every cell. -/
theorem refresh_request_chips {s : State} (hi : s.engine = .idle) (hinit : s.ctrl.init = true)
    (hcodes : s.cfg.codes = CmdCodes.default) : ∃ t, exec .refresh s = .next t ∧ ∀ k, isChip k →
      (t.panel.chip k).on = ((s.panel.chip k).on || k == 3) ∧
      ((t.panel.chip k).start = if reaches s.cfg.noneSelected s.lines.cs k then 0 else (s.panel.chip k).start) ∧
      ∀ page column, (t.panel.chip k).cell page column = src s k page.toNat column.toNat := by
  obtain ⟨u, _, hu, he⟩ := refresh_request hi hinit
  refine ⟨_, he, fun k hk => ?_⟩
  rw [complete_panel, hu, ← accept_cfg .refresh s]
  obtain ⟨hon, hstart⟩ := refresh_view (accept .refresh s) hcodes hk
  exact ⟨hon, hstart, refresh_cells (accept .refresh s) hcodes hk⟩

/-- With the display of its chip on and the start line at 0, a glass row shows the cell row of its own number (20_memory R63). -/
theorem glassPixel_of_on {t : State} {x y : Nat} (hon : (t.panel.chip (x / 64 + 1)).on = true)
    (hstart : (t.panel.chip (x / 64 + 1)).start = 0) (hy : y ≤ 63) : glassPixel t x y =
      some (((t.panel.chip (x / 64 + 1)).cell (BitVec.ofNat 3 (y / 8)) (BitVec.ofNat 6 (x % 64))).getLsbD (y % 8)) := by
  have hrow : (y + (0 : BitVec 6).toNat) % 64 = y := Nat.mod_eq_of_lt (Nat.lt_succ_of_le hy)
  simp only [glassPixel, hon, hstart, hrow, if_true]

/-! ### A good state always steps (93 section 1) -/

/-- A meaning faults on a BUSY block only (60_exceptions R127). -/
theorem exec_progress (i : Instr) {s : State} (hi : s.engine = .idle) : ∃ t, exec i s = .next t := by
  rcases exec_cases i s with ⟨hr, _⟩ | ⟨_, f, he, _⟩
  · cases hc : check i s with
    | none => exact ⟨_, exec_accepted hr hi hc⟩
    | some e => exact ⟨_, exec_rejected hr hi hc⟩
  · exact ⟨_, he⟩

theorem runRequest_progress (w : Word) {s : State} (hi : s.engine = .idle) : ∃ t, runRequest w s = .next t := by
  cases hw : decodeRequest w with
  | none => exact ⟨_, runRequest_illegal hw s⟩
  | some i => rw [runRequest_decoded hw]; exact exec_progress i hi

/-- The position of a good request in progress is one its pseudocode has. -/
theorem tick_progress {s : State} (h : BlockGood s) : ∃ t, tick s = .next t := by
  cases he : s.engine with
  | idle => exact ⟨s, by simp [tick, he]⟩
  | busy p =>
    obtain ⟨_, hpos, _, _⟩ := (State.engineGood_busy he).mp h.engine
    have hop := List.getElem?_eq_getElem hpos
    by_cases hwait : ∃ d, (program s.cfg p.req)[p.pos] = .wait d
    · obtain ⟨d, hd⟩ := hwait
      exact ⟨_, tick_wait he (hop.trans (congrArg some hd))⟩
    · exact ⟨_, tick_op he hop fun d hd => hwait ⟨d, hd⟩⟩

theorem stepValid_progress {s : State} (h : BlockGood s) : ∃ t, stepValid s = .next t := by
  unfold stepValid
  split
  · exact ⟨_, rfl⟩
  · next rest _ => exact tick_progress (h.withScript rest)
  · next w rest _ hi => exact runRequest_progress w (s := { s with script := rest }) hi
  · exact ⟨_, rfl⟩
  · exact tick_progress h

/-! ### The least durations (70_reset_and_hazards R162) -/

/-- The least time of a strobe. -/
def strobeNs (c : Config) : Nat := 2 * tEnMinNs + c.tAsNs

theorem minNs_append (c : Config) (xs ys : List MicroOp) : minNs c (xs ++ ys) = minNs c xs + minNs c ys := by
  fun_induction minNs c xs with
  | case1 => simp
  | case2 d ops ih => rw [List.cons_append, minNs, ih, Nat.add_assoc]
  | case3 op ops hop ih => rw [List.cons_append, minNs, ih]; exact hop

/-- The least time of a loop whose rounds take the same least time. -/
theorem minNs_flatMap_const {c : Config} {α : Type} {l : List α} {f : α → List MicroOp} {n : Nat}
    (h : ∀ a ∈ l, minNs c (f a) = n) : minNs c (l.flatMap f) = l.length * n := by
  induction l with
  | nil => simp [minNs]
  | cons a l ih =>
    rw [List.flatMap_cons, minNs_append, h a (by simp), ih fun b hb => h b (by simp [hb]), List.length_cons,
      Nat.succ_mul, Nat.add_comm]

theorem minNs_strobe (c : Config) : minNs c strobeOps = strobeNs c := by
  simp only [strobeOps, minNs, delayNs, strobeNs]
  omega

/-- `BusWrite` waits in its strobe only. -/
theorem minNs_busWrite (c : Config) (rs : Bool) (b : Byte) : minNs c (busWriteOps rs b) = strobeNs c := minNs_strobe c

/-- `BusRead` waits as a strobe does, with the sample between. -/
theorem minNs_busRead (c : Config) : minNs c busReadOps = strobeNs c := minNs_strobe c

/-- A page is its command and its 64 data bytes. -/
theorem minNs_page (c : Config) (page : Nat) : minNs c (pageOps c page) = 65 * strobeNs c := by
  have hdata : ∀ col ∈ List.range 64, minNs c (.seqCol (BitVec.ofNat 6 col) :: dataByteOps) = strobeNs c :=
    fun _ _ => minNs_strobe c
  simp only [pageOps, minNs_append, minNs_flatMap_const hdata, List.length_range, minNs_busWrite, minNs, cols]
  omega

/-- A chip is its column command and its 8 pages. -/
theorem minNs_chip (c : Config) (chip : Nat) : minNs c (chipOps c chip) = 521 * strobeNs c := by
  simp only [chipOps, minNs_append, minNs_flatMap_const fun p _ => minNs_page c p, List.length_range, minNs_busWrite,
    minNs, pages]
  omega

/-- A refresh is 1565 strobes (41_refresh_driver R108). -/
theorem minNs_refresh (c : Config) : minNs c (refreshOps c) = 1565 * strobeNs c := by
  simp only [refreshOps, minNs_append, minNs_flatMap_const fun k _ => minNs_chip c k, minNs_busWrite, minNs,
    List.length_cons, List.length_nil]
  omega

theorem minNs_init (c : Config) : minNs c (program c .init) = tRstMinNs + 2 * strobeNs c := by
  simp only [program, initProgram, minNs_append, minNs_busWrite, panelResetOps, minNs, delayNs]
  omega

end Sys2Proof.Machine

namespace Sys2Proof.Proofs

open Machine

/-- Settles O36: the displays stay on and the start lines at 0, so each glass pixel is a bit of its cell's source byte. -/
theorem refreshShowsTheImageOnTheGlass : Obligations.RefreshShowsTheImageOnTheGlass := by
  unfold Obligations.RefreshShowsTheImageOnTheGlass
  intro s hi hinit hcodes hpanel
  obtain ⟨t, he, hchips⟩ := refresh_request_chips hi hinit hcodes
  obtain ⟨t', he', himage⟩ := refreshRotatesTheImage s hi hinit hcodes
  obtain rfl : t = t' := Host.Outcome.next.inj (he.symm.trans he')
  refine ⟨t, he, fun x y hx hy => ?_⟩
  have hk : isChip (x / 64 + 1) := by unfold isChip; omega
  obtain ⟨hon, hstart, _⟩ := hchips _ hk
  obtain ⟨hwasOn, hwasZero⟩ := hpanel _ hk
  rw [hwasZero, ite_self] at hstart
  rw [glassPixel_of_on (by rw [hon, hwasOn]; rfl) hstart hy, himage x y hx hy]

/-- Settles O32: the chips' pages and columns are set before their data bytes, whatever they were. -/
theorem refreshFillsEveryPanelCell : Obligations.RefreshFillsEveryPanelCell := by
  unfold Obligations.RefreshFillsEveryPanelCell
  intro s hi hinit hcodes
  obtain ⟨t, he, hchips⟩ := refresh_request_chips hi hinit hcodes
  refine ⟨t, he, fun k page column hk => ?_⟩
  obtain ⟨_, _, hcells⟩ := hchips k hk
  exact hcells page column

/-- Settles O34: the opening START_LINE goes to the chips selected before, the closing DISPLAY_ON to chip 3. -/
theorem refreshTouchesOneDisplayFlag : Obligations.RefreshTouchesOneDisplayFlag := by
  unfold Obligations.RefreshTouchesOneDisplayFlag
  intro s hi hinit hcodes
  obtain ⟨t, he, hchips⟩ := refresh_request_chips hi hinit hcodes
  refine ⟨t, he, fun k hk => ?_⟩
  obtain ⟨hon, hstart, _⟩ := hchips k hk
  exact ⟨hon, hstart⟩

/-- Settles O35: the reset pulse turns the displays off, and DISPLAY_ON goes out with no chip selected. -/
theorem initTurnsTheDisplaysOnOnlyByBroadcast : Obligations.InitTurnsTheDisplaysOnOnlyByBroadcast := by
  unfold Obligations.InitTurnsTheDisplaysOnOnlyByBroadcast
  intro s hi hinit hcodes
  have hcheck : check .init s = none := by simp [check, needsUninit_eq, hinit]
  obtain ⟨he, _⟩ := exec_completed (i := .init) (body := initBody s.cfg) rfl hi hcheck (program_init s.cfg)
  refine ⟨_, he, fun k hk => ?_⟩
  rw [complete_panel, ← accept_cfg .init s]
  obtain ⟨hstart, hon⟩ := initBody_chip (s := accept .init s) hcodes hk
  exact ⟨hstart, by rw [hon, beq_iff_eq]⟩

/-- Settles O19: with no chip selected the build decides whether a strobe reaches the chips, and the transaction is recorded either way. -/
theorem writeWithNoChipSelected : Obligations.WriteWithNoChipSelected := by
  unfold Obligations.WriteWithNoChipSelected
  intro s b hi hcs
  have hreaches : ∀ k, isChip k → reaches s.cfg.noneSelected s.lines.cs k = (s.cfg.noneSelected == .broadcast) :=
    fun k hk => by rw [hcs]; exact reaches_none s.cfg.noneSelected hk
  obtain ⟨t, het, _, _, httrace, _, _, _, htpanel⟩ := busWrite_request false b (.wrcmd b) hi
  obtain ⟨u, heu, _, _, hutrace, _, _, _, hupanel⟩ := busWrite_request true b (.wrdata b) hi
  rw [panelLatch_writing_command] at htpanel
  rw [hcs] at httrace hutrace
  refine ⟨t, u, het, heu, httrace, hutrace, fun hn => ?_, fun hn => ?_⟩
  · have hnone : ∀ k, isChip k → reaches s.cfg.noneSelected s.lines.cs k = false :=
      fun k hk => (hreaches k hk).trans (by rw [hn]; rfl)
    obtain ⟨f, hf⟩ := panelCommand_onReached b s
    exact ⟨(htpanel.trans hf).trans (onReached_of_none_reached hnone f _),
      (hupanel.trans (panelLatch_writing_data_onReached b s)).trans (onReached_of_none_reached hnone _ _)⟩
  · intro k hk
    have hreached : reaches s.cfg.noneSelected s.lines.cs k = true := (hreaches k hk).trans (by rw [hn]; rfl)
    refine ⟨?_, fun l hcodes hb => ?_⟩
    · rw [hupanel, panelLatch_writing_data b s hk, if_pos hreached, Chip.cell_data, if_pos ⟨rfl, rfl⟩]
    · have hcommand : panelCommand b s = startLineEffect l s := hb ▸ panelCommand_startLine hcodes l
      rw [htpanel, hcommand, startLineEffect, onSelected_chip _ _ hk, if_pos hreached]
      rfl

/-- Settles O55: the engine is IDLE wherever a word is carried out, and at a position its request has wherever it ticks. -/
theorem goodStatesAlwaysStep : Obligations.GoodStatesAlwaysStep := by
  unfold Obligations.GoodStatesAlwaysStep
  intro s h hv
  rw [step, if_pos hv]
  exact stepValid_progress h

/-- Settles O59: the waits of each request's pseudocode, strobe by strobe. -/
theorem leastDurationsAsListed : Obligations.LeastDurationsAsListed := by
  unfold Obligations.LeastDurationsAsListed
  intro c b n r a
  have hrefresh : minNs c (program c .refresh) = 1565 * strobeNs c := by
    rw [program, refreshProgram, minNs_append, minNs_refresh]; rfl
  have hclear : minNs c (program c .clear) = minNs c (program c .refresh) := rfl
  refine ⟨minNs_busWrite c false b, minNs_busWrite c true b, minNs_busRead c, rfl, rfl, rfl, minNs_init c, hrefresh,
    hclear.trans hrefresh, rfl, rfl, rfl, rfl, fun h => ?_⟩
  rw [h]
  exact ⟨rfl, rfl, rfl⟩

/-- Settles O9: each item is read off `blockReset`; the trace may gain the pulse that was cut short. -/
theorem blockResetFromEveryState : Obligations.BlockResetFromEveryState := by
  unfold Obligations.BlockResetFromEveryState
  intro s rest hv hs
  exact ⟨_, step_blockReset hv hs, rfl, rfl, ctrlReg_blockReset _, rfl, rfl, rfl, rfl, rfl, rfl, rfl, rfl, rfl, rfl,
    fun _ => rfl, trace_prefix_blockReset { s with script := rest }, rfl, rfl, rfl⟩

/-- Settles O10: between strobes block reset leaves the panel alone, and after the whole wait of a pulse it ends the pulse. -/
theorem blockResetLeavesThePanel : Obligations.BlockResetLeavesThePanel := by
  unfold Obligations.BlockResetLeavesThePanel
  intro s rest hv hs
  refine ⟨fun hen hrst => ?_, fun p he _ hpos hen hrst => ?_⟩
  · exact ⟨_, step_blockReset hv hs, panelAfterReset_rest (s := { s with script := rest }) hen hrst,
      trace_blockReset (s := { s with script := rest }) hen⟩
  · have hpanel := panelAfterReset_full (s := { s with script := rest }) hrst (resetPulseFull_rise he hpos)
    refine ⟨_, step_blockReset hv hs, trace_blockReset (s := { s with script := rest }) hen, fun k hk => ?_⟩
    change ((panelAfterReset { s with script := rest }).chip k).on = false ∧
      ((panelAfterReset { s with script := rest }).chip k).start = 0
    rw [hpanel]
    exact panelPowerOn_chip { s with script := rest } hk

end Sys2Proof.Proofs
